-- ==== Sys2Proof/Word.lean ====
section
/-!
DEFINITION. The word types of the core: a 32-bit unsigned word (R12), an 8-bit byte, and the 64-bit
registers that hold lengths and counts (R9).
-/

namespace Sys2Proof

/-- A word: 32 bits, unsigned (R12). -/
abbrev Word := BitVec 32

/-- A byte: 8 bits (R12). -/
abbrev Byte := BitVec 8

/-- A 64-bit register: `LEN`, `PLEN`, `NBLK`, `BLK`, and the host port's data (R9). -/
abbrev Quad := BitVec 64

end Sys2Proof
end

