-- ==== Sys2Proof/Config.lean ====
section
/-!
DEFINITION. The free values: what the spec leaves without a value although the machine goes on. Each is an
opaque constant without a body, so that no proof can lean on a value of it. (The one open PARAMETER,
`MAX_BLOCKS`, is a field of `State`, so that a statement about every state is one about every capacity: log 6.)
-/

namespace Sys2Proof

/-- The value a port read returns where the spec says "an unspecified value" (R240, R247, R249, U11: "a free
input of the step; never a fixed number"). The argument numbers the read (`State.freeCtr`). Log 4. -/
opaque Config.freeRead : Nat → Quad

/-- The content of a byte of `MSG` that the host has not written in the model (R311: the core "hashes the
first `LEN` bytes of `MSG` whatever they are"). The argument is the address, so a read is repeatable (R62).
Log 7. -/
opaque Config.msgByte : Nat → Byte

/-- The 64 bits `BE64` spells for a number of `2^64` or more: "Not defined for `v >= 2^64`" (R122). CHK keeps
such a number from arising. Log 11. -/
opaque Config.be64Beyond : Nat → Quad

/-- What `PLEN` receives when the padded length of `LEN` (the argument) needs more than 64 bits: the spec
states no result there (R29, R146). CHK keeps such a length from arising. Log 12. -/
opaque Config.plenBeyond : Nat → Quad

end Sys2Proof
end

