-- ==== Sys2Proof/Syntax.lean ====
section
/-!
DEFINITION. The instructions: one constructor per row of `spec/opcode_table.json`. Fourteen are transactions
of the host port (format `HOST`, R81, R86, R87), fourteen are micro-operations of the sequencer (format `SEQ`,
R82, R88). Also the sequencer's phases, whose codes are the opcodes of format `SEQ`.
-/

namespace Sys2Proof

/-- The phases of the sequencer (R88): an enumeration of the fifteen names; the reserved code 0xF is left out
of the type (R89). -/
inductive Phase where
  | idle | chk | plen | pzero | pcopy | pterm | plenw | pseg | hinit | wld | wex | rld | rnd | ffw | emit
deriving DecidableEq, Repr

/-- The data of a transaction to a register number that is illegal in both directions: `read`, or `write v`
(R92: `rd r<n>` and `wr r<n>, <v>`). -/
inductive Access where
  | read
  | write (v : Quad)
deriving DecidableEq, Repr

/-- One constructor per row of the opcode table. A read carries no data: its `wdata` is "ignored (any value,
not decoded)" (R81). A micro-operation carries the operands of format `SEQ` (R82): `blk`, the block index,
and for WLD, WEX and RND `idx`, the step index; `IDX` is 0 in every other micro-operation. -/
inductive Instr where
  /-- `wr CMD, START` (R241). -/
  | start
  /-- `wr LEN, v` (R242). -/
  | wrlen (v : Quad)
  /-- `rd STATUS` (R243). -/
  | rdstatus
  /-- `rd LEN` (R244). -/
  | rdlen
  /-- `rd NBLK` (R245). -/
  | rdnblk
  /-- `rd DIG<i>` (R246). -/
  | rddig (i : BitVec 3)
  /-- `wr CMD, v` with `v != 1` (R87 a). -/
  | illegalCmd (v : Quad)
  /-- `rd CMD` (R87 b). -/
  | illegalRdcmd
  /-- `wr STATUS, v` (R87 c). -/
  | illegalWrstatus (v : Quad)
  /-- `wr NBLK, v` (R87 c). -/
  | illegalWrnblk (v : Quad)
  /-- An access of the reserved register `n`, 4 to 7 (R87 d). -/
  | illegalRes4to7 (n : BitVec 6) (acc : Access)
  /-- `wr DIG<i>, v` (R87 c). -/
  | illegalWrdig (i : BitVec 3) (v : Quad)
  /-- An access of the reserved register `n`, 16 to 31 (R87 d). -/
  | illegalRes16to31 (n : BitVec 6) (acc : Access)
  /-- An access of the reserved register `n`, 32 to 63 (R87 d). -/
  | illegalRes32to63 (n : BitVec 6) (acc : Access)
  /-- Check the length (R145). -/
  | chk (blk : Quad)
  /-- Compute the padded length (R146). -/
  | plen (blk : Quad)
  /-- Allocate the padded buffer and zero it beyond the message (R147). -/
  | pzero (blk : Quad)
  /-- Copy the message (R149). -/
  | pcopy (blk : Quad)
  /-- Set the terminator (R150). -/
  | pterm (blk : Quad)
  /-- Write the length field (R151). -/
  | plenw (blk : Quad)
  /-- Partition into blocks (R152). -/
  | pseg (blk : Quad)
  /-- Initialise the hash state (R211). -/
  | hinit (blk : Quad)
  /-- Load schedule word `idx` of block `blk` (R171). -/
  | wld (idx : BitVec 7) (blk : Quad)
  /-- Expand schedule word `idx` (R172). -/
  | wex (idx : BitVec 7) (blk : Quad)
  /-- Copy the hash state into the working registers (R191). -/
  | rld (blk : Quad)
  /-- Round `idx` (R192). -/
  | rnd (idx : BitVec 7) (blk : Quad)
  /-- Feed-forward (R193). -/
  | ffw (blk : Quad)
  /-- Emit the digest (R212). -/
  | emit (blk : Quad)
deriving DecidableEq, Repr

end Sys2Proof
end

