-- ==== Sys2Proof/WellFormed.lean ====
section
/-!
DEFINITION. Which terms of `Instr` some word of the two formats spells: the operand ranges of R87 and R90.
(That a block index is below `NBLK`, R171, is a relation to the state: an invariant, not a check here.)
-/

namespace Sys2Proof

/-- The operand ranges: R87 (a) `wdata != 1`, (d) the reserved register numbers, and R90's ranges of `IDX`. -/
def Instr.wf : Instr → Bool
  | .start => true
  | .wrlen _ => true
  | .rdstatus => true
  | .rdlen => true
  | .rdnblk => true
  | .rddig _ => true
  | .illegalCmd v => v != 1
  | .illegalRdcmd => true
  | .illegalWrstatus _ => true
  | .illegalWrnblk _ => true
  | .illegalRes4to7 n _ => decide (4 ≤ n.toNat ∧ n.toNat ≤ 7)
  | .illegalWrdig _ _ => true
  | .illegalRes16to31 n _ => decide (16 ≤ n.toNat ∧ n.toNat ≤ 31)
  | .illegalRes32to63 n _ => decide (32 ≤ n.toNat)
  | .chk _ => true
  | .plen _ => true
  | .pzero _ => true
  | .pcopy _ => true
  | .pterm _ => true
  | .plenw _ => true
  | .pseg _ => true
  | .hinit _ => true
  | .wld t _ => decide (t.toNat ≤ 15)
  | .wex j _ => decide (16 ≤ j.toNat ∧ j.toNat ≤ 63)
  | .rld _ => true
  | .rnd j _ => decide (j.toNat ≤ 63)
  | .ffw _ => true
  | .emit _ => true

end Sys2Proof
end

