-- ==== Sys2Proof/Decode.lean ====
section
/-!
DEFINITION. The two formats (R80): the 71-bit transaction word of the host port (R81, R86, R87) and the
sequencer register as an instruction word (R82, R88). The decoder, then the encoder, and the match and mask
rows of R86 and R94.
-/

namespace Sys2Proof

/-- A transaction word `T[70:0]` (R81). -/
abbrev HostWord := BitVec 71

/-- The sequencer register as one word: `PHASE` in bits 3:0, `IDX` in bits 10:4, `BLK` in bits 74:11. R82
gives the fields and their widths; their places are this model's (log 13). -/
abbrev SeqWord := BitVec 75

/-- An instruction word of either format. -/
inductive Code where
  | host (t : HostWord)
  | seq (q : SeqWord)
deriving DecidableEq, Repr

/-- Why a word is no instruction. -/
inductive DecodeReject where
  /-- `PHASE` is `IDLE`: "not a micro-operation: the sequencer has no step" (R88). -/
  | idle
  /-- `PHASE` is the reserved code 0xF (R89). -/
  | reservedPhase
  /-- `IDX` is not 0 in a micro-operation that has no step index (R26, R82). -/
  | idxNotZero
deriving DecidableEq, Repr

/-! ## Format HOST -/

/-- The word `{we, addr, wdata}` (R81). -/
def hostWord (we : Bool) (addr : BitVec 6) (wdata : Quad) : HostWord :=
  BitVec.ofBool we ++ addr ++ wdata

/-- `T[70]` (R81). -/
def HostWord.we (t : HostWord) : Bool := t.getLsbD 70

/-- `T[69:64]` (R81). -/
def HostWord.addr (t : HostWord) : BitVec 6 := t.extractLsb' 64 6

/-- `T[63:0]` (R81). -/
def HostWord.wdata (t : HostWord) : Quad := t.extractLsb' 0 64

/-- `addr[2:0]`, the digest word index of `RDDIG` and of a write to `DIGi` (R86, R246). -/
def digIndex (addr : BitVec 6) : BitVec 3 := addr.extractLsb' 0 3

/-- The register number of `DIGi`: `8 + i` (R37). -/
def digAddr (i : BitVec 3) : BitVec 6 := (1#3) ++ i

/-- A write transaction by its register number (R86, R87). `wdata` is decoded whole (R83). -/
def decodeWrite (addr : BitVec 6) (wdata : Quad) : Instr :=
  if addr.toNat = 0 then (if wdata = 1 then .start else .illegalCmd wdata)
  else if addr.toNat = 1 then .illegalWrstatus wdata
  else if addr.toNat = 2 then .wrlen wdata
  else if addr.toNat = 3 then .illegalWrnblk wdata
  else if addr.toNat ≤ 7 then .illegalRes4to7 addr (.write wdata)
  else if addr.toNat ≤ 15 then .illegalWrdig (digIndex addr) wdata
  else if addr.toNat ≤ 31 then .illegalRes16to31 addr (.write wdata)
  else .illegalRes32to63 addr (.write wdata)

/-- A read transaction by its register number (R86, R87). -/
def decodeRead (addr : BitVec 6) : Instr :=
  if addr.toNat = 0 then .illegalRdcmd
  else if addr.toNat = 1 then .rdstatus
  else if addr.toNat = 2 then .rdlen
  else if addr.toNat = 3 then .rdnblk
  else if addr.toNat ≤ 7 then .illegalRes4to7 addr .read
  else if addr.toNat ≤ 15 then .rddig (digIndex addr)
  else if addr.toNat ≤ 31 then .illegalRes16to31 addr .read
  else .illegalRes32to63 addr .read

/-- The host port's decoder. It is total: every 71-bit word is a transaction, legal or illegal (R87). -/
def decodeHost (t : HostWord) : Instr :=
  if t.we then decodeWrite t.addr t.wdata else decodeRead t.addr

/-! ## Format SEQ -/

/-- The phase code (R88). -/
def phaseCode : Phase → BitVec 4
  | .idle => 0x0#4
  | .chk => 0x1#4
  | .plen => 0x2#4
  | .pzero => 0x3#4
  | .pcopy => 0x4#4
  | .pterm => 0x5#4
  | .plenw => 0x6#4
  | .pseg => 0x7#4
  | .hinit => 0x8#4
  | .wld => 0x9#4
  | .wex => 0xA#4
  | .rld => 0xB#4
  | .rnd => 0xC#4
  | .ffw => 0xD#4
  | .emit => 0xE#4

/-- The phase of a code; none for the reserved code 0xF (R88, R89). -/
def phaseOfCode (c : BitVec 4) : Option Phase :=
  match c.toNat with
  | 0 => some .idle
  | 1 => some .chk
  | 2 => some .plen
  | 3 => some .pzero
  | 4 => some .pcopy
  | 5 => some .pterm
  | 6 => some .plenw
  | 7 => some .pseg
  | 8 => some .hinit
  | 9 => some .wld
  | 10 => some .wex
  | 11 => some .rld
  | 12 => some .rnd
  | 13 => some .ffw
  | 14 => some .emit
  | _ => none

/-- A micro-operation without a step index: its `IDX` is 0 (R26, R82). -/
def plainMicroOp (i : Instr) (idx : BitVec 7) : Except DecodeReject Instr :=
  if idx = 0 then .ok i else .error .idxNotZero

/-- The micro-operation the sequencer register names (R26, R88). A step index is passed on as it stands; its
range is `Instr.wf`. -/
def decodeSeqFields (p : Phase) (idx : BitVec 7) (blk : Quad) : Except DecodeReject Instr :=
  match p with
  | .idle => .error .idle
  | .chk => plainMicroOp (.chk blk) idx
  | .plen => plainMicroOp (.plen blk) idx
  | .pzero => plainMicroOp (.pzero blk) idx
  | .pcopy => plainMicroOp (.pcopy blk) idx
  | .pterm => plainMicroOp (.pterm blk) idx
  | .plenw => plainMicroOp (.plenw blk) idx
  | .pseg => plainMicroOp (.pseg blk) idx
  | .hinit => plainMicroOp (.hinit blk) idx
  | .wld => .ok (.wld idx blk)
  | .wex => .ok (.wex idx blk)
  | .rld => plainMicroOp (.rld blk) idx
  | .rnd => .ok (.rnd idx blk)
  | .ffw => plainMicroOp (.ffw blk) idx
  | .emit => plainMicroOp (.emit blk) idx

/-- The word of the fields `(PHASE, IDX, BLK)` (R82; the places: log 13). -/
def seqWord (c : BitVec 4) (idx : BitVec 7) (blk : Quad) : SeqWord := blk ++ idx ++ c

/-- The `PHASE` field. -/
def SeqWord.phase (q : SeqWord) : BitVec 4 := q.extractLsb' 0 4

/-- The `IDX` field. -/
def SeqWord.idx (q : SeqWord) : BitVec 7 := q.extractLsb' 4 7

/-- The `BLK` field. -/
def SeqWord.blk (q : SeqWord) : Quad := q.extractLsb' 11 64

/-- The decoder of format `SEQ`. -/
def decodeSeq (q : SeqWord) : Except DecodeReject Instr :=
  match phaseOfCode q.phase with
  | none => .error .reservedPhase
  | some p => decodeSeqFields p q.idx q.blk

/-- The decoder: total on every word of either format, rejecting by name. -/
def decode : Code → Except DecodeReject Instr
  | .host t => .ok (decodeHost t)
  | .seq q => decodeSeq q

/-! ## The encoder -/

/-- The transaction word of an access of register `n`; the `wdata` of a read, which is not decoded, is
written as 0. -/
def accessWord (n : BitVec 6) : Access → HostWord
  | .read => hostWord false n 0
  | .write v => hostWord true n v

/-- The word of an instruction (R86, R87, R88). -/
def encode : Instr → Code
  | .start => .host (hostWord true 0 1)
  | .wrlen v => .host (hostWord true 2 v)
  | .rdstatus => .host (hostWord false 1 0)
  | .rdlen => .host (hostWord false 2 0)
  | .rdnblk => .host (hostWord false 3 0)
  | .rddig i => .host (hostWord false (digAddr i) 0)
  | .illegalCmd v => .host (hostWord true 0 v)
  | .illegalRdcmd => .host (hostWord false 0 0)
  | .illegalWrstatus v => .host (hostWord true 1 v)
  | .illegalWrnblk v => .host (hostWord true 3 v)
  | .illegalRes4to7 n a => .host (accessWord n a)
  | .illegalWrdig i v => .host (hostWord true (digAddr i) v)
  | .illegalRes16to31 n a => .host (accessWord n a)
  | .illegalRes32to63 n a => .host (accessWord n a)
  | .chk b => .seq (seqWord (phaseCode .chk) 0 b)
  | .plen b => .seq (seqWord (phaseCode .plen) 0 b)
  | .pzero b => .seq (seqWord (phaseCode .pzero) 0 b)
  | .pcopy b => .seq (seqWord (phaseCode .pcopy) 0 b)
  | .pterm b => .seq (seqWord (phaseCode .pterm) 0 b)
  | .plenw b => .seq (seqWord (phaseCode .plenw) 0 b)
  | .pseg b => .seq (seqWord (phaseCode .pseg) 0 b)
  | .hinit b => .seq (seqWord (phaseCode .hinit) 0 b)
  | .wld t b => .seq (seqWord (phaseCode .wld) t b)
  | .wex j b => .seq (seqWord (phaseCode .wex) j b)
  | .rld b => .seq (seqWord (phaseCode .rld) 0 b)
  | .rnd j b => .seq (seqWord (phaseCode .rnd) j b)
  | .ffw b => .seq (seqWord (phaseCode .ffw) 0 b)
  | .emit b => .seq (seqWord (phaseCode .emit) 0 b)

/-! ## The rows of the opcode table -/

/-- The mnemonic of an instruction's row. -/
def Instr.mnemonic : Instr → String
  | .start => "START"
  | .wrlen _ => "WRLEN"
  | .rdstatus => "RDSTATUS"
  | .rdlen => "RDLEN"
  | .rdnblk => "RDNBLK"
  | .rddig _ => "RDDIG"
  | .illegalCmd _ => "ILLEGAL.cmd"
  | .illegalRdcmd => "ILLEGAL.rdcmd"
  | .illegalWrstatus _ => "ILLEGAL.wrstatus"
  | .illegalWrnblk _ => "ILLEGAL.wrnblk"
  | .illegalRes4to7 _ _ => "ILLEGAL.res4to7"
  | .illegalWrdig _ _ => "ILLEGAL.wrdig"
  | .illegalRes16to31 _ _ => "ILLEGAL.res16to31"
  | .illegalRes32to63 _ _ => "ILLEGAL.res32to63"
  | .chk _ => "CHK"
  | .plen _ => "PLEN"
  | .pzero _ => "PZERO"
  | .pcopy _ => "PCOPY"
  | .pterm _ => "PTERM"
  | .plenw _ => "PLENW"
  | .pseg _ => "PSEG"
  | .hinit _ => "HINIT"
  | .wld _ _ => "WLD"
  | .wex _ _ => "WEX"
  | .rld _ => "RLD"
  | .rnd _ _ => "RND"
  | .ffw _ => "FFW"
  | .emit _ => "EMIT"

/-- A row of format `HOST`: a word `T` is matched when `T & mask = pattern` (R86). -/
structure HostRow where
  mnemonic : String
  pattern : HostWord
  mask : HostWord
deriving DecidableEq, Repr

/-- The six transactions (R86). -/
def legalRows : List HostRow :=
  [⟨"START", 0x400000000000000001#71, 0x7FFFFFFFFFFFFFFFFF#71⟩,
   ⟨"WRLEN", 0x420000000000000000#71, 0x7F0000000000000000#71⟩,
   ⟨"RDSTATUS", 0x010000000000000000#71, 0x7F0000000000000000#71⟩,
   ⟨"RDLEN", 0x020000000000000000#71, 0x7F0000000000000000#71⟩,
   ⟨"RDNBLK", 0x030000000000000000#71, 0x7F0000000000000000#71⟩,
   ⟨"RDDIG", 0x080000000000000000#71, 0x780000000000000000#71⟩]

/-- The eight rows of `ILLEGAL` (R94); `ILLEGAL.cmd` takes what START leaves, and so stands after it. -/
def illegalRows : List HostRow :=
  [⟨"ILLEGAL.cmd", 0x400000000000000000#71, 0x7F0000000000000000#71⟩,
   ⟨"ILLEGAL.rdcmd", 0x000000000000000000#71, 0x7F0000000000000000#71⟩,
   ⟨"ILLEGAL.wrstatus", 0x410000000000000000#71, 0x7F0000000000000000#71⟩,
   ⟨"ILLEGAL.wrnblk", 0x430000000000000000#71, 0x7F0000000000000000#71⟩,
   ⟨"ILLEGAL.res4to7", 0x040000000000000000#71, 0x3C0000000000000000#71⟩,
   ⟨"ILLEGAL.wrdig", 0x480000000000000000#71, 0x780000000000000000#71⟩,
   ⟨"ILLEGAL.res16to31", 0x100000000000000000#71, 0x300000000000000000#71⟩,
   ⟨"ILLEGAL.res32to63", 0x200000000000000000#71, 0x200000000000000000#71⟩]

/-- The fourteen `HOST` rows, in the order in which they are tried (R94). -/
def hostRows : List HostRow := legalRows ++ illegalRows

/-- Whether a word matches a row (R86). -/
def HostRow.hits (r : HostRow) (t : HostWord) : Bool := t &&& r.mask == r.pattern

/-- The mnemonics of the rows a word matches (R94). -/
def rowsHit (t : HostWord) : List String := (hostRows.filter (·.hits t)).map (·.mnemonic)

/-! ## The host's word for a row of the table -/

/-- The code of a row's bits: `9` to `72` bits are a transaction word (71 bits), any other number the
sequencer register; bits above `nbits` are 0. -/
def tableCode (nbits w : Nat) : Option Code :=
  if 8 < nbits ∧ nbits ≤ 72 then (if w < 2 ^ 71 then some (.host (BitVec.ofNat 71 w)) else none)
  else (if w < 2 ^ 75 then some (.seq (BitVec.ofNat 75 w)) else none)

/-- The instruction the decoder reads from an instruction of a table row. -/
def decodeTableWord (nbits w : Nat) : Option Instr :=
  match tableCode nbits w with
  | none => none
  | some c => (decode c).toOption

end Sys2Proof
end

