-- ==== Sys2Proof/Machine/State.lean ====
section
/-!
DEFINITION. The state of the core as plain data: every element of R20, the parameters of the step relation
(R20, last paragraph), and the model's own three fields; the state after reset (R41); the reasons a step can
stop.
-/

namespace Sys2Proof.Machine

/-- The fault cause codes that can be recorded (R279): an enumeration; 8 to 15 are left out (U13). -/
inductive Cause where
  | none | emptyMessage | lengthOverflow | allocation | blockCount | illegalCommand | illegalAccess | busyViolation
deriving DecidableEq, Repr

/-- The working registers `a..h` (R22). -/
structure WorkRegs where
  a : Word
  b : Word
  c : Word
  d : Word
  e : Word
  f : Word
  g : Word
  h : Word
deriving DecidableEq, Repr

/-- A file of eight words: `H[0..7]` (R23), and the table `IV`. -/
abbrev Words8 := Vector Word 8

/-- A byte memory: the bytes that hold a value, by address. -/
abbrev Memory := List Host.Cell

/-- The padded buffer while it is allocated (R38): addresses `0` to `size - 1` exist; a byte that is not
listed holds no value yet (R147). -/
structure PadBuf where
  size : Nat
  cells : Memory
deriving DecidableEq, Repr

/-- The sequencer register `SEQ = (PHASE, BLK, IDX)` (R26): this hardware's program counter. -/
structure Seq where
  phase : Phase
  blk : Quad
  idx : BitVec 7
deriving DecidableEq, Repr

/-- The fields of `STATUS` (R31). Bit 3 reads 0 and is no state. -/
structure Status where
  busy : Bool
  done : Bool
  err : Bool
  cause : Cause
  fphase : Phase
deriving DecidableEq, Repr

/-- A move of the host, between two sequencer steps (R67, R250). -/
inductive HostMove where
  /-- The host stays off the port: the sequencer takes its step, if it has one. -/
  | pass
  /-- A transaction on the port (R240). -/
  | txn (t : HostWord)
  /-- The host writes bytes to `MSG` from an address up (R51, R92 `.msg`). -/
  | writeMsg (addr : Quad) (bytes : List Byte)
  /-- The reset input (R300). -/
  | reset
deriving DecidableEq, Repr

/-- The elements that can hold no value (R20, R21). -/
inductive Element where
  | workRegs
  | hash
  | sched (j : Nat)
  | plen
  | nblk
  | padByte (addr : Nat)
deriving DecidableEq, Repr

/-- The machine. An element whose reset value is "no value" (R20) is an `Option`: "a model should represent
'no value' explicitly (an option type, ...) and treat a read of it as a fault of the model, never as zero"
(R21). `none` is the spec's own state "no value", given by reset, by START, by EMIT and by fault entry. How finely
it is kept (one for `a..h`, one for `H`, one per word of `W`, one per byte of `PB`) is log 3. -/
structure State where
  /-- `a..h` (R22). -/
  regs : Option WorkRegs
  /-- `H[0..7]` (R23). -/
  hash : Option Words8
  /-- `W[0..63]`, each word with or without a value (R24). -/
  sched : Vector (Option Word) 64
  /-- `PB`; `none` is "not allocated" (R38). -/
  pb : Option PadBuf
  /-- `PLEN` (R29). -/
  plen : Option Quad
  /-- `NBLK` (R29). -/
  nblk : Option Quad
  /-- `LEN` (R30). -/
  len : Quad
  /-- `SEQ` (R26). -/
  seq : Seq
  /-- `STATUS` (R31). -/
  status : Status
  /-- The host's message space `MSG` (R39, R51): the bytes the host has written. No state of the core; log 7. -/
  msg : Memory
  /-- The open parameter `MAX_BLOCKS` (R10); `none` is unbounded. No step changes it; log 6. -/
  maxBlocks : Option Nat
  /-- What the last host transaction returned (R81: a read returns 64 bits, "a write returns nothing"). The
  model's own field: an output, no storage of the core; log 5. -/
  rdata : Option Quad
  /-- Numbers the unspecified read values (U11). The model's own field; log 4. -/
  freeCtr : Nat
  /-- The host's coming moves, first to come first. The model's own field; log 1. -/
  inputs : List HostMove
deriving DecidableEq, Repr

/-- `SEQ` at rest, after reset (R41). -/
def Seq.reset : Seq := ⟨.idle, 0, 0⟩

/-- `STATUS = 0` (R41). -/
def Status.reset : Status := ⟨false, false, false, .none, .idle⟩

/-- The machine right after reset (R41, R300): `SEQ = (IDLE, 0, 0)`, `STATUS = 0`, `LEN = 0`, no value in
`a..h`, `H`, `W`, `PLEN`, `NBLK`, `PB` not allocated. The host has written nothing to `MSG` (log 7),
`MAX_BLOCKS` is unbounded, the spec's default for tests (R10, log 6), and no host move is pending (log 1). -/
def State.reset : State where
  regs := none
  hash := none
  sched := Vector.replicate 64 none
  pb := none
  plen := none
  nblk := none
  len := 0
  seq := Seq.reset
  status := Status.reset
  msg := []
  maxBlocks := none
  rdata := none
  freeCtr := 0
  inputs := []

/-! One named update per field. -/

def State.setRegs (v : Option WorkRegs) (s : State) : State := { s with regs := v }
def State.setHash (v : Option Words8) (s : State) : State := { s with hash := v }
def State.setSched (v : Vector (Option Word) 64) (s : State) : State := { s with sched := v }
def State.setPb (v : Option PadBuf) (s : State) : State := { s with pb := v }
def State.setPlen (v : Option Quad) (s : State) : State := { s with plen := v }
def State.setNblk (v : Option Quad) (s : State) : State := { s with nblk := v }
def State.setLen (v : Quad) (s : State) : State := { s with len := v }
def State.setSeq (v : Seq) (s : State) : State := { s with seq := v }
def State.setStatus (v : Status) (s : State) : State := { s with status := v }
def State.setMsg (v : Memory) (s : State) : State := { s with msg := v }
def State.setMaxBlocks (v : Option Nat) (s : State) : State := { s with maxBlocks := v }
def State.setRdata (v : Option Quad) (s : State) : State := { s with rdata := v }
def State.setFreeCtr (v : Nat) (s : State) : State := { s with freeCtr := v }
def State.setInputs (v : List HostMove) (s : State) : State := { s with inputs := v }

/-- Why a step stops with a fault OF THE MODEL. (A fault of the HARDWARE is a next state: fault entry, R280.)
Each of these stands in states that no run from reset reaches, but for the last. -/
inductive Fault where
  /-- Raised by a micro-operation or port read that reads an element holding no value, as the spec prescribes.
  R21: "A model should represent "no value" explicitly ... and treat a read of it as a fault of the model, never as
  zero"; U12: "make a read of it a fault of the model". Safe: "The spec's rules never read such an element" (R21). -/
  | noValue (e : Element)
  /-- Raised by PCOPY, PTERM, PLENW or WLD while `PB` is not allocated: it "does not exist" (R38). Safe. -/
  | pbNotAllocated
  /-- Raised by PCOPY, PTERM, PLENW or WLD at an address outside `0..P-1` (R38, R52). Safe. -/
  | pbAddress (addr : Nat)
  /-- Raised by WLD, WEX or RND with a step index outside its range, and by a sequencer step whose register
  holds a step index in a phase that has none: "unreachable" (R89, U13). Safe. -/
  | stepIndex (p : Phase) (idx : BitVec 7)
  /-- Raised by FFW when `BLK + 1 > NBLK`: R193 and R213 give no next `SEQ` there, R42 rules it out. Safe. -/
  | blockIndex (blk : Quad)
  /-- Raised by a sequencer step at the reserved phase code, which no value of `Phase` has (R89). Safe. -/
  | reservedPhase
  /-- Raised by a host write of `MSG` that leaves the 64-bit addresses of the space (R50). Safe. -/
  | msgAddress (addr : Nat)
deriving DecidableEq, Repr

/-- Why a step has no meaning. -/
inductive Refusal where
  /-- An instruction without a meaning in `exec` (none is left). Safe. -/
  | notModelled (mnemonic : String)
  /-- Raised by a host write of `MSG[0..LEN-1]` during a run: "the model gives such a launch no meaning
  (refuse)" (R72, R313, U5). Safe. -/
  | msgWriteDuringRun
deriving DecidableEq, Repr

/-- The outcome of a step of this machine. -/
abbrev Result := Host.Outcome State Fault Refusal

end Sys2Proof.Machine
end

