-- ==== Sys2Proof/Machine/Flags.lean ====
section
/-!
DEFINITION. The status register (R31 to R34): its word, its cause codes, and every update of its flags.
-/

namespace Sys2Proof.Machine

/-- The cause codes (R279). -/
def causeCode : Cause → BitVec 4
  | .none => 0#4
  | .emptyMessage => 1#4
  | .lengthOverflow => 2#4
  | .allocation => 3#4
  | .blockCount => 4#4
  | .illegalCommand => 5#4
  | .illegalAccess => 6#4
  | .busyViolation => 7#4

/-- The 12 bits of `STATUS` (R31): `FPHASE` 11:8, `CAUSE` 7:4, bit 3 zero, `ERR` 2, `DONE` 1, `BUSY` 0. -/
def statusWord (t : Status) : BitVec 12 :=
  phaseCode t.fphase ++ causeCode t.cause ++ (0#1) ++
    BitVec.ofBool t.err ++ BitVec.ofBool t.done ++ BitVec.ofBool t.busy

/-- The flags of an accepted START: `DONE <- 0`, `BUSY <- 1` (R241). -/
def startFlags (t : Status) : Status := { t with done := false, busy := true }

/-- The flags of EMIT: `DONE <- 1`, `BUSY <- 0`; `ERR`, `CAUSE`, `FPHASE` keep their values (R212). -/
def emitFlags (t : Status) : Status := { t with done := true, busy := false }

/-- The flags of fault entry with cause `c`, raised while the sequencer's phase is `p` (R280). -/
def faultFlags (c : Cause) (p : Phase) : Status := ⟨false, false, true, c, p⟩

end Sys2Proof.Machine
end

