-- ==== Sys2Proof/Machine/Words.lean ====
section
/-!
DEFINITION. The word functions and byte conversions (R110 to R122): combinational, total, without flags and
faults.
-/

namespace Sys2Proof.Machine

/-- `(x + y) mod 2^32` (R110). -/
def add32 (x y : Word) : Word := x + y

/-- Circular right rotation of a word, `1 <= n <= 31` (R111, G3). -/
def rotr (x : Word) (n : Nat) : Word := (x >>> n) ||| (x <<< (32 - n))

/-- Logical right shift (R112). -/
def shr (x : Word) (n : Nat) : Word := x >>> n

/-- The source's σ0 (R113). -/
def ssig0 (x : Word) : Word := rotr x 7 ^^^ rotr x 18 ^^^ shr x 3

/-- The source's σ1 (R114). -/
def ssig1 (x : Word) : Word := rotr x 17 ^^^ rotr x 19 ^^^ shr x 10

/-- The source's Σ0 (R115). -/
def bsig0 (x : Word) : Word := rotr x 2 ^^^ rotr x 13 ^^^ rotr x 22

/-- The source's Σ1 (R116). -/
def bsig1 (x : Word) : Word := rotr x 6 ^^^ rotr x 11 ^^^ rotr x 25

/-- Choice (R117). -/
def chFn (e f g : Word) : Word := (e &&& f) ^^^ (~~~e &&& g)

/-- Majority (R118). -/
def majFn (a b c : Word) : Word := (a &&& b) ^^^ (a &&& c) ^^^ (b &&& c)

/-- The word whose most significant byte is `b0` (R120), written as arithmetic on bytes (R58). -/
def be32 (b0 b1 b2 b3 : Byte) : Word :=
  BitVec.ofNat 32 (b0.toNat * 2 ^ 24 + b1.toNat * 2 ^ 16 + b2.toNat * 2 ^ 8 + b3.toNat)

/-- The four bytes of a word, most significant first (R121). -/
def bytesBE32 (x : Word) : List Byte :=
  [x.extractLsb' 24 8, x.extractLsb' 16 8, x.extractLsb' 8 8, x.extractLsb' 0 8]

/-- The eight bytes of a 64-bit number, most significant first (R122). -/
def be64 (v : Quad) : List Byte :=
  [v.extractLsb' 56 8, v.extractLsb' 48 8, v.extractLsb' 40 8, v.extractLsb' 32 8,
   v.extractLsb' 24 8, v.extractLsb' 16 8, v.extractLsb' 8 8, v.extractLsb' 0 8]

/-- The digest as 32 bytes: the eight words, each most significant byte first (R57, R217). -/
def digestBytes (h : Words8) : List Byte :=
  bytesBE32 h[0] ++ bytesBE32 h[1] ++ bytesBE32 h[2] ++ bytesBE32 h[3] ++
  bytesBE32 h[4] ++ bytesBE32 h[5] ++ bytesBE32 h[6] ++ bytesBE32 h[7]

end Sys2Proof.Machine
end

