-- ==== Sys2Proof/Machine/Ops.lean ====
section
/-!
DEFINITION. The named operations: byte memory, reads of the elements that can hold no value, the padded
buffer, the message space, fault entry (R280) and what leaves the fault state (reset, R300; there is no
return from a fault, R284), and the replies of the host port.
-/

namespace Sys2Proof.Machine

/-! ## Byte memory -/

/-- The bytes `bs` at the addresses from `a` up. -/
def cellsFrom : Nat → List Byte → Memory
  | _, [] => []
  | a, b :: bs => (a, b) :: cellsFrom (a + 1) bs

/-- The byte at an address; `none` where the memory lists none: what an unlisted address reads as. -/
def memGet : Memory → Nat → Option Byte
  | [], _ => none
  | (x, b) :: m, a => if x = a then some b else memGet m a

/-- `MemWrite` of a byte list (R14): the bytes `bs` from address `a` up; every other address keeps its byte.
A write of no bytes changes nothing. -/
def memPut (m : Memory) (a : Nat) (bs : List Byte) : Memory :=
  m.filter (fun c => decide (c.1 < a)) ++ cellsFrom a bs ++ m.filter (fun c => decide (a + bs.length ≤ c.1))

/-- The canonical form: addresses strictly rising. (An unlisted address holds no byte at all, so no entry can
equal what an unlisted address reads as.) -/
def Memory.wf : Memory → Bool
  | [] => true
  | [_] => true
  | x :: y :: m => decide (x.1 < y.1) && Memory.wf (y :: m)

/-! ## Continuing after a read -/

/-- Continue with the value read, or stop with the model's fault. -/
def orFault {α : Type} (r : Except Fault α) (k : α → Result) : Result :=
  match r with
  | .ok v => k v
  | .error f => .fault f

/-- The value of an element. Where it holds none the spec itself prescribes the stop: "treat a read of it as a fault
of the model, never as zero" (R21, 10_state.md); "hold as "no value" and make a read of it a fault of the model"
(U12, 93_implementation_defined.md). The one place that raises `noValue`; every read of such an element goes
through it. -/
def valueOf {α : Type} (e : Element) : Option α → Except Fault α
  | some v => .ok v
  | none => .error (.noValue e)

/-! ## Elements that can hold no value -/

/-- Read `a..h`. -/
def readRegs (s : State) : Except Fault WorkRegs := valueOf .workRegs s.regs

/-- Read `H`. -/
def readHash (s : State) : Except Fault Words8 := valueOf .hash s.hash

/-- Read `W[j]`. -/
def readSched (s : State) (j : Nat) : Except Fault Word := valueOf (.sched j) (s.sched[j]?.join)

/-- Read `PLEN`, as a number of bytes. -/
def readPlen (s : State) : Except Fault Nat := (valueOf .plen s.plen).map (·.toNat)

/-- Read `NBLK`. -/
def readNblk (s : State) : Except Fault Quad := valueOf .nblk s.nblk

/-- `W[j] <- x`. -/
def writeSched (j : Nat) (x : Word) (s : State) : State := s.setSched (s.sched.setIfInBounds j (some x))

/-- `W <- unspecified` (R24, R175, R280). -/
def dropSched (s : State) : State := s.setSched (Vector.replicate 64 none)

/-! ## The padded buffer -/

/-- A fresh buffer of `size` bytes whose bytes `[from, size)` are 0 and whose other bytes hold no value
(R147). -/
def allocZeroed (start size : Nat) : PadBuf := ⟨size, cellsFrom start (List.replicate (size - start) 0)⟩

/-- The byte of `PB` at an address. -/
def readPbByte (s : State) (a : Nat) : Except Fault Byte :=
  match s.pb with
  | none => .error .pbNotAllocated
  | some b => if a < b.size then valueOf (.padByte a) (memGet b.cells a) else .error (.pbAddress a)

/-- `BE32` of the four bytes of `PB` from an address up (R55, R171). -/
def readPbWord (s : State) (a : Nat) : Except Fault Word :=
  match readPbByte s a, readPbByte s (a + 1), readPbByte s (a + 2), readPbByte s (a + 3) with
  | .ok b0, .ok b1, .ok b2, .ok b3 => .ok (be32 b0 b1 b2 b3)
  | .error f, _, _, _ => .error f
  | _, .error f, _, _ => .error f
  | _, _, .error f, _ => .error f
  | _, _, _, .error f => .error f

/-- `MemWrite(PB, a, n, bytes)` (R14): the buffer with the bytes written. -/
def writePb (s : State) (a : Nat) (bs : List Byte) : Except Fault PadBuf :=
  match s.pb with
  | none => .error .pbNotAllocated
  | some b => if a + bs.length ≤ b.size then .ok { b with cells := memPut b.cells a bs } else .error (.pbAddress a)

/-! ## The message space -/

/-- The byte of `MSG` at an address, for the core (R51): what the host wrote there, or, where it wrote
nothing, a free value (R311; log 7). There is no access fault (R149). -/
def msgByteAt (s : State) (k : Nat) : Byte := (memGet s.msg k).getD (Config.msgByte k)

/-- `MemRead(MSG, 0, n)` (R14): the bytes at addresses `0` to `n - 1`. -/
def msgBytes (s : State) (n : Nat) : List Byte := (List.range n).map (msgByteAt s)

/-! ## Fault entry and reset -/

/-- Control transfer: `SEQ <- (p, i, j)` (R14). -/
def goTo (p : Phase) (i : Quad) (j : BitVec 7) (s : State) : State := s.setSeq ⟨p, i, j⟩

/-- `release PB; H, W, a..h, NBLK, PLEN <- unspecified` (R280). -/
def dropResults (s : State) : State :=
  dropSched (((((s.setPb none).setHash none).setRegs none).setNblk none).setPlen none)

/-- Fault entry, `raise Fault(c)` (R280), the one operation for every cause: first fault wins; the cause and
the phase are recorded, `ERR` is set, `BUSY` and `DONE` are cleared, the sequencer rests with its block
index, and every result is gone. `LEN` keeps its value. There is no handler, no saved counter and no return
(R284). -/
def raise (c : Cause) (s : State) : State :=
  if s.status.err then s
  else dropResults (goTo .idle s.seq.blk 0 (s.setStatus (faultFlags c s.seq.phase)))

/-- The reset input (R300): every element of R20 at its reset value. It is "the only way to clear
`STATUS.ERR`". `MSG` is untouched (R302), the parameter stays, and so do the host's further moves and the
number of the next free value (log 19). -/
def applyReset (s : State) : State :=
  (((State.reset.setMsg s.msg).setMaxBlocks s.maxBlocks).setFreeCtr s.freeCtr).setInputs s.inputs

/-! ## Replies of the host port -/

/-- A read that returns `v` (R81). -/
def replyWith (v : Quad) (s : State) : State := s.setRdata (some v)

/-- A write "returns nothing" (R81). -/
def replyNone (s : State) : State := s.setRdata none

/-- A read that returns an unspecified value (R247, R249, U11): a fresh free value. -/
def replyFree (s : State) : State := (s.setRdata (some (Config.freeRead s.freeCtr))).setFreeCtr (s.freeCtr + 1)

/-- The reply of a transaction that is not performed: an unspecified value to a read, nothing to a write. -/
def replyUnperformed (isRead : Bool) (s : State) : State := if isRead then replyFree s else replyNone s

end Sys2Proof.Machine
end

