-- ==== Sys2Proof/Machine/Compressor.lean ====
section
/-!
DEFINITION. The compressor CMP and its round function: RLD, RND, FFW (R191 to R193).
-/

namespace Sys2Proof.Machine

/-- "copy state into working registers a..h" (R191). -/
def loadRegs (h : Words8) : WorkRegs := ⟨h[0], h[1], h[2], h[3], h[4], h[5], h[6], h[7]⟩

/-- `T1` of a round (R192). -/
def roundT1 (r : WorkRegs) (k w : Word) : Word :=
  add32 (add32 (add32 (add32 r.h (bsig1 r.e)) (chFn r.e r.f r.g)) k) w

/-- `T2` of a round (R192). -/
def roundT2 (r : WorkRegs) : Word := add32 (bsig0 r.a) (majFn r.a r.b r.c)

/-- The round function: a parallel update built wholly from old values (R192, R196). -/
def roundFn (r : WorkRegs) (k w : Word) : WorkRegs where
  a := add32 (roundT1 r k w) (roundT2 r)
  b := r.a
  c := r.b
  d := r.c
  e := add32 r.d (roundT1 r k w)
  f := r.e
  g := r.f
  h := r.g

/-- The feed-forward: each working register added into its hash-state word (R193). -/
def feedForward (h : Words8) (r : WorkRegs) : Words8 :=
  #v[add32 h[0] r.a, add32 h[1] r.b, add32 h[2] r.c, add32 h[3] r.d,
     add32 h[4] r.e, add32 h[5] r.f, add32 h[6] r.g, add32 h[7] r.h]

/-- RLD (R191). -/
def execRld (blk : Quad) (s : State) : Result :=
  orFault (readHash s) fun h => .next (goTo .rnd blk 0 (s.setRegs (some (loadRegs h))))

/-- `SEQ` after RND j (R192, R213). -/
def afterRnd (j : BitVec 7) (blk : Quad) (s : State) : State :=
  if j.toNat < 63 then goTo .rnd blk (j + 1) s else goTo .ffw blk 0 s

/-- RND j (R192, R196). -/
def execRnd (j : BitVec 7) (blk : Quad) (s : State) : Result :=
  if j.toNat ≤ 63 then
    orFault (readRegs s) fun r =>
      orFault (readSched s j.toNat) fun w =>
        .next (afterRnd j blk (s.setRegs (some (roundFn r (kConst j.toNat) w))))
  else .fault (.stepIndex .rnd j)

/-- FFW (R193): the feed-forward, and on to the next block or to EMIT. The working registers are not changed;
`W` holds no value from here on (R24, R175; log 10). -/
def execFfw (blk : Quad) (s : State) : Result :=
  orFault (readHash s) fun h =>
    orFault (readRegs s) fun r =>
      orFault (readNblk s) fun nb =>
        if blk.toNat + 1 < nb.toNat then
          .next (goTo .wld (blk + 1) 0 (dropSched (s.setHash (some (feedForward h r)))))
        else if blk.toNat + 1 = nb.toNat then
          .next (goTo .emit (blk + 1) 0 (dropSched (s.setHash (some (feedForward h r)))))
        else .fault (.blockIndex blk)

end Sys2Proof.Machine
end

