-- ==== Sys2Proof/Machine/Driver.lean ====
section
/-!
DEFINITION. The hash state register file and the end of a run: HINIT and EMIT (R211, R212).
-/

namespace Sys2Proof.Machine

/-- HINIT (R211): `H[k] <- IV[k]`. -/
def execHinit (s : State) : Result := .next (goTo .wld 0 0 (s.setHash (some iv)))

/-- EMIT (R212): `PB` released, `DONE` set, `BUSY` cleared, the sequencer at rest with its block index; `H` is
not changed, `W` and `a..h` are left without value. -/
def execEmit (blk : Quad) (s : State) : Result :=
  .next (goTo .idle blk 0 (dropSched (((s.setPb none).setRegs none).setStatus (emitFlags s.status))))

end Sys2Proof.Machine
end

