-- ==== Sys2Proof/Machine/Operands.lean ====
section
/-!
DEFINITION. The operand computations of the micro-operations: the padded length and block count (R142, R143),
the effective addresses in `PB` (R84), the length field's number, the capacity check (R148). Lengths and
addresses are natural numbers, exact and unbounded (R11, R125).
-/

namespace Sys2Proof.Machine

/-- `Z`, the number of whole zero bytes of the padding (R142): `rem = (L + 9) mod 64`,
`Z = (64 - rem) mod 64`. -/
def zeroBytes (l : Nat) : Nat := (64 - (l + 9) % 64) % 64

/-- `P = L + 9 + Z`, the padded length in bytes (R142). -/
def padLen (l : Nat) : Nat := l + 9 + zeroBytes l

/-- `NB = P / 64`, the number of blocks (R143). -/
def blockCount (l : Nat) : Nat := padLen l / 64

/-- What PLEN writes to `PLEN`: `P`, which fits 64 bits for every length CHK lets pass (R29). Beyond 64 bits
the spec states no result: a free value (log 12). -/
def plenValue (l : Nat) : Quad :=
  if padLen l < 2 ^ 64 then BitVec.ofNat 64 (padLen l) else Config.plenBeyond l

/-- What PLEN writes to `NBLK`: `NB`, which fits 64 bits for every 64-bit length (R29). -/
def nblkValue (l : Nat) : Quad := BitVec.ofNat 64 (blockCount l)

/-- The number of the length field, `8 * L` (R151, R56). At `2^64` or more `BE64` is not defined (R122): a
free value (log 11). -/
def lengthField (l : Nat) : Quad :=
  if 8 * l < 2 ^ 64 then BitVec.ofNat 64 (8 * l) else Config.be64Beyond (8 * l)

/-- The address of word `t` of block `i` in `PB`: `64*i + 4*t` (R84, R171). -/
def blockWordAddr (i t : Nat) : Nat := 64 * i + 4 * t

/-- Whether `nb` blocks are more than `MAX_BLOCKS` (R148). -/
def overCapacity (maxBlocks : Option Nat) (nb : Nat) : Bool :=
  match maxBlocks with
  | none => false
  | some m => decide (m < nb)

end Sys2Proof.Machine
end

