-- ==== Sys2Proof/Machine/Expander.lean ====
section
/-!
DEFINITION. The message-schedule expander EXP: WLD and WEX (R171, R172).
-/

namespace Sys2Proof.Machine

/-- The schedule recurrence: `(W[j-16] + ssig0(W[j-15]) + W[j-7] + ssig1(W[j-2])) mod 2^32` (R172). -/
def schedNext (w16 w15 w7 w2 : Word) : Word := add32 (add32 (add32 w16 (ssig0 w15)) w7) (ssig1 w2)

/-- `SEQ` after WLD t (R171, R213). -/
def afterWld (t : BitVec 7) (blk : Quad) (s : State) : State :=
  if t.toNat < 15 then goTo .wld blk (t + 1) s else goTo .wex blk 16 s

/-- WLD t (R171): word `t` of block `blk`, big-endian. -/
def execWld (t : BitVec 7) (blk : Quad) (s : State) : Result :=
  if t.toNat ≤ 15 then
    orFault (readPbWord s (blockWordAddr blk.toNat t.toNat)) fun x =>
      .next (afterWld t blk (writeSched t.toNat x s))
  else .fault (.stepIndex .wld t)

/-- `SEQ` after WEX j (R172, R213). -/
def afterWex (j : BitVec 7) (blk : Quad) (s : State) : State :=
  if j.toNat < 63 then goTo .wex blk (j + 1) s else goTo .rld blk 0 s

/-- WEX j (R172). -/
def execWex (j : BitVec 7) (blk : Quad) (s : State) : Result :=
  if 16 ≤ j.toNat ∧ j.toNat ≤ 63 then
    orFault (readSched s (j.toNat - 16)) fun w16 =>
      orFault (readSched s (j.toNat - 15)) fun w15 =>
        orFault (readSched s (j.toNat - 7)) fun w7 =>
          orFault (readSched s (j.toNat - 2)) fun w2 =>
            .next (afterWex j blk (writeSched j.toNat (schedNext w16 w15 w7 w2) s))
  else .fault (.stepIndex .wex j)

end Sys2Proof.Machine
end

