-- ==== Sys2Proof/Machine/HostPort.lean ====
section
/-!
DEFINITION. The host port: the ordered checks of R240, the transactions (R241 to R247), and the host's writes
to the message space (R51, R72).
-/

namespace Sys2Proof.Machine

/-! ## The checks of R240, in their order -/

/-- Check 1 (R240, R249): in the fault state a transaction other than RDSTATUS has no effect, "a read returning
an unspecified value". -/
def unlessFaulted (isRead : Bool) (k : State → State) (s : State) : State :=
  if s.status.err then replyUnperformed isRead s else k s

/-- Check 2 (R240, R247): an illegal word raises its fault, busy or resting; "a read returns an unspecified
value". -/
def illegalWord (isRead : Bool) (c : Cause) (s : State) : State :=
  unlessFaulted isRead (fun s => replyUnperformed isRead (raise c s)) s

/-- Check 3 (R240, R248): while `BUSY = 1` the transaction raises `BUSY_VIOLATION`. -/
def unlessBusy (isRead : Bool) (k : State → Result) (s : State) : Result :=
  if s.status.busy then .next (replyUnperformed isRead (raise .busyViolation s)) else k s

/-- Check 4 (R240, R245, R246): a result is not read while `DONE = 0`. -/
def whenDone (k : State → Result) (s : State) : Result :=
  if s.status.done then k s else .next (replyFree (raise .illegalAccess s))

/-- Checks 1, 3 and 4 of a read of a result. -/
def resultRead (k : State → Result) (s : State) : Result :=
  if s.status.err then .next (replyFree s) else unlessBusy true (whenDone k) s

/-- Checks 1 and 3 of a write of a control register. -/
def controlWrite (k : State → State) (s : State) : Result :=
  if s.status.err then .next (replyNone s) else unlessBusy false (fun s => .next (replyNone (k s))) s

/-! ## The effects -/

/-- An accepted START (R241): `DONE <- 0`, `BUSY <- 1`, "the results of an earlier run are gone", `SEQ <- (CHK,
0, 0)`. (The snapshot of `MSG`: log 8.) -/
def startRun (s : State) : State :=
  goTo .chk 0 0 ((((s.setStatus (startFlags s.status)).setHash none).setNblk none).setPlen none)

/-- START (R241). -/
def execStart (s : State) : Result := controlWrite startRun s

/-- WRLEN v (R242): `LEN <- v`, all 64 bits (R83). -/
def execWrlen (v : Quad) (s : State) : Result := controlWrite (fun s => s.setLen v) s

/-- RDSTATUS (R243): legal always, `rdata = zext_64(STATUS)`. -/
def execRdstatus (s : State) : Result := .next (replyWith ((statusWord s.status).setWidth 64) s)

/-- RDLEN (R244): legal when `ERR = 0`, also while busy. -/
def execRdlen (s : State) : Result := .next (unlessFaulted true (fun s => replyWith s.len s) s)

/-- RDNBLK (R245): legal when `DONE = 1`. -/
def execRdnblk (s : State) : Result :=
  resultRead (fun s => orFault (readNblk s) fun n => .next (replyWith n s)) s

/-- RDDIG i (R246): legal when `DONE = 1`, `rdata = zext_64(H[i])`. -/
def execRddig (i : BitVec 3) (s : State) : Result :=
  resultRead (fun s => orFault (readHash s) fun h => .next (replyWith ((h[i.toNat]).setWidth 64) s)) s

/-! ## ILLEGAL (R247), one meaning per row -/

/-- Whether an access of a reserved register is a read. -/
def accessIsRead : Access → Bool
  | .read => true
  | .write _ => false

/-- A write of CMD other than 1: `ILLEGAL_COMMAND` (R87 a, R275). -/
def execIllegalCmd (s : State) : Result := .next (illegalWord false .illegalCommand s)

/-- A read of the write-only CMD: `ILLEGAL_ACCESS` (R87 b). -/
def execIllegalRdcmd (s : State) : Result := .next (illegalWord true .illegalAccess s)

/-- A write of the read-only STATUS (R87 c). -/
def execIllegalWrstatus (s : State) : Result := .next (illegalWord false .illegalAccess s)

/-- A write of the read-only NBLK (R87 c). -/
def execIllegalWrnblk (s : State) : Result := .next (illegalWord false .illegalAccess s)

/-- An access of a register number 4 to 7 (R87 d). -/
def execIllegalRes4to7 (acc : Access) (s : State) : Result :=
  .next (illegalWord (accessIsRead acc) .illegalAccess s)

/-- A write of the read-only DIGi (R87 c). -/
def execIllegalWrdig (s : State) : Result := .next (illegalWord false .illegalAccess s)

/-- An access of a register number 16 to 31 (R87 d). -/
def execIllegalRes16to31 (acc : Access) (s : State) : Result :=
  .next (illegalWord (accessIsRead acc) .illegalAccess s)

/-- An access of a register number 32 to 63 (R87 d). -/
def execIllegalRes32to63 (acc : Access) (s : State) : Result :=
  .next (illegalWord (accessIsRead acc) .illegalAccess s)

/-! ## The message space -/

/-- Whether `n` bytes from address `a` up touch the message of the run in progress, `MSG[0..LEN-1]`. -/
def touchesMessage (s : State) (a n : Nat) : Bool := s.status.busy && decide (0 < n) && decide (a < s.len.toNat)

/-- The host writes bytes to `MSG` (R51, R92 `.msg`). During a run a write of `MSG[0..LEN-1]` has no meaning
(R72, R313). -/
def hostWriteMsg (addr : Quad) (bytes : List Byte) (s : State) : Result :=
  if touchesMessage s addr.toNat bytes.length then .refused .msgWriteDuringRun
  else if addr.toNat + bytes.length ≤ 2 ^ 64 then .next (s.setMsg (memPut s.msg addr.toNat bytes))
  else .fault (.msgAddress (addr.toNat + bytes.length))

/-! ## The digest as a byte string -/

/-- `DIGEST[0..31]`: "a function of `H`, defined while `STATUS.DONE = 1`", not storage (R53, R57). -/
def digestOf (s : State) : Option (List Byte) := if s.status.done then s.hash.map digestBytes else none

end Sys2Proof.Machine
end

