-- ==== Sys2Proof/Machine/Padder.lean ====
section
/-!
DEFINITION. The padder and segmenter PAD: CHK, PLEN, PZERO, PCOPY, PTERM, PLENW, PSEG (R145 to R152).
-/

namespace Sys2Proof.Machine

/-- CHK (R145): `L = 0` and `8 * L >= 2^64` are faults. -/
def execChk (s : State) : Result :=
  if s.len = 0 then .next (raise .emptyMessage s)
  else if 2 ^ 64 ≤ 8 * s.len.toNat then .next (raise .lengthOverflow s)
  else .next (goTo .plen 0 0 s)

/-- PLEN (R146): the padded length and the block count. -/
def execPlen (s : State) : Result :=
  .next (goTo .pzero 0 0
    ((s.setPlen (some (plenValue s.len.toNat))).setNblk (some (nblkValue s.len.toNat))))

/-- PZERO (R147, R148): the capacity check, the allocation, the zeros beyond the message. -/
def execPzero (s : State) : Result :=
  orFault (readNblk s) fun nb =>
    if overCapacity s.maxBlocks nb.toNat then .next (raise .allocation s)
    else orFault (readPlen s) fun p => .next (goTo .pcopy 0 0 (s.setPb (some (allocZeroed s.len.toNat p))))

/-- PCOPY (R149): the message into the head of the buffer. -/
def execPcopy (s : State) : Result :=
  orFault (writePb s 0 (msgBytes s s.len.toNat)) fun b => .next (goTo .pterm 0 0 (s.setPb (some b)))

/-- PTERM (R150): the terminator 0x80 at offset `L`. -/
def execPterm (s : State) : Result :=
  orFault (writePb s s.len.toNat [0x80#8]) fun b => .next (goTo .plenw 0 0 (s.setPb (some b)))

/-- PLENW (R151): the length in bits, big-endian, in the last eight bytes. -/
def execPlenw (s : State) : Result :=
  orFault (readPlen s) fun p =>
    if p < 8 then .fault (.pbAddress p)
    else orFault (writePb s (p - 8) (be64 (lengthField s.len.toNat))) fun b =>
      .next (goTo .pseg 0 0 (s.setPb (some b)))

/-- PSEG (R152): the consistency check of the partition. -/
def execPseg (s : State) : Result :=
  orFault (readPlen s) fun p =>
    orFault (readNblk s) fun nb =>
      if p % 64 ≠ 0 ∨ nb.toNat * 64 ≠ p ∨ nb.toNat < 1 then .next (raise .blockCount s)
      else .next (goTo .hinit 0 0 s)

end Sys2Proof.Machine
end

