-- ==== Sys2Proof/Machine/Dispatch.lean ====
section
/-!
DEFINITION. The dispatch: one arm per constructor of `Instr`, one meaning per arm.
-/

namespace Sys2Proof.Machine

def exec (i : Instr) (s : State) : Host.Outcome State Fault Refusal :=
  match i with
  | .start => Sys2Proof.Machine.execStart s
  | .wrlen v => Sys2Proof.Machine.execWrlen v s
  | .rdstatus => Sys2Proof.Machine.execRdstatus s
  | .rdlen => Sys2Proof.Machine.execRdlen s
  | .rdnblk => Sys2Proof.Machine.execRdnblk s
  | .rddig k => Sys2Proof.Machine.execRddig k s
  | .illegalCmd _ => Sys2Proof.Machine.execIllegalCmd s
  | .illegalRdcmd => Sys2Proof.Machine.execIllegalRdcmd s
  | .illegalWrstatus _ => Sys2Proof.Machine.execIllegalWrstatus s
  | .illegalWrnblk _ => Sys2Proof.Machine.execIllegalWrnblk s
  | .illegalRes4to7 _ acc => Sys2Proof.Machine.execIllegalRes4to7 acc s
  | .illegalWrdig _ _ => Sys2Proof.Machine.execIllegalWrdig s
  | .illegalRes16to31 _ acc => Sys2Proof.Machine.execIllegalRes16to31 acc s
  | .illegalRes32to63 _ acc => Sys2Proof.Machine.execIllegalRes32to63 acc s
  | .chk _ => Sys2Proof.Machine.execChk s
  | .plen _ => Sys2Proof.Machine.execPlen s
  | .pzero _ => Sys2Proof.Machine.execPzero s
  | .pcopy _ => Sys2Proof.Machine.execPcopy s
  | .pterm _ => Sys2Proof.Machine.execPterm s
  | .plenw _ => Sys2Proof.Machine.execPlenw s
  | .pseg _ => Sys2Proof.Machine.execPseg s
  | .hinit _ => Sys2Proof.Machine.execHinit s
  | .wld t blk => Sys2Proof.Machine.execWld t blk s
  | .wex j blk => Sys2Proof.Machine.execWex j blk s
  | .rld blk => Sys2Proof.Machine.execRld blk s
  | .rnd j blk => Sys2Proof.Machine.execRnd j blk s
  | .ffw blk => Sys2Proof.Machine.execFfw blk s
  | .emit blk => Sys2Proof.Machine.execEmit blk s

end Sys2Proof.Machine
end

