-- ==== Sys2Proof/Machine/Fetch.lean ====
section
/-!
DEFINITION. What the next step is: the host's next move, the micro-operation the sequencer register names, and
the state in which a given instruction word comes next.
-/

namespace Sys2Proof.Machine

/-- The host's next move; a host with no further move stays off the port (log 1). -/
def nextMove (s : State) : HostMove := s.inputs.headD .pass

/-- The state with the host's next move taken. -/
def takeMove (s : State) : State := s.setInputs s.inputs.tail

/-- The micro-operation `SEQ` names (R26, R88). -/
def fetchSeq (q : Seq) : Except DecodeReject Instr := decodeSeqFields q.phase q.idx q.blk

/-- The model's fault at a sequencer register that names no micro-operation and is not at rest (R89). -/
def seqRejectFault (q : Seq) : DecodeReject → Fault
  | .idle => .reservedPhase
  | .reservedPhase => .reservedPhase
  | .idxNotZero => .stepIndex q.phase q.idx

/-- One block of zero bytes, for `midRun`. -/
def zeroBlock : PadBuf := ⟨64, (List.range 64).map fun k => (k, 0#8)⟩

/-- The words of `W` that hold no value become 0, for `midRun`. -/
def fillSched (v : Vector (Option Word) 64) : Vector (Option Word) 64 :=
  ⟨(v.toList.map fun x => some (x.getD 0)).toArray, by simp⟩

/-- The state inside a run: busy, and every element a micro-operation reads holds a value, as it does when the
hardwired program reaches that micro-operation (R43: "Every element read was written earlier in the same
run"). What holds a value keeps it; the others get a one-block run's. It serves `State.withFetchWord` alone;
log 16. -/
def midRun (s : State) : State where
  regs := some (s.regs.getD (loadRegs iv))
  hash := some (s.hash.getD iv)
  sched := fillSched s.sched
  pb := some (s.pb.getD zeroBlock)
  plen := some (s.plen.getD 64)
  nblk := some (s.nblk.getD 1)
  len := s.len
  seq := s.seq
  status := ⟨true, false, false, .none, .idle⟩
  msg := s.msg
  maxBlocks := s.maxBlocks
  rdata := s.rdata
  freeCtr := s.freeCtr
  inputs := s.inputs

/-- The state in which the word `c` is the next instruction: a transaction word is the host's next move; a
sequencer word is the sequencer register, inside a run, with the host off the port for the step. A word that
names no micro-operation (IDLE, the reserved phase code) changes nothing. -/
def placeCode (s : State) : Code → State
  | .host t => s.setInputs (.txn t :: s.inputs)
  | .seq q =>
    match phaseOfCode q.phase with
    | none => s
    | some .idle => s
    | some p => ((midRun s).setSeq ⟨p, q.blk, q.idx⟩).setInputs (.pass :: s.inputs)

end Sys2Proof.Machine
end

