-- ==== Sys2Proof/Machine/Step.lean ====
section
/-!
DEFINITION. One step of the machine: the host's next move, or, where the host stays off the port, the
sequencer's step (R67, R213, R240, R250).
-/

namespace Sys2Proof.Machine

/-- The sequencer's step: "A step of the sequencer exists exactly when `PHASE != IDLE`" (R213); at rest nothing
changes (R293; log 2). -/
def seqStep (s : State) : Host.Outcome State Fault Refusal :=
  match fetchSeq s.seq with
  | .ok i => exec i s
  | .error .idle => .next s
  | .error r => .fault (seqRejectFault s.seq r)

/-- One step. -/
def step (s : State) : Host.Outcome State Fault Refusal :=
  match nextMove s with
  | .pass => seqStep (takeMove s)
  | .txn t => exec (decodeHost t) (takeMove s)
  | .writeMsg a bs => hostWriteMsg a bs (takeMove s)
  | .reset => .next (applyReset (takeMove s))

/-- `s` with the instruction of a table row placed as the next one (log 16). -/
def State.withFetchWord (s : State) (nbits w : Nat) : State :=
  match tableCode nbits w with
  | none => s
  | some c => placeCode s c

end Sys2Proof.Machine
end

