-- ==== Sys2Proof/Laws/PerInstr.lean ====
section
/-!
SUPPORT. One family of statements over the syntax of instructions, `EncodedFormat`: the word of an instruction is
of the format of its row, a transaction word of a row of the table, or a sequencer word whose phase code names a
micro-operation.
-/

namespace Sys2Proof

theorem seqWord_phase (c : BitVec 4) (idx : BitVec 7) (blk : Quad) : (seqWord c idx blk).phase = c := by
  change (blk ++ idx ++ c : BitVec (64 + 7 + 4)).extractLsb' 0 4 = c
  apply BitVec.eq_of_getLsbD_eq
  intro i hi
  simp only [BitVec.getLsbD_extractLsb', BitVec.getLsbD_append, hi, decide_true, Bool.true_and, Nat.zero_add, if_true]

end Sys2Proof

namespace Sys2Proof.Laws.EncodedFormat

/-- The word of `i` is of the format of its row (R80, R86, R88). -/
def Statement (i : Instr) : Prop :=
  match encode i with
  | .host _ => i.mnemonic ∈ hostRows.map (·.mnemonic)
  | .seq q => ∃ p, phaseOfCode q.phase = some p ∧ p ≠ .idle

theorem start : Statement .start :=
  show Instr.mnemonic .start ∈ hostRows.map (·.mnemonic) from by decide
theorem wrlen (v : Quad) : Statement (.wrlen v) :=
  show Instr.mnemonic (.wrlen v) ∈ hostRows.map (·.mnemonic) from by
    simp [Instr.mnemonic, hostRows, legalRows, illegalRows]
theorem rdstatus : Statement .rdstatus :=
  show Instr.mnemonic .rdstatus ∈ hostRows.map (·.mnemonic) from by decide
theorem rdlen : Statement .rdlen :=
  show Instr.mnemonic .rdlen ∈ hostRows.map (·.mnemonic) from by decide
theorem rdnblk : Statement .rdnblk :=
  show Instr.mnemonic .rdnblk ∈ hostRows.map (·.mnemonic) from by decide
theorem rddig (i : BitVec 3) : Statement (.rddig i) :=
  show Instr.mnemonic (.rddig i) ∈ hostRows.map (·.mnemonic) from by
    simp [Instr.mnemonic, hostRows, legalRows, illegalRows]
theorem illegalCmd (v : Quad) : Statement (.illegalCmd v) :=
  show Instr.mnemonic (.illegalCmd v) ∈ hostRows.map (·.mnemonic) from by
    simp [Instr.mnemonic, hostRows, legalRows, illegalRows]
theorem illegalRdcmd : Statement .illegalRdcmd :=
  show Instr.mnemonic .illegalRdcmd ∈ hostRows.map (·.mnemonic) from by decide
theorem illegalWrstatus (v : Quad) : Statement (.illegalWrstatus v) :=
  show Instr.mnemonic (.illegalWrstatus v) ∈ hostRows.map (·.mnemonic) from by
    simp [Instr.mnemonic, hostRows, legalRows, illegalRows]
theorem illegalWrnblk (v : Quad) : Statement (.illegalWrnblk v) :=
  show Instr.mnemonic (.illegalWrnblk v) ∈ hostRows.map (·.mnemonic) from by
    simp [Instr.mnemonic, hostRows, legalRows, illegalRows]
theorem illegalRes4to7 (n : BitVec 6) (a : Access) : Statement (.illegalRes4to7 n a) :=
  show Instr.mnemonic (.illegalRes4to7 n a) ∈ hostRows.map (·.mnemonic) from by
    simp [Instr.mnemonic, hostRows, legalRows, illegalRows]
theorem illegalWrdig (i : BitVec 3) (v : Quad) : Statement (.illegalWrdig i v) :=
  show Instr.mnemonic (.illegalWrdig i v) ∈ hostRows.map (·.mnemonic) from by
    simp [Instr.mnemonic, hostRows, legalRows, illegalRows]
theorem illegalRes16to31 (n : BitVec 6) (a : Access) : Statement (.illegalRes16to31 n a) :=
  show Instr.mnemonic (.illegalRes16to31 n a) ∈ hostRows.map (·.mnemonic) from by
    simp [Instr.mnemonic, hostRows, legalRows, illegalRows]
theorem illegalRes32to63 (n : BitVec 6) (a : Access) : Statement (.illegalRes32to63 n a) :=
  show Instr.mnemonic (.illegalRes32to63 n a) ∈ hostRows.map (·.mnemonic) from by
    simp [Instr.mnemonic, hostRows, legalRows, illegalRows]
theorem chk (blk : Quad) : Statement (.chk blk) :=
  ⟨.chk, by rw [seqWord_phase]; rfl, by decide⟩
theorem plen (blk : Quad) : Statement (.plen blk) :=
  ⟨.plen, by rw [seqWord_phase]; rfl, by decide⟩
theorem pzero (blk : Quad) : Statement (.pzero blk) :=
  ⟨.pzero, by rw [seqWord_phase]; rfl, by decide⟩
theorem pcopy (blk : Quad) : Statement (.pcopy blk) :=
  ⟨.pcopy, by rw [seqWord_phase]; rfl, by decide⟩
theorem pterm (blk : Quad) : Statement (.pterm blk) :=
  ⟨.pterm, by rw [seqWord_phase]; rfl, by decide⟩
theorem plenw (blk : Quad) : Statement (.plenw blk) :=
  ⟨.plenw, by rw [seqWord_phase]; rfl, by decide⟩
theorem pseg (blk : Quad) : Statement (.pseg blk) :=
  ⟨.pseg, by rw [seqWord_phase]; rfl, by decide⟩
theorem hinit (blk : Quad) : Statement (.hinit blk) :=
  ⟨.hinit, by rw [seqWord_phase]; rfl, by decide⟩
theorem wld (j : BitVec 7) (blk : Quad) : Statement (.wld j blk) :=
  ⟨.wld, by rw [seqWord_phase]; rfl, by decide⟩
theorem wex (j : BitVec 7) (blk : Quad) : Statement (.wex j blk) :=
  ⟨.wex, by rw [seqWord_phase]; rfl, by decide⟩
theorem rld (blk : Quad) : Statement (.rld blk) :=
  ⟨.rld, by rw [seqWord_phase]; rfl, by decide⟩
theorem rnd (j : BitVec 7) (blk : Quad) : Statement (.rnd j blk) :=
  ⟨.rnd, by rw [seqWord_phase]; rfl, by decide⟩
theorem ffw (blk : Quad) : Statement (.ffw blk) :=
  ⟨.ffw, by rw [seqWord_phase]; rfl, by decide⟩
theorem emit (blk : Quad) : Statement (.emit blk) :=
  ⟨.emit, by rw [seqWord_phase]; rfl, by decide⟩

end Sys2Proof.Laws.EncodedFormat
end

