-- ==== Sys2Proof/Machine/Algorithm.lean ====
section
/-!
DEFINITION. The run as one function: `Pad`, `Sched`, `Compress`, `Hash`, `Digest` (R144, R173, R194, R216,
R217). No step calls them: they are what the small steps are claimed to compute (R219). A message is a function
from offsets to bytes together with its length.
-/

namespace Sys2Proof.Machine

/-- Byte `k` of `Pad(M, L)` by the closed form of R144. -/
def padByte (m : Nat → Byte) (l k : Nat) : Byte :=
  if k < l then m k
  else if k = l then 0x80#8
  else if k < padLen l - 8 then 0#8
  else (be64 (lengthField l)).getD (k - (padLen l - 8)) 0

/-- `Pad(M, L)` (R216). -/
def pad (m : Nat → Byte) (l : Nat) : List Byte := (List.range (padLen l)).map (padByte m l)

/-- Byte `k` of block `i` (R153). -/
def blockByte (m : Nat → Byte) (l i k : Nat) : Byte := padByte m l (64 * i + k)

/-- Word `t` of a block of 64 bytes (R55, R173). -/
def blockWord (b : Nat → Byte) (t : Nat) : Word := be32 (b (4 * t)) (b (4 * t + 1)) (b (4 * t + 2)) (b (4 * t + 3))

/-- The next schedule word after the words `ws` (R172, R173). -/
def nextSched (ws : List Word) : Word :=
  schedNext (ws.getD (ws.length - 16) 0) (ws.getD (ws.length - 15) 0) (ws.getD (ws.length - 7) 0)
    (ws.getD (ws.length - 2) 0)

/-- `n` more schedule words. -/
def extendSched : Nat → List Word → List Word
  | 0, ws => ws
  | n + 1, ws => extendSched n (ws ++ [nextSched ws])

/-- `Sched(B)`, the 64 words of a block's schedule (R173). -/
def schedOf (b : Nat → Byte) : List Word := extendSched 48 ((List.range 16).map (blockWord b))

/-- The registers after `n` rounds from `r` (R194). -/
def roundsFrom (w : List Word) (r : WorkRegs) : Nat → WorkRegs
  | 0 => r
  | n + 1 => roundFn (roundsFrom w r n) (kConst n) (w.getD n 0)

/-- `Compress(Hin, w)` (R194). -/
def compress (h : Words8) (w : List Word) : Words8 := feedForward h (roundsFrom w (loadRegs h) 64)

/-- `S_n`, the hash state after `n` blocks (R217): a left fold over the blocks (R65, R214). -/
def hashBlocks (m : Nat → Byte) (l : Nat) : Nat → Words8
  | 0 => iv
  | n + 1 => compress (hashBlocks m l n) (schedOf (blockByte m l n))

/-- `Hash(M, L)` (R217). -/
def hashMsg (m : Nat → Byte) (l : Nat) : Words8 := hashBlocks m l (blockCount l)

/-- `Digest(M, L)`, 32 bytes (R217). -/
def digestMsg (m : Nat → Byte) (l : Nat) : List Byte := digestBytes (hashMsg m l)

/-- The number of sequencer steps of a run that does not fault (R215). -/
def runSteps (nb : Nat) : Nat := 9 + 130 * nb

end Sys2Proof.Machine
end

