-- ==== Sys2Proof/Machine/HostProgram.lean ====
section
/-!
DEFINITION. The notation for host programs (R92) and its pseudo-instructions (R93), as lists of host moves.
-/

namespace Sys2Proof.Machine

/-- `wr <reg>, <value>`: `T = {1, regno, value}` (R92). -/
def wr (reg : BitVec 6) (v : Quad) : HostMove := .txn (hostWord true reg v)

/-- `rd <reg>`: `T = {0, regno, x}`, `x` shown as 0 (R92). -/
def rd (reg : BitVec 6) : HostMove := .txn (hostWord false reg 0)

/-- `.msg <bytes>`: the content of `MSG` from address 0 (R92). -/
def msgDirective (bytes : List Byte) : HostMove := .writeMsg 0 bytes

/-- `start` (R93). -/
def startOp : List HostMove := [wr 0 1]

/-- `poll` with a given number of reads of `STATUS` and of sequencer steps between them: "the number of
repetitions is not fixed" (R93, R321), so a claim holds for every list. -/
def pollOp (gaps : List Nat) : List HostMove := gaps.flatMap fun n => List.replicate n .pass ++ [rd 1]

/-- `rddigest` (R93). -/
def rddigestOp : List HostMove := [rd 8, rd 9, rd 10, rd 11, rd 12, rd 13, rd 14, rd 15]

/-- `hash n` (R93). -/
def hashOp (n : Quad) (gaps : List Nat) : List HostMove := [wr 2 n] ++ startOp ++ pollOp gaps ++ rddigestOp

end Sys2Proof.Machine
end

