-- ==== Sys2Proof/Safety.lean ====
section
/-!
DEFINITION. What claims are stated in: the invariants of R42 and of the run (R21, R26, R43), the canonical
form of memory, what the small steps have computed so far (R144, R173, R194, R217), and the steps a run still
has (R215).
-/

namespace Sys2Proof.Machine

/-- The place of a phase in the hardwired program: its code (R88, R90). -/
def stage (p : Phase) : Nat := (phaseCode p).toNat

/-- R42 (1) to (3): `BUSY` exactly when the sequencer is not at rest; at most one of `BUSY`, `DONE`, `ERR`; no
cause and no phase recorded without `ERR`, a cause recorded with it. -/
def StatusInv (s : State) : Prop :=
  (s.status.busy = true ↔ s.seq.phase ≠ .idle) ∧
  (s.status.busy && s.status.done) = false ∧
  (s.status.busy && s.status.err) = false ∧
  (s.status.done && s.status.err) = false ∧
  (s.status.err = false → s.status.cause = .none ∧ s.status.fphase = .idle) ∧
  (s.status.err = true → s.status.cause ≠ .none)

/-- The canonical form of both memories, inside their spaces: the addresses of `MSG` have 64 bits (R50), those
of `PB` are `0` to `P - 1` (R38). -/
def MemInv (s : State) : Prop :=
  Memory.wf s.msg = true ∧ (∀ c ∈ s.msg, c.1 < 2 ^ 64) ∧
  ∀ b, s.pb = some b → Memory.wf b.cells = true ∧ ∀ c ∈ b.cells, c.1 < b.size

/-- The range of `IDX` in each phase (R26, R90). -/
def idxInRange (p : Phase) (idx : Nat) : Prop :=
  match p with
  | .wld => idx ≤ 15
  | .wex => 16 ≤ idx ∧ idx ≤ 63
  | .rnd => idx ≤ 63
  | _ => idx = 0

/-- Every byte of the buffer from `start` up holds a value. -/
def filledFrom (b : PadBuf) (start : Nat) : Prop := ∀ k, start ≤ k → k < b.size → (memGet b.cells k).isSome = true

/-- `W[0..n-1]` hold values. -/
def schedFilled (s : State) (n : Nat) : Prop := ∀ t, t < n → ∃ x, readSched s t = .ok x

/-- What holds a value where in a run, and the relations among the counters: R26, R29, R38, R42 (4) to (6), R43
("Every element read was written earlier in the same run"). -/
structure RunInv (s : State) : Prop where
  idxRange : idxInRange s.seq.phase s.seq.idx.toNat
  lenChecked : 2 ≤ stage s.seq.phase → 1 ≤ s.len.toNat ∧ s.len.toNat < 2 ^ 61
  lengths : 3 ≤ stage s.seq.phase →
    s.plen = some (BitVec.ofNat 64 (padLen s.len.toNat)) ∧ s.nblk = some (BitVec.ofNat 64 (blockCount s.len.toNat))
  unallocated : stage s.seq.phase < 4 → s.pb = none
  allocated : 4 ≤ stage s.seq.phase →
    ∃ b, s.pb = some b ∧ b.size = padLen s.len.toNat ∧ filledFrom b s.len.toNat
  copied : 5 ≤ stage s.seq.phase → ∀ b, s.pb = some b → filledFrom b 0
  hashed : 9 ≤ stage s.seq.phase → ∃ h, s.hash = some h
  inBlock : 9 ≤ stage s.seq.phase → stage s.seq.phase ≤ 13 → s.seq.blk.toNat < blockCount s.len.toNat
  afterBlocks : s.seq.phase = .emit → s.seq.blk.toNat = blockCount s.len.toNat
  expanding : s.seq.phase = .wld ∨ s.seq.phase = .wex → schedFilled s s.seq.idx.toNat
  expanded : s.seq.phase = .rld ∨ s.seq.phase = .rnd → schedFilled s 64
  loaded : s.seq.phase = .rnd ∨ s.seq.phase = .ffw → ∃ r, s.regs = some r
  finished : s.status.done = true →
    (∃ h, s.hash = some h) ∧ ∃ nb, s.nblk = some nb ∧ s.seq.blk = nb ∧ 1 ≤ nb.toNat ∧ ∃ p, s.plen = some p ∧ p.toNat = 64 * nb.toNat

/-- What a byte of `PB` holds at stage `c` of the padder (R147, R149, R150, R151): zeros beyond the message after
PZERO, the message after PCOPY, the terminator after PTERM, and from PLENW on the closed form of R144. -/
def stagedByte (c : Nat) (m : Nat → Byte) (l k : Nat) : Option Byte :=
  if c ≤ 4 then (if k < l then none else some 0)
  else if c = 5 then (if k < l then some (m k) else some 0)
  else if c = 6 then (if k < l then some (m k) else if k = l then some 0x80#8 else some 0)
  else some (padByte m l k)

/-- The schedule of the block in work, `Sched(B_i)` with `i = BLK` (R173). -/
def blockSched (s : State) : List Word := schedOf (blockByte (msgByteAt s) s.len.toNat s.seq.blk.toNat)

/-- What the small steps have computed so far, in terms of the one function (R144, R173, R194, R217). -/
structure DigestInv (s : State) : Prop where
  padded : 4 ≤ stage s.seq.phase → ∃ b, s.pb = some b ∧
    ∀ k, k < padLen s.len.toNat → memGet b.cells k = stagedByte (stage s.seq.phase) (msgByteAt s) s.len.toNat k
  folded : 9 ≤ stage s.seq.phase → s.hash = some (hashBlocks (msgByteAt s) s.len.toNat s.seq.blk.toNat)
  expanding : s.seq.phase = .wld ∨ s.seq.phase = .wex →
    ∀ t, t < s.seq.idx.toNat → readSched s t = .ok ((blockSched s).getD t 0)
  expanded : s.seq.phase = .rld ∨ s.seq.phase = .rnd → ∀ t, t < 64 → readSched s t = .ok ((blockSched s).getD t 0)
  rounds : s.seq.phase = .rnd → ∃ h, s.hash = some h ∧
    s.regs = some (roundsFrom (blockSched s) (loadRegs h) s.seq.idx.toNat)
  allRounds : s.seq.phase = .ffw → ∃ h, s.hash = some h ∧
    s.regs = some (roundsFrom (blockSched s) (loadRegs h) 64)
  digest : s.status.done = true → ∃ (m : Nat → Byte) (l : Nat), 1 ≤ l ∧ l < 2 ^ 61 ∧
    s.nblk = some (BitVec.ofNat 64 (blockCount l)) ∧ s.hash = some (hashMsg m l)

/-- All three together. -/
structure CoreInv (s : State) : Prop where
  status : StatusInv s
  run : RunInv s
  digest : DigestInv s

/-- The sequencer steps the run in progress still has if it does not fault (R215). -/
def stepsLeft (s : State) : Nat :=
  match s.seq.phase with
  | .idle => 0
  | .wld => 131 - s.seq.idx.toNat + 130 * (blockCount s.len.toNat - s.seq.blk.toNat - 1)
  | .wex => 131 - s.seq.idx.toNat + 130 * (blockCount s.len.toNat - s.seq.blk.toNat - 1)
  | .rld => 67 + 130 * (blockCount s.len.toNat - s.seq.blk.toNat - 1)
  | .rnd => 66 - s.seq.idx.toNat + 130 * (blockCount s.len.toNat - s.seq.blk.toNat - 1)
  | .ffw => 2 + 130 * (blockCount s.len.toNat - s.seq.blk.toNat - 1)
  | .emit => 1
  | p => 10 - stage p + 130 * blockCount s.len.toNat

/-- A state at rest without fault: START is legal (R241). -/
def Ready (s : State) : Prop := s.status.busy = false ∧ s.status.err = false

/-- The transactions of the host port (format `HOST`); the others are the sequencer's micro-operations. -/
def isTransaction : Instr → Bool
  | .start => true
  | .wrlen _ => true
  | .rdstatus => true
  | .rdlen => true
  | .rdnblk => true
  | .rddig _ => true
  | .illegalCmd _ => true
  | .illegalRdcmd => true
  | .illegalWrstatus _ => true
  | .illegalWrnblk _ => true
  | .illegalRes4to7 _ _ => true
  | .illegalWrdig _ _ => true
  | .illegalRes16to31 _ _ => true
  | .illegalRes32to63 _ _ => true
  | .chk _ => false
  | .plen _ => false
  | .pzero _ => false
  | .pcopy _ => false
  | .pterm _ => false
  | .plenw _ => false
  | .pseg _ => false
  | .hinit _ => false
  | .wld _ _ => false
  | .wex _ _ => false
  | .rld _ => false
  | .rnd _ _ => false
  | .ffw _ => false
  | .emit _ => false

/-- The transactions that read: they return 64 bits (R81). -/
def isPortRead : Instr → Bool
  | .start => false
  | .wrlen _ => false
  | .rdstatus => true
  | .rdlen => true
  | .rdnblk => true
  | .rddig _ => true
  | .illegalCmd _ => false
  | .illegalRdcmd => true
  | .illegalWrstatus _ => false
  | .illegalWrnblk _ => false
  | .illegalRes4to7 _ acc => accessIsRead acc
  | .illegalWrdig _ _ => false
  | .illegalRes16to31 _ acc => accessIsRead acc
  | .illegalRes32to63 _ acc => accessIsRead acc
  | .chk _ => false
  | .plen _ => false
  | .pzero _ => false
  | .pcopy _ => false
  | .pterm _ => false
  | .plenw _ => false
  | .pseg _ => false
  | .hinit _ => false
  | .wld _ _ => false
  | .wex _ _ => false
  | .rld _ => false
  | .rnd _ _ => false
  | .ffw _ => false
  | .emit _ => false

/-- The next move is an accepted START (R241). -/
def startsRun (s : State) : Prop := ∃ w, nextMove s = .txn w ∧ decodeHost w = .start ∧ Ready s

/-- A host that keeps off the port but for the two reads that are legal during a run (R248, R314): `rd STATUS`
and `rd LEN`. -/
def onlyPolls (moves : List HostMove) : Prop :=
  ∀ m ∈ moves, m = .pass ∨ ∃ w, m = .txn w ∧ (decodeHost w = .rdstatus ∨ decodeHost w = .rdlen)

/-- A state the machine reaches from reset, whatever the host does: some host moves, some parameter, some
number of steps. -/
def Reachable (s : State) : Prop :=
  ∃ (moves : List HostMove) (cap : Option Nat) (n : Nat),
    Host.Core.run Sys2Proof.core n ((State.reset.setInputs moves).setMaxBlocks cap) = .next s

/-- The core's own state, the elements of R20, is the same. -/
def sameCore (s t : State) : Prop :=
  t.regs = s.regs ∧ t.hash = s.hash ∧ t.sched = s.sched ∧ t.pb = s.pb ∧ t.plen = s.plen ∧ t.nblk = s.nblk ∧
  t.len = s.len ∧ t.seq = s.seq ∧ t.status = s.status

end Sys2Proof.Machine
end

