-- ==== Sys2Proof/Certificates/Slice0/Obligations.lean ====
section
/-!
DEFINITION. The statements for the provers. A statement about a result that the spec leaves open holds for every
value of the free constants of `Config`.
-/

open Sys2Proof Sys2Proof.Machine

/-! ## Encoding -/

/-- Every well-formed instruction of both formats, with every operand the encoding admits, decodes from its
word (R82, R86, R87, R88). The bit places of a sequencer word and the operands of the eight ILLEGAL rows are the
model's (logs 13, 20). -/
def Obligations.DecodeInvertsEncode : Prop :=
  ∀ i : Instr, i.wf = true → decode (encode i) = .ok i

/-- The other direction: a sequencer word that names a micro-operation is that micro-operation's word, in the bit
places this model gives its fields (log 13); a write's word, an illegal one included, is kept whole, and a read's
word comes back with `wdata` 0. What of a word the instruction keeps is the model's choice (log 20): R81 says of a
read's `wdata` only that it is "not decoded", and R87 takes every illegal word to one ILLEGAL without operands.
Every transaction word decodes to a well-formed instruction (R87: "The decoder is total"). -/
def Obligations.EncodeInvertsDecode : Prop :=
  (∀ (q : SeqWord) (i : Instr), decodeSeq q = .ok i → encode i = .seq q) ∧
  (∀ t : HostWord, t.we = true → encode (decodeHost t) = .host t) ∧
  (∀ t : HostWord, t.we = false → encode (decodeHost t) = .host (hostWord false t.addr 0)) ∧
  ∀ t : HostWord, (decodeHost t).wf = true ∧ isTransaction (decodeHost t) = true

/-- The six rows of R86: a word matches a row (`T & mask = match`) exactly when it decodes to that row's
transaction, with the operand in its field; and no word matches two of the six. -/
def Obligations.LegalRowsSelectTheTransaction : Prop :=
  ∀ t : HostWord,
    (t &&& 0x7FFFFFFFFFFFFFFFFF#71 = 0x400000000000000001#71 ↔ decodeHost t = .start) ∧
    (t &&& 0x7F0000000000000000#71 = 0x420000000000000000#71 ↔ decodeHost t = .wrlen (t.extractLsb' 0 64)) ∧
    (t &&& 0x7F0000000000000000#71 = 0x010000000000000000#71 ↔ decodeHost t = .rdstatus) ∧
    (t &&& 0x7F0000000000000000#71 = 0x020000000000000000#71 ↔ decodeHost t = .rdlen) ∧
    (t &&& 0x7F0000000000000000#71 = 0x030000000000000000#71 ↔ decodeHost t = .rdnblk) ∧
    (t &&& 0x780000000000000000#71 = 0x080000000000000000#71 ↔ decodeHost t = .rddig (t.extractLsb' 64 3)) ∧
    (legalRows.filter (·.hits t)).length ≤ 1

/-- The fourteen `HOST` rows partition the words (R94): every word but START's matches exactly one row, the row
of the instruction it decodes to; START's word matches START and, after it, `ILLEGAL.cmd`. -/
def Obligations.HostRowsPartitionTheWords : Prop :=
  ∀ t : HostWord,
    rowsHit t = if t = 0x400000000000000001#71 then ["START", "ILLEGAL.cmd"] else [(decodeHost t).mnemonic]

/-- Some words written out: each decodes to the instruction it stands for. The fields of the transaction words
are R81, R86 and R87. Of the sequencer words R88 gives the phase code and R82 the widths; the order
`BLK ++ IDX ++ PHASE` of their fields is the model's choice (log 13), and so are the operands that an illegal word
decodes to (log 20). -/
def Obligations.WrittenWordsDecode : Prop :=
  decode (.host (1#1 ++ 0b000000#6 ++ 0x0000000000000001#64)) = .ok .start ∧
  decode (.host (1#1 ++ 0b000010#6 ++ 0x0000000000000003#64)) = .ok (.wrlen 3) ∧
  decode (.host (0#1 ++ 0b000001#6 ++ 0xFFFFFFFFFFFFFFFF#64)) = .ok .rdstatus ∧
  decode (.host (0#1 ++ 0b001101#6 ++ 0x0000000000000000#64)) = .ok (.rddig 5) ∧
  decode (.host (1#1 ++ 0b000000#6 ++ 0x0000000000000002#64)) = .ok (.illegalCmd 2) ∧
  decode (.host (0#1 ++ 0b111111#6 ++ 0x0000000000000000#64)) = .ok (.illegalRes32to63 63 .read) ∧
  decode (.seq (0x0000000000000000#64 ++ 0b0000000#7 ++ 0b0001#4)) = .ok (.chk 0) ∧
  decode (.seq (0x0000000000000002#64 ++ 0b0001111#7 ++ 0b1001#4)) = .ok (.wld 15 2) ∧
  decode (.seq (0x0000000000000000#64 ++ 0b0010000#7 ++ 0b1010#4)) = .ok (.wex 16 0) ∧
  decode (.seq (0x0000000000000000#64 ++ 0b0111111#7 ++ 0b1100#4)) = .ok (.rnd 63 0) ∧
  decode (.seq (0x0000000000000001#64 ++ 0b0000000#7 ++ 0b1110#4)) = .ok (.emit 1) ∧
  decode (.seq (0x0000000000000000#64 ++ 0b0000000#7 ++ 0b0000#4)) = .error .idle ∧
  decode (.seq (0x0000000000000000#64 ++ 0b0000000#7 ++ 0b1111#4)) = .error .reservedPhase

/-! ## A step -/

/-- A step runs the transaction the host makes next (R240): the move is taken from the host's list, and nothing
else happens around the instruction. The list is the model's (log 1). -/
def Obligations.StepRunsTheTransaction : Prop :=
  ∀ (s : State) (w : HostWord) (rest : List HostMove) (i : Instr), s.inputs = .txn w :: rest →
    decode (.host w) = .ok i → step s = exec i (s.setInputs rest)

/-- Where the host stays off the port a step runs the micro-operation whose word is the sequencer register
(R26, R213); at rest, where R213 gives no step, it changes nothing but taking the host's move. The list of moves,
the step at rest and the places of the word's fields are the model's (logs 1, 2, 13). -/
def Obligations.StepRunsTheMicroOperation : Prop :=
  ∀ (s : State), (s.inputs = [] ∨ ∃ rest, s.inputs = .pass :: rest) →
    (∀ i : Instr, decode (.seq (seqWord (phaseCode s.seq.phase) s.seq.idx s.seq.blk)) = .ok i →
      step s = exec i (s.setInputs s.inputs.tail)) ∧
    (s.seq.phase = .idle → step s = .next (s.setInputs s.inputs.tail))

/-- The reset input: from any state every element of R20 is at its reset value (R300), and `MSG` is untouched
(R302); and it is the only way to clear `ERR` (R300). That `MAX_BLOCKS` and the host's further moves stay is the
model's inference (log 19). -/
def Obligations.ResetInputRestoresEveryElement : Prop :=
  (∀ (s : State) (rest : List HostMove), s.inputs = .reset :: rest →
    ∃ t, step s = .next t ∧ t.seq = ⟨.idle, 0, 0⟩ ∧ t.status = ⟨false, false, false, .none, .idle⟩ ∧
      statusWord t.status = 0 ∧ t.len = 0 ∧ t.hash = none ∧ t.regs = none ∧
      (∀ j, j < 64 → t.sched[j]? = some none) ∧ t.plen = none ∧ t.nblk = none ∧ t.pb = none ∧
      t.msg = s.msg ∧ t.maxBlocks = s.maxBlocks ∧ t.inputs = rest) ∧
  ∀ s t : State, s.status.err = true → step s = .next t → t.status.err = false → nextMove s = .reset

/-- What reset leaves (R41). That `MAX_BLOCKS` is unbounded there is the spec's default for tests (log 6), that
no host move is pending and nothing was returned yet are the model's choice (logs 1, 5). -/
def Obligations.ResetLeavesTheStatedValues : Prop :=
  State.reset.seq = ⟨.idle, 0, 0⟩ ∧ State.reset.status = ⟨false, false, false, .none, .idle⟩ ∧
  statusWord State.reset.status = 0 ∧ State.reset.len = 0 ∧ State.reset.regs = none ∧ State.reset.hash = none ∧
  (∀ j, j < 64 → State.reset.sched[j]? = some none) ∧ State.reset.plen = none ∧ State.reset.nblk = none ∧
  State.reset.pb = none ∧ State.reset.msg = [] ∧ State.reset.maxBlocks = none ∧ State.reset.rdata = none ∧
  State.reset.inputs = []

/-- The sequencer's next-state table (R213), for every state without fault and every sequencer step that answers:
the row of the phase, or fault entry. At rest R213 gives no step; that the model's sequencer then answers the same
state is its own inference (log 2). -/
def Obligations.SequencerFollowsTheTable : Prop :=
  ∀ s t : State, s.status.err = false → seqStep s = .next t →
    (t.status.err = true ∧ t.status.busy = false ∧ s.seq.phase ≠ .idle ∧ t.seq = ⟨.idle, s.seq.blk, 0⟩) ∨
    (t.status.err = false ∧
      match s.seq.phase with
      | .idle => t = s
      | .chk => t.seq = ⟨.plen, 0, 0⟩
      | .plen => t.seq = ⟨.pzero, 0, 0⟩
      | .pzero => t.seq = ⟨.pcopy, 0, 0⟩
      | .pcopy => t.seq = ⟨.pterm, 0, 0⟩
      | .pterm => t.seq = ⟨.plenw, 0, 0⟩
      | .plenw => t.seq = ⟨.pseg, 0, 0⟩
      | .pseg => t.seq = ⟨.hinit, 0, 0⟩
      | .hinit => t.seq = ⟨.wld, 0, 0⟩
      | .wld => (s.seq.idx.toNat < 15 ∧ t.seq = ⟨.wld, s.seq.blk, s.seq.idx + 1⟩) ∨
          (s.seq.idx.toNat = 15 ∧ t.seq = ⟨.wex, s.seq.blk, 16⟩)
      | .wex => (s.seq.idx.toNat < 63 ∧ t.seq = ⟨.wex, s.seq.blk, s.seq.idx + 1⟩) ∨
          (s.seq.idx.toNat = 63 ∧ t.seq = ⟨.rld, s.seq.blk, 0⟩)
      | .rld => t.seq = ⟨.rnd, s.seq.blk, 0⟩
      | .rnd => (s.seq.idx.toNat < 63 ∧ t.seq = ⟨.rnd, s.seq.blk, s.seq.idx + 1⟩) ∨
          (s.seq.idx.toNat = 63 ∧ t.seq = ⟨.ffw, s.seq.blk, 0⟩)
      | .ffw => ∃ nb, s.nblk = some nb ∧
          ((s.seq.blk.toNat + 1 < nb.toNat ∧ t.seq = ⟨.wld, s.seq.blk + 1, 0⟩) ∨
           (s.seq.blk.toNat + 1 = nb.toNat ∧ t.seq = ⟨.emit, s.seq.blk + 1, 0⟩))
      | .emit => t.seq = ⟨.idle, s.seq.blk, 0⟩ ∧ t.status.done = true ∧ t.status.busy = false)

/-! ## Word functions -/

/-- Addition wraps: the carry out of bit 31 is lost, and a sum of several words may be reduced once (R110). -/
def Obligations.AdditionWraps : Prop :=
  (∀ x y : Word, (add32 x y).toNat = (x.toNat + y.toNat) % 2 ^ 32) ∧
  (∀ x y : Word, add32 x y = add32 y x) ∧
  (∀ x y z : Word, (add32 (add32 x y) z).toNat = (x.toNat + y.toNat + z.toNat) % 2 ^ 32 ∧
    add32 (add32 x y) z = add32 x (add32 y z))

/-- "bit `k` of the result is bit `(k + n) mod 32` of `x`" and the formula of R111; a right shift is the floor
quotient, its vacated bits zero (R112). That `rotr` is this rotation is G3, general knowledge of the spec (log 17). -/
def Obligations.RotationAndShiftMoveBits : Prop :=
  ∀ (x : Word) (n : Nat), 1 ≤ n → n ≤ 31 →
    (∀ k, k < 32 → (rotr x n).getLsbD k = x.getLsbD ((k + n) % 32)) ∧
    (rotr x n).toNat = x.toNat / 2 ^ n ||| x.toNat * 2 ^ (32 - n) % 2 ^ 32 ∧
    (shr x n).toNat = x.toNat / 2 ^ n ∧ ∀ k, 32 - n ≤ k → (shr x n).getLsbD k = false

/-- The four mixing functions bit by bit (R113 to R116), with `rotr` as G3 reads it (log 17). -/
def Obligations.MixingFunctionsBitByBit : Prop :=
  ∀ (x : Word) (k : Nat), k < 32 →
    (ssig0 x).getLsbD k =
      ((x.getLsbD ((k + 7) % 32) ^^ x.getLsbD ((k + 18) % 32)) ^^ (decide (k + 3 < 32) && x.getLsbD (k + 3))) ∧
    (ssig1 x).getLsbD k =
      ((x.getLsbD ((k + 17) % 32) ^^ x.getLsbD ((k + 19) % 32)) ^^ (decide (k + 10 < 32) && x.getLsbD (k + 10))) ∧
    (bsig0 x).getLsbD k =
      ((x.getLsbD ((k + 2) % 32) ^^ x.getLsbD ((k + 13) % 32)) ^^ x.getLsbD ((k + 22) % 32)) ∧
    (bsig1 x).getLsbD k =
      ((x.getLsbD ((k + 6) % 32) ^^ x.getLsbD ((k + 11) % 32)) ^^ x.getLsbD ((k + 25) % 32))

/-- `Ch` chooses and `Maj` takes the majority, bit by bit (R117, R118). -/
def Obligations.ChoiceAndMajorityBitByBit : Prop :=
  ∀ (x y z : Word) (k : Nat), k < 32 →
    (chFn x y z).getLsbD k = (if x.getLsbD k then y.getLsbD k else z.getLsbD k) ∧
    ((majFn x y z).getLsbD k = true ↔
      2 ≤ (x.getLsbD k).toNat + (y.getLsbD k).toNat + (z.getLsbD k).toNat)

/-- The byte conversions: `BE32` and `bytesBE32` are inverse (R120, R121), and the eight bytes of `BE64` spell
their number, most significant first (R122). -/
def Obligations.ByteConversionsInvert : Prop :=
  (∀ b0 b1 b2 b3 : Byte,
    (be32 b0 b1 b2 b3).toNat = b0.toNat * 2 ^ 24 + b1.toNat * 2 ^ 16 + b2.toNat * 2 ^ 8 + b3.toNat ∧
    bytesBE32 (be32 b0 b1 b2 b3) = [b0, b1, b2, b3]) ∧
  (∀ x : Word, ∃ b0 b1 b2 b3, bytesBE32 x = [b0, b1, b2, b3] ∧ be32 b0 b1 b2 b3 = x) ∧
  (∀ v : Quad, (be64 v).length = 8 ∧ ((be64 v).foldl (fun n b => 256 * n + b.toNat) 0) = v.toNat)

/-- `DIGEST[4*i + k] = H[i][31-8k : 24-8k]` (R57). -/
def Obligations.DigestIsBigEndianByWord : Prop :=
  ∀ (h : Words8) (i k : Nat), k < 4 → ∀ hi : i < 8,
    (digestBytes h).length = 32 ∧ (digestBytes h)[4 * i + k]? = some ((h[i]).extractLsb' (24 - 8 * k) 8)

/-! ## The padding rule -/

/-- `P` is the "smallest multiple of 64 such that P ≥ L + 1 + 8", in closed form `64 * ceil((L + 9) / 64)` (R142);
`NB = P / 64 = ceil((L + 9) / 64)`, exact, at least 1 (R143). -/
def Obligations.PaddedLengthIsLeast : Prop :=
  ∀ l : Nat, 64 ∣ padLen l ∧ l + 1 + 8 ≤ padLen l ∧ (∀ p, 64 ∣ p → l + 1 + 8 ≤ p → padLen l ≤ p) ∧
    padLen l = 64 * ((l + 9 + 63) / 64) ∧ padLen l = l + 9 + (64 - (l + 9) % 64) % 64 ∧
    blockCount l * 64 = padLen l ∧ blockCount l = (l + 9 + 63) / 64 ∧ 1 ≤ blockCount l

/-- The padder run from START's state (R144): after its eight steps every byte of `PB` is the message byte, the
terminator, a zero, or a byte of the length field, by the four ranges, which cover `[0, P)`. That a read beyond them
stops by name is the model's (log 9), and a message byte the host has not written is a free value (log 7). -/
def Obligations.PadderBuildsTheClosedForm : Prop :=
  ∀ s : State, s.inputs = [] → s.seq = ⟨.chk, 0, 0⟩ → 1 ≤ s.len.toNat → s.len.toNat < 2 ^ 61 →
    overCapacity s.maxBlocks (blockCount s.len.toNat) = false →
    ∃ t, Host.Core.run Sys2Proof.core 8 s = .next t ∧ t.seq = ⟨.wld, 0, 0⟩ ∧ t.hash = some iv ∧
      t.plen = some (BitVec.ofNat 64 (padLen s.len.toNat)) ∧
      t.nblk = some (BitVec.ofNat 64 (blockCount s.len.toNat)) ∧
      (∀ k, k < s.len.toNat → readPbByte t k = .ok (msgByteAt s k)) ∧
      readPbByte t s.len.toNat = .ok 0x80#8 ∧
      (∀ k, s.len.toNat < k → k < padLen s.len.toNat - 8 → readPbByte t k = .ok 0) ∧
      (∀ k, padLen s.len.toNat - 8 ≤ k → k < padLen s.len.toNat → ∃ b,
        (be64 (BitVec.ofNat 64 (8 * s.len.toNat)))[k - (padLen s.len.toNat - 8)]? = some b ∧ readPbByte t k = .ok b) ∧
      (∀ k, padLen s.len.toNat ≤ k → readPbByte t k = .error (.pbAddress k))

/-! ## The padder's micro-operations -/

/-- CHK (R145): `L = 0` and `L >= 2^61` are the two faults, every other length passes. -/
def Obligations.ChkPassesLegalLengths : Prop :=
  ∀ (s : State) (blk : Quad),
    (s.len.toNat = 0 → exec (.chk blk) s = .next (raise .emptyMessage s)) ∧
    (2 ^ 61 ≤ s.len.toNat → exec (.chk blk) s = .next (raise .lengthOverflow s)) ∧
    (1 ≤ s.len.toNat → s.len.toNat < 2 ^ 61 → exec (.chk blk) s = .next (s.setSeq ⟨.plen, 0, 0⟩))

/-- PLEN (R146), for every length CHK lets pass: `PLEN = 64 * ceil((L+9)/64)`, `NBLK = ceil((L+9)/64)`, both
exact in 64 bits (R29). -/
def Obligations.PlenComputesBothCounts : Prop :=
  ∀ (s : State) (blk : Quad), s.len.toNat < 2 ^ 61 →
    ∃ p nb : Quad, p.toNat = 64 * ((s.len.toNat + 9 + 63) / 64) ∧ nb.toNat = (s.len.toNat + 9 + 63) / 64 ∧
      exec (.plen blk) s = .next (((s.setPlen (some p)).setNblk (some nb)).setSeq ⟨.pzero, 0, 0⟩)

/-- PZERO (R147, R148): `ALLOCATION` exactly when `NBLK > MAX_BLOCKS`; else a buffer of `PLEN` bytes whose bytes
`[LEN, PLEN)` are 0 and whose other bytes hold no value. -/
def Obligations.PzeroAllocatesOrFaults : Prop :=
  ∀ (s : State) (blk p nb : Quad), s.nblk = some nb → s.plen = some p →
    (∀ m, s.maxBlocks = some m → m < nb.toNat → exec (.pzero blk) s = .next (raise .allocation s)) ∧
    ((∀ m, s.maxBlocks = some m → nb.toNat ≤ m) →
      ∃ b : PadBuf, exec (.pzero blk) s = .next ((s.setPb (some b)).setSeq ⟨.pcopy, 0, 0⟩) ∧ b.size = p.toNat ∧
        ∀ k, memGet b.cells k = if s.len.toNat ≤ k ∧ k < p.toNat then some 0 else none)

/-- PCOPY (R149): the `L` message bytes into the head of the buffer, unchanged and in order. -/
def Obligations.PcopyCopiesTheMessage : Prop :=
  ∀ (s : State) (blk : Quad) (b : PadBuf), s.pb = some b → s.len.toNat ≤ b.size →
    ∃ c : PadBuf, exec (.pcopy blk) s = .next ((s.setPb (some c)).setSeq ⟨.pterm, 0, 0⟩) ∧ c.size = b.size ∧
      (∀ k, k < s.len.toNat → memGet c.cells k = some (msgByteAt s k)) ∧
      ∀ k, s.len.toNat ≤ k → memGet c.cells k = memGet b.cells k

/-- PTERM (R150): the byte at offset `L` becomes 0x80. -/
def Obligations.PtermSetsTheTerminator : Prop :=
  ∀ (s : State) (blk : Quad) (b : PadBuf), s.pb = some b → s.len.toNat < b.size →
    ∃ c : PadBuf, exec (.pterm blk) s = .next ((s.setPb (some c)).setSeq ⟨.plenw, 0, 0⟩) ∧ c.size = b.size ∧
      memGet c.cells s.len.toNat = some 0x80#8 ∧
      ∀ k, k ≠ s.len.toNat → memGet c.cells k = memGet b.cells k

/-- PLENW (R151): the length in bits, big-endian, in the last eight bytes. -/
def Obligations.PlenwWritesTheLengthField : Prop :=
  ∀ (s : State) (blk p : Quad) (b : PadBuf), s.pb = some b → s.plen = some p → 8 ≤ p.toNat → p.toNat ≤ b.size →
    8 * s.len.toNat < 2 ^ 64 →
    ∃ c : PadBuf, exec (.plenw blk) s = .next ((s.setPb (some c)).setSeq ⟨.pseg, 0, 0⟩) ∧ c.size = b.size ∧
      (∀ k, k < 8 → ∃ x : Byte, memGet c.cells (p.toNat - 8 + k) = some x ∧
        x.toNat = 8 * s.len.toNat / 256 ^ (7 - k) % 256) ∧
      ∀ k, k < p.toNat - 8 ∨ p.toNat ≤ k → memGet c.cells k = memGet b.cells k

/-- PSEG (R152): `BLOCK_COUNT` exactly when `PLEN` is no multiple of 64, is not `64 * NBLK`, or `NBLK < 1`. -/
def Obligations.PsegChecksThePartition : Prop :=
  ∀ (s : State) (blk p nb : Quad), s.plen = some p → s.nblk = some nb →
    (p.toNat % 64 ≠ 0 ∨ nb.toNat * 64 ≠ p.toNat ∨ nb.toNat < 1 →
      exec (.pseg blk) s = .next (raise .blockCount s)) ∧
    (p.toNat % 64 = 0 → nb.toNat * 64 = p.toNat → 1 ≤ nb.toNat →
      exec (.pseg blk) s = .next (s.setSeq ⟨.hinit, 0, 0⟩))

/-! ## Hash state, expander, compressor -/

/-- HINIT (R211): `H` becomes the eight initial constants (R123), whatever it held. Their values are G1, general
knowledge of the spec (log 17). -/
def Obligations.HinitLoadsTheConstants : Prop :=
  ∀ (s : State) (blk : Quad), exec (.hinit blk) s =
    .next ((s.setHash (some #v[0x6a09e667#32, 0xbb67ae85#32, 0x3c6ef372#32, 0xa54ff53a#32,
      0x510e527f#32, 0x9b05688c#32, 0x1f83d9ab#32, 0x5be0cd19#32])).setSeq ⟨.wld, 0, 0⟩)

/-- WLD t (R171): `W[t]` becomes the big-endian word at `64*i + 4*t` of `PB`; the other words keep theirs. -/
def Obligations.WldLoadsTheBlockWord : Prop :=
  ∀ (s : State) (t : BitVec 7) (blk : Quad) (b0 b1 b2 b3 : Byte), t.toNat ≤ 15 →
    readPbByte s (64 * blk.toNat + 4 * t.toNat) = .ok b0 →
    readPbByte s (64 * blk.toNat + 4 * t.toNat + 1) = .ok b1 →
    readPbByte s (64 * blk.toNat + 4 * t.toNat + 2) = .ok b2 →
    readPbByte s (64 * blk.toNat + 4 * t.toNat + 3) = .ok b3 →
    ∃ u, exec (.wld t blk) s = .next u ∧ u = (s.setSched u.sched).setSeq u.seq ∧
      (∃ x, readSched u t.toNat = .ok x ∧
        x.toNat = b0.toNat * 2 ^ 24 + b1.toNat * 2 ^ 16 + b2.toNat * 2 ^ 8 + b3.toNat) ∧
      (∀ k, k ≠ t.toNat → readSched u k = readSched s k) ∧
      u.seq = if t.toNat < 15 then ⟨.wld, blk, t + 1⟩ else ⟨.wex, blk, 16⟩

/-- WEX j (R172): the recurrence, all additions modulo `2^32`; the other words keep theirs. -/
def Obligations.WexExpandsTheSchedule : Prop :=
  ∀ (s : State) (j : BitVec 7) (blk : Quad) (w16 w15 w7 w2 : Word), 16 ≤ j.toNat → j.toNat ≤ 63 →
    readSched s (j.toNat - 16) = .ok w16 → readSched s (j.toNat - 15) = .ok w15 →
    readSched s (j.toNat - 7) = .ok w7 → readSched s (j.toNat - 2) = .ok w2 →
    ∃ u, exec (.wex j blk) s = .next u ∧ u = (s.setSched u.sched).setSeq u.seq ∧
      (∃ x, readSched u j.toNat = .ok x ∧
        x.toNat = (w16.toNat + (ssig0 w15).toNat + w7.toNat + (ssig1 w2).toNat) % 2 ^ 32) ∧
      (∀ k, k ≠ j.toNat → readSched u k = readSched s k) ∧
      u.seq = if j.toNat < 63 then ⟨.wex, blk, j + 1⟩ else ⟨.rld, blk, 0⟩

/-- RLD (R191): the hash state into the working registers; `H` is not changed. -/
def Obligations.RldCopiesTheHashState : Prop :=
  ∀ (s : State) (blk : Quad) (h : Words8), s.hash = some h →
    exec (.rld blk) s =
      .next ((s.setRegs (some ⟨h[0], h[1], h[2], h[3], h[4], h[5], h[6], h[7]⟩)).setSeq ⟨.rnd, blk, 0⟩)

/-- RND j (R192, R196): the round as one parallel update of old values, sums modulo `2^32`, with the round constant
`K[j]` of the table R124 lists. The table's 64 values are G2, general knowledge of the spec (log 17). -/
def Obligations.RndUpdatesInParallel : Prop :=
  (kTable =
    ([0x428a2f98#32, 0x71374491#32, 0xb5c0fbcf#32, 0xe9b5dba5#32,
      0x3956c25b#32, 0x59f111f1#32, 0x923f82a4#32, 0xab1c5ed5#32,
      0xd807aa98#32, 0x12835b01#32, 0x243185be#32, 0x550c7dc3#32,
      0x72be5d74#32, 0x80deb1fe#32, 0x9bdc06a7#32, 0xc19bf174#32] ++
     [0xe49b69c1#32, 0xefbe4786#32, 0x0fc19dc6#32, 0x240ca1cc#32,
      0x2de92c6f#32, 0x4a7484aa#32, 0x5cb0a9dc#32, 0x76f988da#32,
      0x983e5152#32, 0xa831c66d#32, 0xb00327c8#32, 0xbf597fc7#32,
      0xc6e00bf3#32, 0xd5a79147#32, 0x06ca6351#32, 0x14292967#32] ++
     [0x27b70a85#32, 0x2e1b2138#32, 0x4d2c6dfc#32, 0x53380d13#32,
      0x650a7354#32, 0x766a0abb#32, 0x81c2c92e#32, 0x92722c85#32,
      0xa2bfe8a1#32, 0xa81a664b#32, 0xc24b8b70#32, 0xc76c51a3#32,
      0xd192e819#32, 0xd6990624#32, 0xf40e3585#32, 0x106aa070#32] ++
     [0x19a4c116#32, 0x1e376c08#32, 0x2748774c#32, 0x34b0bcb5#32,
      0x391c0cb3#32, 0x4ed8aa4a#32, 0x5b9cca4f#32, 0x682e6ff3#32,
      0x748f82ee#32, 0x78a5636f#32, 0x84c87814#32, 0x8cc70208#32,
      0x90befffa#32, 0xa4506ceb#32, 0xbef9a3f7#32, 0xc67178f2#32])) ∧
  ∀ (s : State) (j : BitVec 7) (blk : Quad) (r : WorkRegs) (w k : Word), j.toNat ≤ 63 → s.regs = some r →
    readSched s j.toNat = .ok w → kTable[j.toNat]? = some k →
    ∃ x : WorkRegs, exec (.rnd j blk) s =
        .next ((s.setRegs (some x)).setSeq (if j.toNat < 63 then ⟨.rnd, blk, j + 1⟩ else ⟨.ffw, blk, 0⟩)) ∧
      x.b = r.a ∧ x.c = r.b ∧ x.d = r.c ∧ x.f = r.e ∧ x.g = r.f ∧ x.h = r.g ∧
      x.e.toNat = (r.d.toNat +
        (r.h.toNat + (bsig1 r.e).toNat + (chFn r.e r.f r.g).toNat + k.toNat + w.toNat)) % 2 ^ 32 ∧
      x.a.toNat = ((r.h.toNat + (bsig1 r.e).toNat + (chFn r.e r.f r.g).toNat + k.toNat + w.toNat) +
        ((bsig0 r.a).toNat + (majFn r.a r.b r.c).toNat)) % 2 ^ 32

/-- FFW (R193): each register added into its hash-state word modulo `2^32`, the registers unchanged, and on to
the next block or to EMIT. R24 lets a model keep or drop the words of `W` here; that they are dropped, so that `W`
holds no value afterwards, is this model's choice (log 10). -/
def Obligations.FfwAddsTheRegisters : Prop :=
  ∀ (s : State) (blk nb : Quad) (h : Words8) (r : WorkRegs), s.hash = some h → s.regs = some r →
    s.nblk = some nb → blk.toNat + 1 ≤ nb.toNat →
    ∃ (g : Words8) (u : State), exec (.ffw blk) s = .next u ∧
      u = ((s.setHash (some g)).setSched (Vector.replicate 64 none)).setSeq u.seq ∧
      g[0].toNat = (h[0].toNat + r.a.toNat) % 2 ^ 32 ∧ g[1].toNat = (h[1].toNat + r.b.toNat) % 2 ^ 32 ∧
      g[2].toNat = (h[2].toNat + r.c.toNat) % 2 ^ 32 ∧ g[3].toNat = (h[3].toNat + r.d.toNat) % 2 ^ 32 ∧
      g[4].toNat = (h[4].toNat + r.e.toNat) % 2 ^ 32 ∧ g[5].toNat = (h[5].toNat + r.f.toNat) % 2 ^ 32 ∧
      g[6].toNat = (h[6].toNat + r.g.toNat) % 2 ^ 32 ∧ g[7].toNat = (h[7].toNat + r.h.toNat) % 2 ^ 32 ∧
      (blk.toNat + 1 < nb.toNat → u.seq = ⟨.wld, blk + 1, 0⟩) ∧
      (blk.toNat + 1 = nb.toNat → u.seq = ⟨.emit, blk + 1, 0⟩)

/-- EMIT (R212): `PB` released, `DONE` set, `BUSY` cleared, the other fields of `STATUS` and `H` unchanged, `W`
and `a..h` without value, the sequencer at rest. -/
def Obligations.EmitEndsTheRun : Prop :=
  ∀ (s : State) (blk : Quad), exec (.emit blk) s =
    .next (((((s.setPb none).setRegs none).setSched (Vector.replicate 64 none)).setStatus
      ⟨false, true, s.status.err, s.status.cause, s.status.fphase⟩).setSeq ⟨.idle, blk, 0⟩)

/-! ## The run as one function -/

/-- The expander as one function (R173): the sixteen WLD and forty-eight WEX steps of a block leave `W =
Sched(B)` and change nothing else. -/
def Obligations.ExpanderComputesSched : Prop :=
  ∀ (s : State) (blk : Quad) (b : Nat → Byte), s.inputs = [] → s.seq = ⟨.wld, blk, 0⟩ →
    (∀ k, k < 64 → readPbByte s (64 * blk.toNat + k) = .ok (b k)) →
    ∃ t, Host.Core.run Sys2Proof.core 64 s = .next t ∧ t.seq = ⟨.rld, blk, 0⟩ ∧
      t = (s.setSched t.sched).setSeq t.seq ∧
      ∀ j, j < 64 → ∃ x, (schedOf b)[j]? = some x ∧ readSched t j = .ok x

/-- The compressor as one function (R194): RLD, the sixty-four RND and FFW of a block leave `H = Compress(H, w)`
for the schedule `w` that `W` held. -/
def Obligations.CompressorComputesCompress : Prop :=
  ∀ (s : State) (blk nb : Quad) (h : Words8) (w : List Word), s.inputs = [] → s.seq = ⟨.rld, blk, 0⟩ →
    s.hash = some h → s.nblk = some nb → blk.toNat + 1 ≤ nb.toNat →
    w.length = 64 → (∀ j, j < 64 → ∃ x, w[j]? = some x ∧ readSched s j = .ok x) →
    ∃ t, Host.Core.run Sys2Proof.core 66 s = .next t ∧ t.hash = some (compress h w) ∧
      t = ((((s.setHash t.hash).setRegs t.regs).setSched t.sched)).setSeq t.seq ∧
      t.seq = if blk.toNat + 1 < nb.toNat then ⟨.wld, blk + 1, 0⟩ else ⟨.emit, blk + 1, 0⟩

/-- The run as one function (R217), with any legal polls of the host between the sequencer's steps (R248, R250):
from a resting state without fault that meets the invariants, a START with a legal length ends done with
`H = Hash(M, L)`, `NBLK = NB`, and the 32 bytes `Digest(M, L)`. The list of moves and the free bytes of `MSG` that
the host has not written are the model's (logs 1, 7). -/
def Obligations.RunHashesTheMessage : Prop :=
  ∀ (s : State) (moves : List HostMove), CoreInv s → Ready s → 1 ≤ s.len.toNat → s.len.toNat < 2 ^ 61 →
    overCapacity s.maxBlocks (blockCount s.len.toNat) = false →
    onlyPolls moves → moves.count .pass = 9 + 130 * blockCount s.len.toNat →
    ∃ t, Host.Core.run Sys2Proof.core (1 + moves.length) (s.setInputs (wr 0 1 :: moves)) = .next t ∧
      t.status.done = true ∧ t.status.busy = false ∧ t.status.err = false ∧
      t.hash = some (hashMsg (msgByteAt s) s.len.toNat) ∧
      digestOf t = some (digestMsg (msgByteAt s) s.len.toNat) ∧
      t.nblk = some (BitVec.ofNat 64 (blockCount s.len.toNat)) ∧ t.len = s.len ∧ t.msg = s.msg

/-- Every run ends (R214, R221, R321): each sequencer step of a run takes one off the steps that are left, or is
fault entry, after which none is left; and a busy sequencer has at least one left. -/
def Obligations.SequencerStepsRunOut : Prop :=
  ∀ s : State, StatusInv s → RunInv s → s.status.busy = true → nextMove s = .pass →
    1 ≤ stepsLeft s ∧ ∃ t, step s = .next t ∧
      ((t.status.err = true ∧ stepsLeft t = 0) ∨ (t.status.err = false ∧ stepsLeft s = stepsLeft t + 1)) ∧
      (stepsLeft t = 0 ↔ t.status.busy = false)

/-! ## The host port -/

/-- START (R241), in a resting state without fault. That nothing is returned is the model's `rdata` (log 5); the
snapshot of `MSG` is kept by refusing host writes (log 8). -/
def Obligations.StartBeginsARun : Prop :=
  ∀ s : State, s.status.busy = false → s.status.err = false →
    exec .start s = .next ((((((s.setStatus ⟨true, false, s.status.err, s.status.cause, s.status.fphase⟩).setHash
      none).setNblk none).setPlen none).setSeq ⟨.chk, 0, 0⟩).setRdata none)

/-- WRLEN v (R242), in a resting state without fault: `LEN <- v` for every 64-bit `v`, `DONE` kept.
That nothing is returned is the model's `rdata` (log 5). -/
def Obligations.WrlenSetsTheLength : Prop :=
  ∀ (s : State) (v : Quad), s.status.busy = false → s.status.err = false →
    exec (.wrlen v) s = .next ((s.setLen v).setRdata none)

/-- RDSTATUS (R243), in every state: `rdata = BUSY + 2*DONE + 4*ERR + 16*CAUSE + 256*FPHASE`, and no side
effect; RDLEN (R244), whenever `ERR = 0`, also while busy: `rdata = LEN`, and no side effect. The numbers of the
causes are R279's, those of the phases R88's. That what a read returns stands in `rdata` is the model's (log 5). -/
def Obligations.StatusAndLengthAreRead : Prop :=
  (∀ s : State,
    (∃ v : Quad, exec .rdstatus s = .next (s.setRdata (some v)) ∧
      v.toNat = s.status.busy.toNat + 2 * s.status.done.toNat + 4 * s.status.err.toNat +
        16 * (causeCode s.status.cause).toNat + 256 * (phaseCode s.status.fphase).toNat) ∧
    (s.status.err = false → exec .rdlen s = .next (s.setRdata (some s.len)))) ∧
  ((causeCode .none).toNat = 0 ∧ (causeCode .emptyMessage).toNat = 1 ∧ (causeCode .lengthOverflow).toNat = 2 ∧
    (causeCode .allocation).toNat = 3 ∧ (causeCode .blockCount).toNat = 4 ∧
    (causeCode .illegalCommand).toNat = 5 ∧ (causeCode .illegalAccess).toNat = 6 ∧
    (causeCode .busyViolation).toNat = 7) ∧
  (phaseCode .idle).toNat = 0x0 ∧ (phaseCode .chk).toNat = 0x1 ∧ (phaseCode .plen).toNat = 0x2 ∧
    (phaseCode .pzero).toNat = 0x3 ∧ (phaseCode .pcopy).toNat = 0x4 ∧ (phaseCode .pterm).toNat = 0x5 ∧
    (phaseCode .plenw).toNat = 0x6 ∧ (phaseCode .pseg).toNat = 0x7 ∧ (phaseCode .hinit).toNat = 0x8 ∧
    (phaseCode .wld).toNat = 0x9 ∧ (phaseCode .wex).toNat = 0xA ∧ (phaseCode .rld).toNat = 0xB ∧
    (phaseCode .rnd).toNat = 0xC ∧ (phaseCode .ffw).toNat = 0xD ∧ (phaseCode .emit).toNat = 0xE

/-- RDNBLK (R245): the block count when `DONE = 1`; `BUSY_VIOLATION` while busy; `ILLEGAL_ACCESS` at rest with
`DONE = 0`. The value a faulting read returns is free (U11); its form is the model's (logs 4, 5). -/
def Obligations.RdnblkReturnsTheCount : Prop :=
  ∀ s : State, s.status.err = false →
    (∀ n, s.status.busy = false → s.status.done = true → s.nblk = some n →
      exec .rdnblk s = .next (s.setRdata (some n))) ∧
    (s.status.busy = true → exec .rdnblk s = .next (((raise .busyViolation s).setRdata
      (some (Config.freeRead s.freeCtr))).setFreeCtr (s.freeCtr + 1))) ∧
    (s.status.busy = false → s.status.done = false → exec .rdnblk s = .next (((raise .illegalAccess s).setRdata
      (some (Config.freeRead s.freeCtr))).setFreeCtr (s.freeCtr + 1)))

/-- RDDIG i (R246): digest word `i`, zero-extended, when `DONE = 1`; `BUSY_VIOLATION` while busy;
`ILLEGAL_ACCESS` at rest with `DONE = 0`. The value a faulting read returns is free (U11); its form is the model's
(logs 4, 5). -/
def Obligations.RddigReturnsTheWord : Prop :=
  ∀ (s : State) (i : BitVec 3), s.status.err = false →
    (∀ (h : Words8) (w : Word), s.status.busy = false → s.status.done = true → s.hash = some h →
      h[i.toNat]? = some w →
      ∃ v : Quad, exec (.rddig i) s = .next (s.setRdata (some v)) ∧ v.toNat = w.toNat) ∧
    (s.status.busy = true → exec (.rddig i) s = .next (((raise .busyViolation s).setRdata
      (some (Config.freeRead s.freeCtr))).setFreeCtr (s.freeCtr + 1))) ∧
    (s.status.busy = false → s.status.done = false → exec (.rddig i) s = .next (((raise .illegalAccess s).setRdata
      (some (Config.freeRead s.freeCtr))).setFreeCtr (s.freeCtr + 1)))

/-- ILLEGAL (R247), all eight rows, whether the core is busy or resting, without fault so far: the write of CMD
raises `ILLEGAL_COMMAND`, the others `ILLEGAL_ACCESS`; a write returns nothing, a read a free value. The form of the
free value and the operands of an illegal word are the model's (logs 4, 5, 20). -/
def Obligations.IllegalWordsRaiseTheirFault : Prop :=
  ∀ (s : State) (v : Quad) (i : BitVec 3) (n : BitVec 6), s.status.err = false →
    exec (.illegalCmd v) s = .next ((raise .illegalCommand s).setRdata none) ∧
    exec (.illegalWrstatus v) s = .next ((raise .illegalAccess s).setRdata none) ∧
    exec (.illegalWrnblk v) s = .next ((raise .illegalAccess s).setRdata none) ∧
    exec (.illegalWrdig i v) s = .next ((raise .illegalAccess s).setRdata none) ∧
    exec (.illegalRes4to7 n (.write v)) s = .next ((raise .illegalAccess s).setRdata none) ∧
    exec (.illegalRes16to31 n (.write v)) s = .next ((raise .illegalAccess s).setRdata none) ∧
    exec (.illegalRes32to63 n (.write v)) s = .next ((raise .illegalAccess s).setRdata none) ∧
    exec .illegalRdcmd s = .next (((raise .illegalAccess s).setRdata
      (some (Config.freeRead s.freeCtr))).setFreeCtr (s.freeCtr + 1)) ∧
    exec (.illegalRes4to7 n .read) s = .next (((raise .illegalAccess s).setRdata
      (some (Config.freeRead s.freeCtr))).setFreeCtr (s.freeCtr + 1)) ∧
    exec (.illegalRes16to31 n .read) s = .next (((raise .illegalAccess s).setRdata
      (some (Config.freeRead s.freeCtr))).setFreeCtr (s.freeCtr + 1)) ∧
    exec (.illegalRes32to63 n .read) s = .next (((raise .illegalAccess s).setRdata
      (some (Config.freeRead s.freeCtr))).setFreeCtr (s.freeCtr + 1))

/-- While `BUSY = 1` START, WRLEN, RDNBLK and RDDIG raise `BUSY_VIOLATION` and end the run, with the phase the
sequencer was about to execute recorded; RDSTATUS and RDLEN are answered and end nothing (R248). -/
def Obligations.BusyPortRaisesBusyViolation : Prop :=
  ∀ (s : State) (i : Instr), s.status.busy = true → s.status.err = false →
    ((i = .start ∨ (∃ v, i = .wrlen v) ∨ i = .rdnblk ∨ ∃ k, i = .rddig k) →
      ∃ t, exec i s = .next t ∧ t.status = ⟨false, false, true, .busyViolation, s.seq.phase⟩ ∧
        t.seq = ⟨.idle, s.seq.blk, 0⟩) ∧
    ((i = .rdstatus ∨ i = .rdlen) → ∃ t, exec i s = .next t ∧ sameCore s t)

/-- In the fault state RDSTATUS is answered and nothing else: every other transaction changes no state and raises
no further fault, a read returning a free value and a write nothing (R249). The form of the free value is the
model's (logs 4, 5). -/
def Obligations.FaultStateAnswersOnlyStatus : Prop :=
  ∀ (s : State) (i : Instr), s.status.err = true → isTransaction i = true → i ≠ .rdstatus →
    ∃ t, exec i s = .next t ∧ sameCore s t ∧ t.msg = s.msg ∧ t.inputs = s.inputs ∧
      (isPortRead i = true → t.rdata = some (Config.freeRead s.freeCtr)) ∧ (isPortRead i = false → t.rdata = none)

/-- Fault entry (R280), for every cause and every state: what it records, what it drops, what it keeps; and in
the fault state it does nothing. -/
def Obligations.FaultEntryRecordsAndDrops : Prop :=
  ∀ (c : Cause) (s : State),
    (s.status.err = false →
      raise c s = ((((((((s.setStatus ⟨false, false, true, c, s.seq.phase⟩).setSeq ⟨.idle, s.seq.blk, 0⟩).setPb
        none).setHash none).setRegs none).setNblk none).setPlen none)).setSched (Vector.replicate 64 none)) ∧
    (s.status.err = true → raise c s = s)

/-- No return (R284, R249): whatever comes next but reset, the fault state stays, with the cause and phase of the
first fault. -/
def Obligations.FirstFaultStays : Prop :=
  ∀ s t : State, s.status.err = true → step s = .next t → nextMove s ≠ .reset →
    t.status.err = true ∧ t.status.cause = s.status.cause ∧ t.status.fphase = s.status.fphase

/-- A host write of `MSG[0..LEN-1]` during a run has no meaning (R72, R313); every other host write inside the
space lands byte by byte and changes nothing else. How the refusal stands for the snapshot, and where the space
ends, are the model's inferences (logs 8, 21). -/
def Obligations.MessageIsFixedDuringARun : Prop :=
  ∀ (s : State) (a : Quad) (bytes : List Byte) (rest : List HostMove), s.inputs = .writeMsg a bytes :: rest →
    (s.status.busy = true → bytes ≠ [] → a.toNat < s.len.toNat → step s = .refused .msgWriteDuringRun) ∧
    ((s.status.busy = false ∨ s.len.toNat ≤ a.toNat) → a.toNat + bytes.length ≤ 2 ^ 64 →
      ∃ t, step s = .next t ∧ t = (s.setMsg t.msg).setInputs rest ∧
        ∀ k, memGet t.msg k = if a.toNat ≤ k ∧ k < a.toNat + bytes.length then bytes[k - a.toNat]? else memGet s.msg k)

/-! ## Frames -/

/-- The micro-operations that store nothing in `PB`, when they do not enter the fault state: each writes what its row
of the access matrix gives it (R43), and every other field, every byte of `PB` and of `MSG` is as before. One clause
is no row of R43: after FFW no word of `W` holds a value, which is the model's choice among the two R24 allows
(log 10). -/
def Obligations.FramesOfMicroOpsThatStoreNothing : Prop :=
  ∀ (s t : State) (j : BitVec 7) (blk : Quad), t.status.err = s.status.err →
    (exec (.chk blk) s = .next t ∨ exec (.pseg blk) s = .next t → t = s.setSeq t.seq) ∧
    (exec (.plen blk) s = .next t → t = ((s.setPlen t.plen).setNblk t.nblk).setSeq t.seq) ∧
    (exec (.hinit blk) s = .next t → t = (s.setHash t.hash).setSeq t.seq) ∧
    (exec (.wld j blk) s = .next t ∨ exec (.wex j blk) s = .next t →
      t = (s.setSched t.sched).setSeq t.seq ∧ ∀ k, k ≠ j.toNat → readSched t k = readSched s k) ∧
    (exec (.rld blk) s = .next t ∨ exec (.rnd j blk) s = .next t → t = (s.setRegs t.regs).setSeq t.seq) ∧
    (exec (.ffw blk) s = .next t →
      t = ((s.setHash t.hash).setSched (Vector.replicate 64 none)).setSeq t.seq) ∧
    (exec (.chk blk) s = .next t ∨ exec (.pseg blk) s = .next t ∨ exec (.plen blk) s = .next t ∨
      exec (.hinit blk) s = .next t ∨ exec (.wld j blk) s = .next t ∨ exec (.wex j blk) s = .next t ∨
      exec (.rld blk) s = .next t ∨ exec (.rnd j blk) s = .next t ∨ exec (.ffw blk) s = .next t →
      ∀ a, readPbByte t a = readPbByte s a ∧ msgByteAt t a = msgByteAt s a)

/-- The micro-operations that store in `PB` (R147, R149 to R151): every field but `PB` and `SEQ` as before, and
every byte of `PB` outside the stored ones as before; PZERO's buffer is new, and its bytes outside the stored
ones hold no value. How the buffer is held is the model's (log 9). -/
def Obligations.FramesOfMicroOpsThatStore : Prop :=
  ∀ (s t : State) (blk : Quad), t.status.err = s.status.err →
    (exec (.pzero blk) s = .next t → t.status.err = false → t = (s.setPb t.pb).setSeq t.seq ∧
      ∀ p a, s.plen = some p → ¬ (s.len.toNat ≤ a ∧ a < p.toNat) →
        readPbByte t a = if a < p.toNat then .error (.noValue (.padByte a)) else .error (.pbAddress a)) ∧
    (exec (.pcopy blk) s = .next t → t = (s.setPb t.pb).setSeq t.seq ∧
      ∀ a, s.len.toNat ≤ a → readPbByte t a = readPbByte s a) ∧
    (exec (.pterm blk) s = .next t → t = (s.setPb t.pb).setSeq t.seq ∧
      ∀ a, a ≠ s.len.toNat → readPbByte t a = readPbByte s a) ∧
    (exec (.plenw blk) s = .next t → t = (s.setPb t.pb).setSeq t.seq ∧
      ∀ p a, s.plen = some p → ¬ (p.toNat - 8 ≤ a ∧ a < p.toNat) → readPbByte t a = readPbByte s a)

/-- Host transactions (R62): only START and WRLEN change the core, and an illegal or untimely transaction by fault
entry; "a read of `STATUS`, `LEN`, `NBLK` or `DIGi` changes nothing". No transaction changes `MSG`, the
parameter or the host's further moves. -/
def Obligations.FramesOfHostTransactions : Prop :=
  ∀ (s t : State) (i : Instr), isTransaction i = true → exec i s = .next t →
    (t.msg = s.msg ∧ t.maxBlocks = s.maxBlocks ∧ t.inputs = s.inputs ∧ ∀ a, msgByteAt t a = msgByteAt s a) ∧
    (isPortRead i = true → t.status.err = s.status.err →
      sameCore s t ∧ ∀ a, readPbByte t a = readPbByte s a) ∧
    (∀ v, i = .wrlen v → t.status.err = s.status.err → t = (s.setLen t.len).setRdata t.rdata) ∧
    (i = .start → t.status.err = s.status.err →
      t = (((((s.setStatus t.status).setHash t.hash).setNblk t.nblk).setPlen t.plen).setSeq t.seq).setRdata t.rdata) ∧
    (t.status.err ≠ s.status.err → ∃ c, sameCore (raise c s) t)

/-! ## Whole-machine rules -/

/-- `LEN` is written only by WRLEN and only while the sequencer rests without fault (R30), but for reset. -/
def Obligations.LenChangesOnlyByWrlenAtRest : Prop :=
  ∀ s t : State, step s = .next t → t.len ≠ s.len →
    nextMove s = .reset ∨ ∃ w, nextMove s = .txn w ∧ decodeHost w = .wrlen t.len ∧ Ready s

/-- The flags change only where the rules say: `BUSY` is set by an accepted START alone and cleared by EMIT, fault
entry (R32) or reset (R300); `DONE` is set by EMIT alone and cleared by an accepted START, reset (R33) or fault entry
(R280, which R33 does not list); `ERR` is set by fault entry alone (R34), which leaves the sequencer at rest with a
cause and the phase it was in (R280). -/
def Obligations.FlagsChangeOnlyWhereStated : Prop :=
  ∀ s t : State, step s = .next t →
    (s.status.busy = false → t.status.busy = true → startsRun s) ∧
    (s.status.busy = true → t.status.busy = false →
      (nextMove s = .pass ∧ s.seq.phase = .emit) ∨ t.status.err = true ∨ nextMove s = .reset) ∧
    (s.status.done = false → t.status.done = true → nextMove s = .pass ∧ s.seq.phase = .emit) ∧
    (s.status.done = true → t.status.done = false → startsRun s ∨ t.status.err = true ∨ nextMove s = .reset) ∧
    (s.status.err = false → t.status.err = true →
      t.seq = ⟨.idle, s.seq.blk, 0⟩ ∧ t.status.cause ≠ .none ∧ t.status.fphase = s.seq.phase)

/-- The host cannot reach `PB`, `W`, `a..h` or `SEQ` (R64): what a transaction returns is the same in two states
that agree on the registers the host can read there (R37) and on the number of the next free value. That number and
the place of what is returned are the model's (logs 4, 5). -/
def Obligations.HostSeesOnlyItsRegisters : Prop :=
  ∀ (i : Instr) (s₁ s₂ t₁ t₂ : State), isTransaction i = true → s₁.len = s₂.len → s₁.status = s₂.status →
    s₁.freeCtr = s₂.freeCtr → (s₁.status.done = true → s₁.hash = s₂.hash ∧ s₁.nblk = s₂.nblk) →
    exec i s₁ = .next t₁ → exec i s₂ = .next t₂ → t₁.rdata = t₂.rdata

/-! ## Invariants -/

/-- The invariants hold at reset (R41, R42), for every list of host moves and every capacity (logs 1, 6). -/
def Obligations.InvariantsHoldAtReset : Prop :=
  ∀ (moves : List HostMove) (cap : Option Nat),
    CoreInv ((State.reset.setInputs moves).setMaxBlocks cap) ∧ MemInv ((State.reset.setInputs moves).setMaxBlocks cap)

/-- R42 (1) to (3): every step keeps that `BUSY` says whether the sequencer runs, that at most one of the three
flags is set, and that a cause is recorded exactly with `ERR`. -/
def Obligations.StatusInvariantKept : Prop :=
  ∀ s t : State, StatusInv s → step s = .next t → StatusInv t

/-- Every step keeps both memories in canonical form and inside their spaces. The form is the model's (logs 7, 9). -/
def Obligations.MemoryFormKept : Prop :=
  ∀ s t : State, MemInv s → step s = .next t → MemInv t

/-- Every step keeps what holds a value where in a run, and the relations among the counters (R42, R43). -/
def Obligations.RunInvariantKept : Prop :=
  ∀ s t : State, StatusInv s → RunInv s → step s = .next t → RunInv t

/-- Every step keeps that the small steps have computed so far what the one function gives (R144, R173, R194,
R217); in particular a state with `DONE = 1` holds the hash of some legal message and its block count. -/
def Obligations.DigestInvariantKept : Prop :=
  ∀ s t : State, CoreInv s → step s = .next t → DigestInv t

/-- "The spec's rules never read such an element" (R21, R43), no access leaves `PB` (R60), no micro-operation is
without a next (R294): under the invariants a step answers a next state, whatever the host does but writing
`MSG`. -/
def Obligations.RunsNeverReadWithoutValue : Prop :=
  ∀ s : State, StatusInv s → RunInv s → (∀ a bytes, nextMove s ≠ .writeMsg a bytes) → ∃ t, step s = .next t

/-- Every state the machine reaches from reset, whatever the host does, meets the invariants (R42). -/
def Obligations.ReachableStatesMeetInvariants : Prop :=
  ∀ s : State, Reachable s → CoreInv s ∧ MemInv s
end

