-- ==== Sys2Proof/Laws/State.lean ====
section
/-!
SUPPORT. One lemma per field per named update of `State`, each true by `rfl`, so that no later proof unfolds a
record update; and the update of a field by its own value.
-/

namespace Sys2Proof.Machine

variable (s : State)

/-! `setRegs` -/

@[simp] theorem State.setRegs_regs (v : Option WorkRegs) : (s.setRegs v).regs = v := rfl
@[simp] theorem State.setRegs_hash (v : Option WorkRegs) : (s.setRegs v).hash = s.hash := rfl
@[simp] theorem State.setRegs_sched (v : Option WorkRegs) : (s.setRegs v).sched = s.sched := rfl
@[simp] theorem State.setRegs_pb (v : Option WorkRegs) : (s.setRegs v).pb = s.pb := rfl
@[simp] theorem State.setRegs_plen (v : Option WorkRegs) : (s.setRegs v).plen = s.plen := rfl
@[simp] theorem State.setRegs_nblk (v : Option WorkRegs) : (s.setRegs v).nblk = s.nblk := rfl
@[simp] theorem State.setRegs_len (v : Option WorkRegs) : (s.setRegs v).len = s.len := rfl
@[simp] theorem State.setRegs_seq (v : Option WorkRegs) : (s.setRegs v).seq = s.seq := rfl
@[simp] theorem State.setRegs_status (v : Option WorkRegs) : (s.setRegs v).status = s.status := rfl
@[simp] theorem State.setRegs_msg (v : Option WorkRegs) : (s.setRegs v).msg = s.msg := rfl
@[simp] theorem State.setRegs_maxBlocks (v : Option WorkRegs) : (s.setRegs v).maxBlocks = s.maxBlocks := rfl
@[simp] theorem State.setRegs_rdata (v : Option WorkRegs) : (s.setRegs v).rdata = s.rdata := rfl
@[simp] theorem State.setRegs_freeCtr (v : Option WorkRegs) : (s.setRegs v).freeCtr = s.freeCtr := rfl
@[simp] theorem State.setRegs_inputs (v : Option WorkRegs) : (s.setRegs v).inputs = s.inputs := rfl
@[simp] theorem State.setRegs_setRegs (v w : Option WorkRegs) : (s.setRegs v).setRegs w = s.setRegs w := rfl
@[simp] theorem State.setRegs_self : s.setRegs s.regs = s := rfl

/-! `setHash` -/

@[simp] theorem State.setHash_regs (v : Option Words8) : (s.setHash v).regs = s.regs := rfl
@[simp] theorem State.setHash_hash (v : Option Words8) : (s.setHash v).hash = v := rfl
@[simp] theorem State.setHash_sched (v : Option Words8) : (s.setHash v).sched = s.sched := rfl
@[simp] theorem State.setHash_pb (v : Option Words8) : (s.setHash v).pb = s.pb := rfl
@[simp] theorem State.setHash_plen (v : Option Words8) : (s.setHash v).plen = s.plen := rfl
@[simp] theorem State.setHash_nblk (v : Option Words8) : (s.setHash v).nblk = s.nblk := rfl
@[simp] theorem State.setHash_len (v : Option Words8) : (s.setHash v).len = s.len := rfl
@[simp] theorem State.setHash_seq (v : Option Words8) : (s.setHash v).seq = s.seq := rfl
@[simp] theorem State.setHash_status (v : Option Words8) : (s.setHash v).status = s.status := rfl
@[simp] theorem State.setHash_msg (v : Option Words8) : (s.setHash v).msg = s.msg := rfl
@[simp] theorem State.setHash_maxBlocks (v : Option Words8) : (s.setHash v).maxBlocks = s.maxBlocks := rfl
@[simp] theorem State.setHash_rdata (v : Option Words8) : (s.setHash v).rdata = s.rdata := rfl
@[simp] theorem State.setHash_freeCtr (v : Option Words8) : (s.setHash v).freeCtr = s.freeCtr := rfl
@[simp] theorem State.setHash_inputs (v : Option Words8) : (s.setHash v).inputs = s.inputs := rfl
@[simp] theorem State.setHash_setHash (v w : Option Words8) : (s.setHash v).setHash w = s.setHash w := rfl
@[simp] theorem State.setHash_self : s.setHash s.hash = s := rfl

/-! `setSched` -/

@[simp] theorem State.setSched_regs (v : Vector (Option Word) 64) : (s.setSched v).regs = s.regs := rfl
@[simp] theorem State.setSched_hash (v : Vector (Option Word) 64) : (s.setSched v).hash = s.hash := rfl
@[simp] theorem State.setSched_sched (v : Vector (Option Word) 64) : (s.setSched v).sched = v := rfl
@[simp] theorem State.setSched_pb (v : Vector (Option Word) 64) : (s.setSched v).pb = s.pb := rfl
@[simp] theorem State.setSched_plen (v : Vector (Option Word) 64) : (s.setSched v).plen = s.plen := rfl
@[simp] theorem State.setSched_nblk (v : Vector (Option Word) 64) : (s.setSched v).nblk = s.nblk := rfl
@[simp] theorem State.setSched_len (v : Vector (Option Word) 64) : (s.setSched v).len = s.len := rfl
@[simp] theorem State.setSched_seq (v : Vector (Option Word) 64) : (s.setSched v).seq = s.seq := rfl
@[simp] theorem State.setSched_status (v : Vector (Option Word) 64) : (s.setSched v).status = s.status := rfl
@[simp] theorem State.setSched_msg (v : Vector (Option Word) 64) : (s.setSched v).msg = s.msg := rfl
@[simp] theorem State.setSched_maxBlocks (v : Vector (Option Word) 64) : (s.setSched v).maxBlocks = s.maxBlocks := rfl
@[simp] theorem State.setSched_rdata (v : Vector (Option Word) 64) : (s.setSched v).rdata = s.rdata := rfl
@[simp] theorem State.setSched_freeCtr (v : Vector (Option Word) 64) : (s.setSched v).freeCtr = s.freeCtr := rfl
@[simp] theorem State.setSched_inputs (v : Vector (Option Word) 64) : (s.setSched v).inputs = s.inputs := rfl
@[simp] theorem State.setSched_setSched (v w : Vector (Option Word) 64) : (s.setSched v).setSched w = s.setSched w := rfl
@[simp] theorem State.setSched_self : s.setSched s.sched = s := rfl

/-! `setPb` -/

@[simp] theorem State.setPb_regs (v : Option PadBuf) : (s.setPb v).regs = s.regs := rfl
@[simp] theorem State.setPb_hash (v : Option PadBuf) : (s.setPb v).hash = s.hash := rfl
@[simp] theorem State.setPb_sched (v : Option PadBuf) : (s.setPb v).sched = s.sched := rfl
@[simp] theorem State.setPb_pb (v : Option PadBuf) : (s.setPb v).pb = v := rfl
@[simp] theorem State.setPb_plen (v : Option PadBuf) : (s.setPb v).plen = s.plen := rfl
@[simp] theorem State.setPb_nblk (v : Option PadBuf) : (s.setPb v).nblk = s.nblk := rfl
@[simp] theorem State.setPb_len (v : Option PadBuf) : (s.setPb v).len = s.len := rfl
@[simp] theorem State.setPb_seq (v : Option PadBuf) : (s.setPb v).seq = s.seq := rfl
@[simp] theorem State.setPb_status (v : Option PadBuf) : (s.setPb v).status = s.status := rfl
@[simp] theorem State.setPb_msg (v : Option PadBuf) : (s.setPb v).msg = s.msg := rfl
@[simp] theorem State.setPb_maxBlocks (v : Option PadBuf) : (s.setPb v).maxBlocks = s.maxBlocks := rfl
@[simp] theorem State.setPb_rdata (v : Option PadBuf) : (s.setPb v).rdata = s.rdata := rfl
@[simp] theorem State.setPb_freeCtr (v : Option PadBuf) : (s.setPb v).freeCtr = s.freeCtr := rfl
@[simp] theorem State.setPb_inputs (v : Option PadBuf) : (s.setPb v).inputs = s.inputs := rfl
@[simp] theorem State.setPb_setPb (v w : Option PadBuf) : (s.setPb v).setPb w = s.setPb w := rfl
@[simp] theorem State.setPb_self : s.setPb s.pb = s := rfl

/-! `setPlen` -/

@[simp] theorem State.setPlen_regs (v : Option Quad) : (s.setPlen v).regs = s.regs := rfl
@[simp] theorem State.setPlen_hash (v : Option Quad) : (s.setPlen v).hash = s.hash := rfl
@[simp] theorem State.setPlen_sched (v : Option Quad) : (s.setPlen v).sched = s.sched := rfl
@[simp] theorem State.setPlen_pb (v : Option Quad) : (s.setPlen v).pb = s.pb := rfl
@[simp] theorem State.setPlen_plen (v : Option Quad) : (s.setPlen v).plen = v := rfl
@[simp] theorem State.setPlen_nblk (v : Option Quad) : (s.setPlen v).nblk = s.nblk := rfl
@[simp] theorem State.setPlen_len (v : Option Quad) : (s.setPlen v).len = s.len := rfl
@[simp] theorem State.setPlen_seq (v : Option Quad) : (s.setPlen v).seq = s.seq := rfl
@[simp] theorem State.setPlen_status (v : Option Quad) : (s.setPlen v).status = s.status := rfl
@[simp] theorem State.setPlen_msg (v : Option Quad) : (s.setPlen v).msg = s.msg := rfl
@[simp] theorem State.setPlen_maxBlocks (v : Option Quad) : (s.setPlen v).maxBlocks = s.maxBlocks := rfl
@[simp] theorem State.setPlen_rdata (v : Option Quad) : (s.setPlen v).rdata = s.rdata := rfl
@[simp] theorem State.setPlen_freeCtr (v : Option Quad) : (s.setPlen v).freeCtr = s.freeCtr := rfl
@[simp] theorem State.setPlen_inputs (v : Option Quad) : (s.setPlen v).inputs = s.inputs := rfl
@[simp] theorem State.setPlen_setPlen (v w : Option Quad) : (s.setPlen v).setPlen w = s.setPlen w := rfl
@[simp] theorem State.setPlen_self : s.setPlen s.plen = s := rfl

/-! `setNblk` -/

@[simp] theorem State.setNblk_regs (v : Option Quad) : (s.setNblk v).regs = s.regs := rfl
@[simp] theorem State.setNblk_hash (v : Option Quad) : (s.setNblk v).hash = s.hash := rfl
@[simp] theorem State.setNblk_sched (v : Option Quad) : (s.setNblk v).sched = s.sched := rfl
@[simp] theorem State.setNblk_pb (v : Option Quad) : (s.setNblk v).pb = s.pb := rfl
@[simp] theorem State.setNblk_plen (v : Option Quad) : (s.setNblk v).plen = s.plen := rfl
@[simp] theorem State.setNblk_nblk (v : Option Quad) : (s.setNblk v).nblk = v := rfl
@[simp] theorem State.setNblk_len (v : Option Quad) : (s.setNblk v).len = s.len := rfl
@[simp] theorem State.setNblk_seq (v : Option Quad) : (s.setNblk v).seq = s.seq := rfl
@[simp] theorem State.setNblk_status (v : Option Quad) : (s.setNblk v).status = s.status := rfl
@[simp] theorem State.setNblk_msg (v : Option Quad) : (s.setNblk v).msg = s.msg := rfl
@[simp] theorem State.setNblk_maxBlocks (v : Option Quad) : (s.setNblk v).maxBlocks = s.maxBlocks := rfl
@[simp] theorem State.setNblk_rdata (v : Option Quad) : (s.setNblk v).rdata = s.rdata := rfl
@[simp] theorem State.setNblk_freeCtr (v : Option Quad) : (s.setNblk v).freeCtr = s.freeCtr := rfl
@[simp] theorem State.setNblk_inputs (v : Option Quad) : (s.setNblk v).inputs = s.inputs := rfl
@[simp] theorem State.setNblk_setNblk (v w : Option Quad) : (s.setNblk v).setNblk w = s.setNblk w := rfl
@[simp] theorem State.setNblk_self : s.setNblk s.nblk = s := rfl

/-! `setLen` -/

@[simp] theorem State.setLen_regs (v : Quad) : (s.setLen v).regs = s.regs := rfl
@[simp] theorem State.setLen_hash (v : Quad) : (s.setLen v).hash = s.hash := rfl
@[simp] theorem State.setLen_sched (v : Quad) : (s.setLen v).sched = s.sched := rfl
@[simp] theorem State.setLen_pb (v : Quad) : (s.setLen v).pb = s.pb := rfl
@[simp] theorem State.setLen_plen (v : Quad) : (s.setLen v).plen = s.plen := rfl
@[simp] theorem State.setLen_nblk (v : Quad) : (s.setLen v).nblk = s.nblk := rfl
@[simp] theorem State.setLen_len (v : Quad) : (s.setLen v).len = v := rfl
@[simp] theorem State.setLen_seq (v : Quad) : (s.setLen v).seq = s.seq := rfl
@[simp] theorem State.setLen_status (v : Quad) : (s.setLen v).status = s.status := rfl
@[simp] theorem State.setLen_msg (v : Quad) : (s.setLen v).msg = s.msg := rfl
@[simp] theorem State.setLen_maxBlocks (v : Quad) : (s.setLen v).maxBlocks = s.maxBlocks := rfl
@[simp] theorem State.setLen_rdata (v : Quad) : (s.setLen v).rdata = s.rdata := rfl
@[simp] theorem State.setLen_freeCtr (v : Quad) : (s.setLen v).freeCtr = s.freeCtr := rfl
@[simp] theorem State.setLen_inputs (v : Quad) : (s.setLen v).inputs = s.inputs := rfl
@[simp] theorem State.setLen_setLen (v w : Quad) : (s.setLen v).setLen w = s.setLen w := rfl
@[simp] theorem State.setLen_self : s.setLen s.len = s := rfl

/-! `setSeq` -/

@[simp] theorem State.setSeq_regs (v : Seq) : (s.setSeq v).regs = s.regs := rfl
@[simp] theorem State.setSeq_hash (v : Seq) : (s.setSeq v).hash = s.hash := rfl
@[simp] theorem State.setSeq_sched (v : Seq) : (s.setSeq v).sched = s.sched := rfl
@[simp] theorem State.setSeq_pb (v : Seq) : (s.setSeq v).pb = s.pb := rfl
@[simp] theorem State.setSeq_plen (v : Seq) : (s.setSeq v).plen = s.plen := rfl
@[simp] theorem State.setSeq_nblk (v : Seq) : (s.setSeq v).nblk = s.nblk := rfl
@[simp] theorem State.setSeq_len (v : Seq) : (s.setSeq v).len = s.len := rfl
@[simp] theorem State.setSeq_seq (v : Seq) : (s.setSeq v).seq = v := rfl
@[simp] theorem State.setSeq_status (v : Seq) : (s.setSeq v).status = s.status := rfl
@[simp] theorem State.setSeq_msg (v : Seq) : (s.setSeq v).msg = s.msg := rfl
@[simp] theorem State.setSeq_maxBlocks (v : Seq) : (s.setSeq v).maxBlocks = s.maxBlocks := rfl
@[simp] theorem State.setSeq_rdata (v : Seq) : (s.setSeq v).rdata = s.rdata := rfl
@[simp] theorem State.setSeq_freeCtr (v : Seq) : (s.setSeq v).freeCtr = s.freeCtr := rfl
@[simp] theorem State.setSeq_inputs (v : Seq) : (s.setSeq v).inputs = s.inputs := rfl
@[simp] theorem State.setSeq_setSeq (v w : Seq) : (s.setSeq v).setSeq w = s.setSeq w := rfl
@[simp] theorem State.setSeq_self : s.setSeq s.seq = s := rfl

/-! `setStatus` -/

@[simp] theorem State.setStatus_regs (v : Status) : (s.setStatus v).regs = s.regs := rfl
@[simp] theorem State.setStatus_hash (v : Status) : (s.setStatus v).hash = s.hash := rfl
@[simp] theorem State.setStatus_sched (v : Status) : (s.setStatus v).sched = s.sched := rfl
@[simp] theorem State.setStatus_pb (v : Status) : (s.setStatus v).pb = s.pb := rfl
@[simp] theorem State.setStatus_plen (v : Status) : (s.setStatus v).plen = s.plen := rfl
@[simp] theorem State.setStatus_nblk (v : Status) : (s.setStatus v).nblk = s.nblk := rfl
@[simp] theorem State.setStatus_len (v : Status) : (s.setStatus v).len = s.len := rfl
@[simp] theorem State.setStatus_seq (v : Status) : (s.setStatus v).seq = s.seq := rfl
@[simp] theorem State.setStatus_status (v : Status) : (s.setStatus v).status = v := rfl
@[simp] theorem State.setStatus_msg (v : Status) : (s.setStatus v).msg = s.msg := rfl
@[simp] theorem State.setStatus_maxBlocks (v : Status) : (s.setStatus v).maxBlocks = s.maxBlocks := rfl
@[simp] theorem State.setStatus_rdata (v : Status) : (s.setStatus v).rdata = s.rdata := rfl
@[simp] theorem State.setStatus_freeCtr (v : Status) : (s.setStatus v).freeCtr = s.freeCtr := rfl
@[simp] theorem State.setStatus_inputs (v : Status) : (s.setStatus v).inputs = s.inputs := rfl
@[simp] theorem State.setStatus_setStatus (v w : Status) : (s.setStatus v).setStatus w = s.setStatus w := rfl
@[simp] theorem State.setStatus_self : s.setStatus s.status = s := rfl

/-! `setMsg` -/

@[simp] theorem State.setMsg_regs (v : Memory) : (s.setMsg v).regs = s.regs := rfl
@[simp] theorem State.setMsg_hash (v : Memory) : (s.setMsg v).hash = s.hash := rfl
@[simp] theorem State.setMsg_sched (v : Memory) : (s.setMsg v).sched = s.sched := rfl
@[simp] theorem State.setMsg_pb (v : Memory) : (s.setMsg v).pb = s.pb := rfl
@[simp] theorem State.setMsg_plen (v : Memory) : (s.setMsg v).plen = s.plen := rfl
@[simp] theorem State.setMsg_nblk (v : Memory) : (s.setMsg v).nblk = s.nblk := rfl
@[simp] theorem State.setMsg_len (v : Memory) : (s.setMsg v).len = s.len := rfl
@[simp] theorem State.setMsg_seq (v : Memory) : (s.setMsg v).seq = s.seq := rfl
@[simp] theorem State.setMsg_status (v : Memory) : (s.setMsg v).status = s.status := rfl
@[simp] theorem State.setMsg_msg (v : Memory) : (s.setMsg v).msg = v := rfl
@[simp] theorem State.setMsg_maxBlocks (v : Memory) : (s.setMsg v).maxBlocks = s.maxBlocks := rfl
@[simp] theorem State.setMsg_rdata (v : Memory) : (s.setMsg v).rdata = s.rdata := rfl
@[simp] theorem State.setMsg_freeCtr (v : Memory) : (s.setMsg v).freeCtr = s.freeCtr := rfl
@[simp] theorem State.setMsg_inputs (v : Memory) : (s.setMsg v).inputs = s.inputs := rfl
@[simp] theorem State.setMsg_setMsg (v w : Memory) : (s.setMsg v).setMsg w = s.setMsg w := rfl
@[simp] theorem State.setMsg_self : s.setMsg s.msg = s := rfl

/-! `setMaxBlocks` -/

@[simp] theorem State.setMaxBlocks_regs (v : Option Nat) : (s.setMaxBlocks v).regs = s.regs := rfl
@[simp] theorem State.setMaxBlocks_hash (v : Option Nat) : (s.setMaxBlocks v).hash = s.hash := rfl
@[simp] theorem State.setMaxBlocks_sched (v : Option Nat) : (s.setMaxBlocks v).sched = s.sched := rfl
@[simp] theorem State.setMaxBlocks_pb (v : Option Nat) : (s.setMaxBlocks v).pb = s.pb := rfl
@[simp] theorem State.setMaxBlocks_plen (v : Option Nat) : (s.setMaxBlocks v).plen = s.plen := rfl
@[simp] theorem State.setMaxBlocks_nblk (v : Option Nat) : (s.setMaxBlocks v).nblk = s.nblk := rfl
@[simp] theorem State.setMaxBlocks_len (v : Option Nat) : (s.setMaxBlocks v).len = s.len := rfl
@[simp] theorem State.setMaxBlocks_seq (v : Option Nat) : (s.setMaxBlocks v).seq = s.seq := rfl
@[simp] theorem State.setMaxBlocks_status (v : Option Nat) : (s.setMaxBlocks v).status = s.status := rfl
@[simp] theorem State.setMaxBlocks_msg (v : Option Nat) : (s.setMaxBlocks v).msg = s.msg := rfl
@[simp] theorem State.setMaxBlocks_maxBlocks (v : Option Nat) : (s.setMaxBlocks v).maxBlocks = v := rfl
@[simp] theorem State.setMaxBlocks_rdata (v : Option Nat) : (s.setMaxBlocks v).rdata = s.rdata := rfl
@[simp] theorem State.setMaxBlocks_freeCtr (v : Option Nat) : (s.setMaxBlocks v).freeCtr = s.freeCtr := rfl
@[simp] theorem State.setMaxBlocks_inputs (v : Option Nat) : (s.setMaxBlocks v).inputs = s.inputs := rfl
@[simp] theorem State.setMaxBlocks_setMaxBlocks (v w : Option Nat) : (s.setMaxBlocks v).setMaxBlocks w = s.setMaxBlocks w := rfl
@[simp] theorem State.setMaxBlocks_self : s.setMaxBlocks s.maxBlocks = s := rfl

/-! `setRdata` -/

@[simp] theorem State.setRdata_regs (v : Option Quad) : (s.setRdata v).regs = s.regs := rfl
@[simp] theorem State.setRdata_hash (v : Option Quad) : (s.setRdata v).hash = s.hash := rfl
@[simp] theorem State.setRdata_sched (v : Option Quad) : (s.setRdata v).sched = s.sched := rfl
@[simp] theorem State.setRdata_pb (v : Option Quad) : (s.setRdata v).pb = s.pb := rfl
@[simp] theorem State.setRdata_plen (v : Option Quad) : (s.setRdata v).plen = s.plen := rfl
@[simp] theorem State.setRdata_nblk (v : Option Quad) : (s.setRdata v).nblk = s.nblk := rfl
@[simp] theorem State.setRdata_len (v : Option Quad) : (s.setRdata v).len = s.len := rfl
@[simp] theorem State.setRdata_seq (v : Option Quad) : (s.setRdata v).seq = s.seq := rfl
@[simp] theorem State.setRdata_status (v : Option Quad) : (s.setRdata v).status = s.status := rfl
@[simp] theorem State.setRdata_msg (v : Option Quad) : (s.setRdata v).msg = s.msg := rfl
@[simp] theorem State.setRdata_maxBlocks (v : Option Quad) : (s.setRdata v).maxBlocks = s.maxBlocks := rfl
@[simp] theorem State.setRdata_rdata (v : Option Quad) : (s.setRdata v).rdata = v := rfl
@[simp] theorem State.setRdata_freeCtr (v : Option Quad) : (s.setRdata v).freeCtr = s.freeCtr := rfl
@[simp] theorem State.setRdata_inputs (v : Option Quad) : (s.setRdata v).inputs = s.inputs := rfl
@[simp] theorem State.setRdata_setRdata (v w : Option Quad) : (s.setRdata v).setRdata w = s.setRdata w := rfl
@[simp] theorem State.setRdata_self : s.setRdata s.rdata = s := rfl

/-! `setFreeCtr` -/

@[simp] theorem State.setFreeCtr_regs (v : Nat) : (s.setFreeCtr v).regs = s.regs := rfl
@[simp] theorem State.setFreeCtr_hash (v : Nat) : (s.setFreeCtr v).hash = s.hash := rfl
@[simp] theorem State.setFreeCtr_sched (v : Nat) : (s.setFreeCtr v).sched = s.sched := rfl
@[simp] theorem State.setFreeCtr_pb (v : Nat) : (s.setFreeCtr v).pb = s.pb := rfl
@[simp] theorem State.setFreeCtr_plen (v : Nat) : (s.setFreeCtr v).plen = s.plen := rfl
@[simp] theorem State.setFreeCtr_nblk (v : Nat) : (s.setFreeCtr v).nblk = s.nblk := rfl
@[simp] theorem State.setFreeCtr_len (v : Nat) : (s.setFreeCtr v).len = s.len := rfl
@[simp] theorem State.setFreeCtr_seq (v : Nat) : (s.setFreeCtr v).seq = s.seq := rfl
@[simp] theorem State.setFreeCtr_status (v : Nat) : (s.setFreeCtr v).status = s.status := rfl
@[simp] theorem State.setFreeCtr_msg (v : Nat) : (s.setFreeCtr v).msg = s.msg := rfl
@[simp] theorem State.setFreeCtr_maxBlocks (v : Nat) : (s.setFreeCtr v).maxBlocks = s.maxBlocks := rfl
@[simp] theorem State.setFreeCtr_rdata (v : Nat) : (s.setFreeCtr v).rdata = s.rdata := rfl
@[simp] theorem State.setFreeCtr_freeCtr (v : Nat) : (s.setFreeCtr v).freeCtr = v := rfl
@[simp] theorem State.setFreeCtr_inputs (v : Nat) : (s.setFreeCtr v).inputs = s.inputs := rfl
@[simp] theorem State.setFreeCtr_setFreeCtr (v w : Nat) : (s.setFreeCtr v).setFreeCtr w = s.setFreeCtr w := rfl
@[simp] theorem State.setFreeCtr_self : s.setFreeCtr s.freeCtr = s := rfl

/-! `setInputs` -/

@[simp] theorem State.setInputs_regs (v : List HostMove) : (s.setInputs v).regs = s.regs := rfl
@[simp] theorem State.setInputs_hash (v : List HostMove) : (s.setInputs v).hash = s.hash := rfl
@[simp] theorem State.setInputs_sched (v : List HostMove) : (s.setInputs v).sched = s.sched := rfl
@[simp] theorem State.setInputs_pb (v : List HostMove) : (s.setInputs v).pb = s.pb := rfl
@[simp] theorem State.setInputs_plen (v : List HostMove) : (s.setInputs v).plen = s.plen := rfl
@[simp] theorem State.setInputs_nblk (v : List HostMove) : (s.setInputs v).nblk = s.nblk := rfl
@[simp] theorem State.setInputs_len (v : List HostMove) : (s.setInputs v).len = s.len := rfl
@[simp] theorem State.setInputs_seq (v : List HostMove) : (s.setInputs v).seq = s.seq := rfl
@[simp] theorem State.setInputs_status (v : List HostMove) : (s.setInputs v).status = s.status := rfl
@[simp] theorem State.setInputs_msg (v : List HostMove) : (s.setInputs v).msg = s.msg := rfl
@[simp] theorem State.setInputs_maxBlocks (v : List HostMove) : (s.setInputs v).maxBlocks = s.maxBlocks := rfl
@[simp] theorem State.setInputs_rdata (v : List HostMove) : (s.setInputs v).rdata = s.rdata := rfl
@[simp] theorem State.setInputs_freeCtr (v : List HostMove) : (s.setInputs v).freeCtr = s.freeCtr := rfl
@[simp] theorem State.setInputs_inputs (v : List HostMove) : (s.setInputs v).inputs = v := rfl
@[simp] theorem State.setInputs_setInputs (v w : List HostMove) : (s.setInputs v).setInputs w = s.setInputs w := rfl
@[simp] theorem State.setInputs_self : s.setInputs s.inputs = s := rfl

end Sys2Proof.Machine
end

