-- ==== Sys2Proof/Laws/Memory.lean ====
section
/-!
SUPPORT. The laws of the byte memory: a read after a write, the canonical form kept, and what the accessors of
`PB` and `MSG` do.
-/

namespace Sys2Proof.Machine

@[simp] theorem memGet_nil (a : Nat) : memGet [] a = none := rfl

theorem memGet_append (m n : Memory) (a : Nat) : memGet (m ++ n) a = (memGet m a).or (memGet n a) := by
  induction m with
  | nil => simp
  | cons c m ih =>
    obtain ⟨x, b⟩ := c
    by_cases h : x = a <;> simp [memGet, h, ih]

/-- A run of bytes reads back as the bytes at their addresses, and nowhere else. -/
theorem memGet_cellsFrom (bs : List Byte) (a x : Nat) :
    memGet (cellsFrom a bs) x = if a ≤ x then bs[x - a]? else none := by
  induction bs generalizing a with
  | nil => simp [cellsFrom]
  | cons b bs ih =>
    simp only [cellsFrom, memGet, ih]
    by_cases h : a = x
    · simp [h]
    · by_cases h' : a + 1 ≤ x
      · have e : x - a = (x - (a + 1)) + 1 := by omega
        simp [h, h', show a ≤ x by omega, e]
      · simp [h, h', show ¬ a ≤ x by omega]

theorem memGet_filter (m : Memory) (q : Nat → Bool) (a : Nat) :
    memGet (m.filter fun c => q c.1) a = if q a then memGet m a else none := by
  induction m with
  | nil => simp
  | cons c m ih =>
    obtain ⟨x, b⟩ := c
    by_cases hq : q x
    · by_cases h : x = a
      · subst h; simp [hq, memGet]
      · simp [hq, memGet, h, ih]
    · by_cases h : x = a
      · subst h; simp [hq, ih]
      · simp [hq, memGet, h, ih]

/-- Read after write: the bytes written at their addresses, every other address as before. -/
theorem memGet_memPut (m : Memory) (a : Nat) (bs : List Byte) (x : Nat) :
    memGet (memPut m a bs) x = if a ≤ x ∧ x < a + bs.length then bs[x - a]? else memGet m x := by
  have h1 := memGet_filter m (fun y => decide (y < a)) x
  have h2 := memGet_filter m (fun y => decide (a + bs.length ≤ y)) x
  simp only [memPut, memGet_append, memGet_cellsFrom, h1, h2, decide_eq_true_eq]
  by_cases c1 : x < a
  · simp [c1, show ¬ a ≤ x by omega, show ¬ a + bs.length ≤ x by omega]
  · by_cases c2 : a + bs.length ≤ x
    · have : bs[x - a]? = none := List.getElem?_eq_none (by omega)
      simp [c1, c2, show a ≤ x by omega, show ¬ x < a + bs.length by omega, this]
    · simp [c1, c2, show a ≤ x by omega, show x < a + bs.length by omega]

/-- A write leaves every address outside its bytes as it was. -/
theorem memGet_memPut_outside (m : Memory) (a : Nat) (bs : List Byte) {x : Nat} (h : x < a ∨ a + bs.length ≤ x) :
    memGet (memPut m a bs) x = memGet m x := by
  rw [memGet_memPut, if_neg (by omega)]

/-- The canonical form is: the addresses rise strictly. -/
theorem wf_iff_pairwise (m : Memory) : Memory.wf m = true ↔ m.Pairwise (fun c d => c.1 < d.1) := by
  induction m with
  | nil => simp [Memory.wf]
  | cons c m ih =>
    cases m with
    | nil => simp [Memory.wf]
    | cons d m =>
      simp only [Memory.wf, Bool.and_eq_true, decide_eq_true_eq, ih, List.pairwise_cons]
      constructor
      · rintro ⟨h, hd, hm⟩
        exact ⟨fun e he => by
          rcases List.mem_cons.1 he with rfl | he
          · exact h
          · exact Nat.lt_trans h (hd e he), hd, hm⟩
      · rintro ⟨h, hd, hm⟩
        exact ⟨h d (by simp), hd, hm⟩

theorem mem_cellsFrom {bs : List Byte} {a : Nat} {c : Host.Cell} (h : c ∈ cellsFrom a bs) :
    a ≤ c.1 ∧ c.1 < a + bs.length := by
  induction bs generalizing a with
  | nil => simp [cellsFrom] at h
  | cons b bs ih =>
    rcases List.mem_cons.1 h with rfl | h
    · simp
    · have := ih h; simp only [List.length_cons]; omega

theorem cellsFrom_wf (a : Nat) (bs : List Byte) : Memory.wf (cellsFrom a bs) = true := by
  rw [wf_iff_pairwise]
  induction bs generalizing a with
  | nil => simp [cellsFrom]
  | cons b bs ih => exact List.pairwise_cons.2 ⟨fun c hc => by have := mem_cellsFrom hc; simp; omega, ih _⟩

/-- Every write keeps the canonical form. -/
theorem memPut_wf {m : Memory} (h : Memory.wf m = true) (a : Nat) (bs : List Byte) :
    Memory.wf (memPut m a bs) = true := by
  rw [wf_iff_pairwise] at h ⊢
  rw [memPut, List.pairwise_append, List.pairwise_append]
  refine ⟨⟨h.filter _, (wf_iff_pairwise _).1 (cellsFrom_wf a bs), ?_⟩, h.filter _, ?_⟩
  · intro c hc d hd
    have := mem_cellsFrom hd
    simp only [List.mem_filter, decide_eq_true_eq] at hc
    omega
  · intro c hc d hd
    simp only [List.mem_filter, decide_eq_true_eq, List.mem_append] at hc hd
    rcases hc with ⟨-, hc⟩ | hc
    · omega
    · have := mem_cellsFrom hc; omega

/-- A write adds no address outside its bytes. -/
theorem mem_memPut {m : Memory} {a : Nat} {bs : List Byte} {c : Host.Cell} (h : c ∈ memPut m a bs) :
    c ∈ m ∨ (a ≤ c.1 ∧ c.1 < a + bs.length) := by
  simp only [memPut, List.mem_append, List.mem_filter] at h
  rcases h with (h | h) | h
  · exact .inl h.1
  · exact .inr (mem_cellsFrom h)
  · exact .inl h.1

/-! ## The padded buffer -/

theorem allocZeroed_wf (l p : Nat) : Memory.wf (allocZeroed l p).cells = true := cellsFrom_wf _ _

theorem memGet_allocZeroed (l p k : Nat) :
    memGet (allocZeroed l p).cells k = if l ≤ k ∧ k < p then some 0 else none := by
  simp only [allocZeroed, memGet_cellsFrom, List.getElem?_replicate]
  by_cases h : l ≤ k
  · by_cases h' : k < p
    · simp [h, h', show k - l < p - l by omega]
    · simp [h, h', show ¬ k - l < p - l by omega]
  · simp [h]

/-- All that a write to `PB` does when it does not stop. -/
theorem writePb_ok_iff {s : State} {a : Nat} {bs : List Byte} {b : PadBuf} :
    writePb s a bs = .ok b ↔
      ∃ c, s.pb = some c ∧ a + bs.length ≤ c.size ∧ b = { c with cells := memPut c.cells a bs } := by
  unfold writePb
  cases h : s.pb with
  | none => simp
  | some c =>
    by_cases hb : a + bs.length ≤ c.size
    · simp [hb, eq_comm]
    · simp [hb]

/-- A byte of `PB` reads without fault exactly when the buffer is allocated, the address exists and the byte
holds a value. -/
theorem readPbByte_ok_iff {s : State} {a : Nat} {x : Byte} :
    readPbByte s a = .ok x ↔ ∃ b, s.pb = some b ∧ a < b.size ∧ memGet b.cells a = some x := by
  unfold readPbByte
  cases h : s.pb with
  | none => simp
  | some b =>
    by_cases hb : a < b.size
    · cases hm : memGet b.cells a <;> simp [hb, hm, valueOf]
    · simp [hb]

/-- A word of `PB` reads without fault exactly when its four bytes do. -/
theorem readPbWord_ok_iff {s : State} {a : Nat} {w : Word} :
    readPbWord s a = .ok w ↔ ∃ b0 b1 b2 b3, readPbByte s a = .ok b0 ∧ readPbByte s (a + 1) = .ok b1 ∧
      readPbByte s (a + 2) = .ok b2 ∧ readPbByte s (a + 3) = .ok b3 ∧ w = be32 b0 b1 b2 b3 := by
  unfold readPbWord
  cases readPbByte s a <;> cases readPbByte s (a + 1) <;> cases readPbByte s (a + 2) <;>
    cases readPbByte s (a + 3) <;> simp [eq_comm]

/-! ## The message space -/

@[simp] theorem msgBytes_length (s : State) (n : Nat) : (msgBytes s n).length = n := by simp [msgBytes]

theorem msgBytes_getElem? (s : State) (n k : Nat) :
    (msgBytes s n)[k]? = if k < n then some (msgByteAt s k) else none := by
  by_cases h : k < n <;> simp [msgBytes, h]

/-- What the core reads from `MSG` depends on `MSG` alone. -/
theorem msgByteAt_congr {s t : State} (h : t.msg = s.msg) : msgByteAt t = msgByteAt s := by
  funext k; simp [msgByteAt, h]

end Sys2Proof.Machine
end

