-- ==== Sys2Proof/Laws/Ops.lean ====
section
/-!
SUPPORT. For each shared operation what it can do, said once: reads that can stop, control transfer, fault
entry, the checks of the port and its replies.
-/

namespace Sys2Proof.Machine

/-! ## Reads that can stop -/

@[simp] theorem orFault_ok {α : Type} (v : α) (k : α → Result) : orFault (.ok v) k = k v := rfl
@[simp] theorem orFault_error {α : Type} (f : Fault) (k : α → Result) : orFault (.error f) k = .fault f := rfl

/-- A step that reads first answers a next state only through the value read. -/
theorem orFault_next_iff {α : Type} {r : Except Fault α} {k : α → Result} {t : State} :
    orFault r k = .next t ↔ ∃ v, r = .ok v ∧ k v = .next t := by
  cases r <;> simp

theorem orFault_not_refused {α : Type} {r : Except Fault α} {k : α → Result} {e : Refusal}
    (h : ∀ v, k v ≠ .refused e) : orFault r k ≠ .refused e := by
  cases r with
  | ok v => exact h v
  | error f => simp

theorem valueOf_ok_iff {α : Type} {e : Element} {o : Option α} {v : α} : valueOf e o = .ok v ↔ o = some v := by
  cases o <;> simp [valueOf]

theorem readRegs_ok_iff {s : State} {r : WorkRegs} : readRegs s = .ok r ↔ s.regs = some r := valueOf_ok_iff
theorem readHash_ok_iff {s : State} {h : Words8} : readHash s = .ok h ↔ s.hash = some h := valueOf_ok_iff
theorem readNblk_ok_iff {s : State} {n : Quad} : readNblk s = .ok n ↔ s.nblk = some n := valueOf_ok_iff

theorem readPlen_ok_iff {s : State} {p : Nat} : readPlen s = .ok p ↔ ∃ v, s.plen = some v ∧ p = v.toNat := by
  unfold readPlen
  cases s.plen <;> simp [valueOf, Except.map, eq_comm]

theorem readSched_ok_iff {s : State} {j : Nat} {x : Word} : readSched s j = .ok x ↔ s.sched[j]? = some (some x) := by
  unfold readSched
  rw [valueOf_ok_iff]
  cases s.sched[j]? <;> simp

/-- `W[j]` reads as written; every other word is as before. -/
theorem readSched_writeSched (s : State) (i j : Nat) (x : Word) :
    readSched (writeSched j x s) i = if i = j ∧ j < 64 then .ok x else readSched s i := by
  unfold readSched writeSched
  simp only [State.setSched_sched, Vector.getElem?_setIfInBounds]
  by_cases h : j = i
  · subst h
    by_cases hj : j < 64
    · simp [hj, valueOf]
    · simp [hj]
  · simp [h, show ¬ i = j from fun e => h e.symm]

/-- After `W <- unspecified` no word reads. -/
theorem readSched_dropSched (s : State) (j : Nat) : readSched (dropSched s) j = .error (.noValue (.sched j)) := by
  unfold readSched dropSched
  by_cases h : j < 64 <;> simp [h, valueOf]

/-! ## Projections of the named operations -/

section
variable (s : State) (p : Phase) (i : Quad) (j : BitVec 7)
@[simp] theorem goTo_regs : (goTo p i j s).regs = s.regs := rfl
@[simp] theorem goTo_hash : (goTo p i j s).hash = s.hash := rfl
@[simp] theorem goTo_sched : (goTo p i j s).sched = s.sched := rfl
@[simp] theorem goTo_pb : (goTo p i j s).pb = s.pb := rfl
@[simp] theorem goTo_plen : (goTo p i j s).plen = s.plen := rfl
@[simp] theorem goTo_nblk : (goTo p i j s).nblk = s.nblk := rfl
@[simp] theorem goTo_len : (goTo p i j s).len = s.len := rfl
@[simp] theorem goTo_seq : (goTo p i j s).seq = ⟨p, i, j⟩ := rfl
@[simp] theorem goTo_status : (goTo p i j s).status = s.status := rfl
@[simp] theorem goTo_msg : (goTo p i j s).msg = s.msg := rfl
@[simp] theorem goTo_maxBlocks : (goTo p i j s).maxBlocks = s.maxBlocks := rfl
@[simp] theorem goTo_rdata : (goTo p i j s).rdata = s.rdata := rfl
@[simp] theorem goTo_freeCtr : (goTo p i j s).freeCtr = s.freeCtr := rfl
@[simp] theorem goTo_inputs : (goTo p i j s).inputs = s.inputs := rfl
end

/-! ## Fault entry (R280) -/

theorem raise_of_err {s : State} (h : s.status.err = true) (c : Cause) : raise c s = s := by simp [raise, h]

/-- All of fault entry: what it records and what it drops. -/
theorem raise_of_not_err {s : State} (h : s.status.err = false) (c : Cause) :
    raise c s = dropResults (goTo .idle s.seq.blk 0 (s.setStatus (faultFlags c s.seq.phase))) := by simp [raise, h]

@[simp] theorem raise_len (c : Cause) (s : State) : (raise c s).len = s.len := by unfold raise; split <;> rfl
@[simp] theorem raise_msg (c : Cause) (s : State) : (raise c s).msg = s.msg := by unfold raise; split <;> rfl
@[simp] theorem raise_maxBlocks (c : Cause) (s : State) : (raise c s).maxBlocks = s.maxBlocks := by
  unfold raise; split <;> rfl
@[simp] theorem raise_inputs (c : Cause) (s : State) : (raise c s).inputs = s.inputs := by unfold raise; split <;> rfl
@[simp] theorem raise_rdata (c : Cause) (s : State) : (raise c s).rdata = s.rdata := by unfold raise; split <;> rfl
@[simp] theorem raise_freeCtr (c : Cause) (s : State) : (raise c s).freeCtr = s.freeCtr := by
  unfold raise; split <;> rfl

/-- Fault entry always ends in the fault state. -/
@[simp] theorem raise_err (c : Cause) (s : State) : (raise c s).status.err = true := by
  unfold raise; split
  · assumption
  · rfl

/-! ## Replies: they change the port's outputs alone -/

section
variable (s : State) (b : Bool)
@[simp] theorem replyUnperformed_regs : (replyUnperformed b s).regs = s.regs := by cases b <;> rfl
@[simp] theorem replyUnperformed_hash : (replyUnperformed b s).hash = s.hash := by cases b <;> rfl
@[simp] theorem replyUnperformed_sched : (replyUnperformed b s).sched = s.sched := by cases b <;> rfl
@[simp] theorem replyUnperformed_pb : (replyUnperformed b s).pb = s.pb := by cases b <;> rfl
@[simp] theorem replyUnperformed_plen : (replyUnperformed b s).plen = s.plen := by cases b <;> rfl
@[simp] theorem replyUnperformed_nblk : (replyUnperformed b s).nblk = s.nblk := by cases b <;> rfl
@[simp] theorem replyUnperformed_len : (replyUnperformed b s).len = s.len := by cases b <;> rfl
@[simp] theorem replyUnperformed_seq : (replyUnperformed b s).seq = s.seq := by cases b <;> rfl
@[simp] theorem replyUnperformed_status : (replyUnperformed b s).status = s.status := by cases b <;> rfl
@[simp] theorem replyUnperformed_msg : (replyUnperformed b s).msg = s.msg := by cases b <;> rfl
@[simp] theorem replyUnperformed_maxBlocks : (replyUnperformed b s).maxBlocks = s.maxBlocks := by cases b <;> rfl
@[simp] theorem replyUnperformed_inputs : (replyUnperformed b s).inputs = s.inputs := by cases b <;> rfl
end

/-! ## The checks of the port (R240), one case lemma each -/

/-- A control write: nothing in the fault state, a busy violation during a run, else its effect. -/
theorem controlWrite_cases (k : State → State) (s : State) :
    (s.status.err = true ∧ controlWrite k s = .next (replyNone s)) ∨
    (s.status.err = false ∧ s.status.busy = true ∧
      controlWrite k s = .next (replyNone (raise .busyViolation s))) ∨
    (s.status.err = false ∧ s.status.busy = false ∧ controlWrite k s = .next (replyNone (k s))) := by
  unfold controlWrite unlessBusy
  cases he : s.status.err <;> cases hb : s.status.busy <;> simp [replyUnperformed]

/-- A read of a result: nothing in the fault state, a busy violation during a run, an illegal access without a
result, else the read. -/
theorem resultRead_cases (k : State → Result) (s : State) :
    (s.status.err = true ∧ resultRead k s = .next (replyFree s)) ∨
    (s.status.err = false ∧ s.status.busy = true ∧
      resultRead k s = .next (replyFree (raise .busyViolation s))) ∨
    (s.status.err = false ∧ s.status.busy = false ∧ s.status.done = false ∧
      resultRead k s = .next (replyFree (raise .illegalAccess s))) ∨
    (s.status.err = false ∧ s.status.busy = false ∧ s.status.done = true ∧ resultRead k s = k s) := by
  unfold resultRead unlessBusy whenDone
  cases he : s.status.err <;> cases hb : s.status.busy <;> cases hd : s.status.done <;> simp [replyUnperformed]

/-- An illegal word: nothing in the fault state, else fault entry. -/
theorem illegalWord_cases (b : Bool) (c : Cause) (s : State) :
    (s.status.err = true ∧ illegalWord b c s = replyUnperformed b s) ∨
    (s.status.err = false ∧ illegalWord b c s = replyUnperformed b (raise c s)) := by
  unfold illegalWord unlessFaulted
  cases s.status.err <;> simp

/-! ## What each meaning can do, said once -/

theorem execStart_cases (s : State) :
    (s.status.err = true ∧ execStart s = .next (replyNone s)) ∨
    (s.status.err = false ∧ s.status.busy = true ∧ execStart s = .next (replyNone (raise .busyViolation s))) ∨
    (s.status.err = false ∧ s.status.busy = false ∧ execStart s = .next (replyNone (startRun s))) :=
  controlWrite_cases _ s

theorem execWrlen_cases (v : Quad) (s : State) :
    (s.status.err = true ∧ execWrlen v s = .next (replyNone s)) ∨
    (s.status.err = false ∧ s.status.busy = true ∧ execWrlen v s = .next (replyNone (raise .busyViolation s))) ∨
    (s.status.err = false ∧ s.status.busy = false ∧ execWrlen v s = .next (replyNone (s.setLen v))) :=
  controlWrite_cases _ s

theorem execPzero_next {s t : State} (h : execPzero s = .next t) :
    ∃ nb, s.nblk = some nb ∧
      ((overCapacity s.maxBlocks nb.toNat = true ∧ t = raise .allocation s) ∨
       (overCapacity s.maxBlocks nb.toNat = false ∧ ∃ p, s.plen = some p ∧
          t = goTo .pcopy 0 0 (s.setPb (some (allocZeroed s.len.toNat p.toNat))))) := by
  obtain ⟨nb, hn, h⟩ := orFault_next_iff.1 h
  refine ⟨nb, readNblk_ok_iff.1 hn, ?_⟩
  cases hc : overCapacity s.maxBlocks nb.toNat
  · rw [hc] at h
    obtain ⟨p, hp, h⟩ := orFault_next_iff.1 h
    obtain ⟨v, hv, rfl⟩ := readPlen_ok_iff.1 hp
    cases h
    exact .inr ⟨rfl, v, hv, rfl⟩
  · rw [hc] at h
    cases h
    exact .inl ⟨rfl, rfl⟩

theorem execWld_next {t : BitVec 7} {blk : Quad} {s s' : State} (h : execWld t blk s = .next s') :
    t.toNat ≤ 15 ∧ ∃ x, readPbWord s (blockWordAddr blk.toNat t.toNat) = .ok x ∧
      s' = afterWld t blk (writeSched t.toNat x s) := by
  unfold execWld at h
  split at h
  · obtain ⟨x, hx, h⟩ := orFault_next_iff.1 h
    cases h
    exact ⟨‹_›, x, hx, rfl⟩
  · cases h

theorem execWex_next {j : BitVec 7} {blk : Quad} {s s' : State} (h : execWex j blk s = .next s') :
    (16 ≤ j.toNat ∧ j.toNat ≤ 63) ∧ ∃ w16 w15 w7 w2, readSched s (j.toNat - 16) = .ok w16 ∧
      readSched s (j.toNat - 15) = .ok w15 ∧ readSched s (j.toNat - 7) = .ok w7 ∧
      readSched s (j.toNat - 2) = .ok w2 ∧
      s' = afterWex j blk (writeSched j.toNat (schedNext w16 w15 w7 w2) s) := by
  unfold execWex at h
  split at h
  · obtain ⟨w16, h16, h⟩ := orFault_next_iff.1 h
    obtain ⟨w15, h15, h⟩ := orFault_next_iff.1 h
    obtain ⟨w7, h7, h⟩ := orFault_next_iff.1 h
    obtain ⟨w2, h2, h⟩ := orFault_next_iff.1 h
    cases h
    exact ⟨‹_›, w16, w15, w7, w2, h16, h15, h7, h2, rfl⟩
  · cases h

theorem execRld_next {blk : Quad} {s s' : State} (h : execRld blk s = .next s') :
    ∃ v, s.hash = some v ∧ s' = goTo .rnd blk 0 (s.setRegs (some (loadRegs v))) := by
  obtain ⟨v, hv, h⟩ := orFault_next_iff.1 h
  cases h
  exact ⟨v, readHash_ok_iff.1 hv, rfl⟩

theorem execRnd_next {j : BitVec 7} {blk : Quad} {s s' : State} (h : execRnd j blk s = .next s') :
    j.toNat ≤ 63 ∧ ∃ r w, s.regs = some r ∧ readSched s j.toNat = .ok w ∧
      s' = afterRnd j blk (s.setRegs (some (roundFn r (kConst j.toNat) w))) := by
  unfold execRnd at h
  split at h
  · obtain ⟨r, hr, h⟩ := orFault_next_iff.1 h
    obtain ⟨w, hw, h⟩ := orFault_next_iff.1 h
    cases h
    exact ⟨‹_›, r, w, readRegs_ok_iff.1 hr, hw, rfl⟩
  · cases h

theorem execFfw_next {blk : Quad} {s s' : State} (h : execFfw blk s = .next s') :
    ∃ v r nb, s.hash = some v ∧ s.regs = some r ∧ s.nblk = some nb ∧
      ((blk.toNat + 1 < nb.toNat ∧
          s' = goTo .wld (blk + 1) 0 (dropSched (s.setHash (some (feedForward v r))))) ∨
       (blk.toNat + 1 = nb.toNat ∧
          s' = goTo .emit (blk + 1) 0 (dropSched (s.setHash (some (feedForward v r)))))) := by
  obtain ⟨v, hv, h⟩ := orFault_next_iff.1 h
  obtain ⟨r, hr, h⟩ := orFault_next_iff.1 h
  obtain ⟨nb, hn, h⟩ := orFault_next_iff.1 h
  refine ⟨v, r, nb, readHash_ok_iff.1 hv, readRegs_ok_iff.1 hr, readNblk_ok_iff.1 hn, ?_⟩
  split at h
  · cases h; exact .inl ⟨‹_›, rfl⟩
  · split at h
    · cases h; exact .inr ⟨‹_›, rfl⟩
    · cases h

theorem execChk_next {s t : State} (h : execChk s = .next t) :
    (s.len.toNat = 0 ∧ t = raise .emptyMessage s) ∨ (2 ^ 61 ≤ s.len.toNat ∧ t = raise .lengthOverflow s) ∨
    (1 ≤ s.len.toNat ∧ s.len.toNat < 2 ^ 61 ∧ t = goTo .plen 0 0 s) := by
  unfold execChk at h
  split at h
  · rename_i h0; cases h; exact .inl ⟨by rw [h0]; rfl, rfl⟩
  · rename_i h0
    have : s.len.toNat ≠ 0 := fun e => h0 (BitVec.eq_of_toNat_eq e)
    split at h
    · cases h; exact .inr (.inl ⟨by omega, rfl⟩)
    · cases h; exact .inr (.inr ⟨by omega, by omega, rfl⟩)

/-- A write into `PB` followed by a move of the sequencer: what it can do. -/
theorem writePb_next {s t : State} {a : Nat} {bs : List Byte} {p : Phase}
    (h : (orFault (writePb s a bs) fun b => .next (goTo p 0 0 (s.setPb (some b)))) = .next t) :
    ∃ b, s.pb = some b ∧ a + bs.length ≤ b.size ∧
      t = goTo p 0 0 (s.setPb (some { b with cells := memPut b.cells a bs })) := by
  obtain ⟨c, hc, h⟩ := orFault_next_iff.1 h
  obtain ⟨b, hb, hl, rfl⟩ := writePb_ok_iff.1 hc
  cases h
  exact ⟨b, hb, hl, rfl⟩

theorem execPcopy_next {s t : State} (h : execPcopy s = .next t) :
    ∃ b, s.pb = some b ∧ s.len.toNat ≤ b.size ∧
      t = goTo .pterm 0 0 (s.setPb (some { b with cells := memPut b.cells 0 (msgBytes s s.len.toNat) })) := by
  obtain ⟨b, hb, hl, rfl⟩ := writePb_next h
  exact ⟨b, hb, by simpa using hl, rfl⟩

theorem execPterm_next {s t : State} (h : execPterm s = .next t) :
    ∃ b, s.pb = some b ∧ s.len.toNat < b.size ∧
      t = goTo .plenw 0 0 (s.setPb (some { b with cells := memPut b.cells s.len.toNat [0x80#8] })) := by
  obtain ⟨b, hb, hl, rfl⟩ := writePb_next h
  exact ⟨b, hb, by simpa using hl, rfl⟩

theorem execPlenw_next {s t : State} (h : execPlenw s = .next t) :
    ∃ p b, s.plen = some p ∧ s.pb = some b ∧ 8 ≤ p.toNat ∧ p.toNat ≤ b.size ∧
      t = goTo .pseg 0 0 (s.setPb (some ⟨b.size, memPut b.cells (p.toNat - 8) (be64 (lengthField s.len.toNat))⟩)) := by
  obtain ⟨q, hq, h⟩ := orFault_next_iff.1 h
  obtain ⟨p, hp, rfl⟩ := readPlen_ok_iff.1 hq
  split at h
  · cases h
  · obtain ⟨b, hb, hl, rfl⟩ := writePb_next h
    have : (be64 (lengthField s.len.toNat)).length = 8 := rfl
    exact ⟨p, b, hp, hb, by omega, by omega, rfl⟩

theorem execPseg_next {s t : State} (h : execPseg s = .next t) :
    ∃ p nb, s.plen = some p ∧ s.nblk = some nb ∧
      (((p.toNat % 64 ≠ 0 ∨ nb.toNat * 64 ≠ p.toNat ∨ nb.toNat < 1) ∧ t = raise .blockCount s) ∨
       (p.toNat % 64 = 0 ∧ nb.toNat * 64 = p.toNat ∧ 1 ≤ nb.toNat ∧ t = goTo .hinit 0 0 s)) := by
  obtain ⟨q, hq, h⟩ := orFault_next_iff.1 h
  obtain ⟨p, hp, rfl⟩ := readPlen_ok_iff.1 hq
  obtain ⟨nb, hn, h⟩ := orFault_next_iff.1 h
  refine ⟨p, nb, hp, readNblk_ok_iff.1 hn, ?_⟩
  split at h
  · cases h; exact .inl ⟨‹_›, rfl⟩
  · cases h; exact .inr ⟨by omega, by omega, by omega, rfl⟩

theorem execRdnblk_next {s t : State} (h : execRdnblk s = .next t) :
    (s.status.err = true ∧ t = replyFree s) ∨
    (s.status.err = false ∧ s.status.busy = true ∧ t = replyFree (raise .busyViolation s)) ∨
    (s.status.err = false ∧ s.status.busy = false ∧ s.status.done = false ∧ t = replyFree (raise .illegalAccess s)) ∨
    (s.status.err = false ∧ s.status.busy = false ∧ s.status.done = true ∧
      ∃ n, s.nblk = some n ∧ t = replyWith n s) := by
  obtain ⟨he, e⟩ | ⟨he, hb, e⟩ | ⟨he, hb, hd, e⟩ | ⟨he, hb, hd, e⟩ :=
    resultRead_cases (fun s => orFault (readNblk s) fun n => .next (replyWith n s)) s <;>
    rw [execRdnblk, e] at h
  · cases h; exact .inl ⟨he, rfl⟩
  · cases h; exact .inr (.inl ⟨he, hb, rfl⟩)
  · cases h; exact .inr (.inr (.inl ⟨he, hb, hd, rfl⟩))
  · obtain ⟨n, hn, h⟩ := orFault_next_iff.1 h
    cases h
    exact .inr (.inr (.inr ⟨he, hb, hd, n, readNblk_ok_iff.1 hn, rfl⟩))

theorem execRddig_next {k : BitVec 3} {s t : State} (h : execRddig k s = .next t) :
    (s.status.err = true ∧ t = replyFree s) ∨
    (s.status.err = false ∧ s.status.busy = true ∧ t = replyFree (raise .busyViolation s)) ∨
    (s.status.err = false ∧ s.status.busy = false ∧ s.status.done = false ∧ t = replyFree (raise .illegalAccess s)) ∨
    (s.status.err = false ∧ s.status.busy = false ∧ s.status.done = true ∧
      ∃ v : Words8, s.hash = some v ∧ t = replyWith ((v[k.toNat]).setWidth 64) s) := by
  obtain ⟨he, e⟩ | ⟨he, hb, e⟩ | ⟨he, hb, hd, e⟩ | ⟨he, hb, hd, e⟩ :=
    resultRead_cases (fun s => orFault (readHash s) fun v => .next (replyWith ((v[k.toNat]).setWidth 64) s)) s <;>
    rw [execRddig, e] at h
  · cases h; exact .inl ⟨he, rfl⟩
  · cases h; exact .inr (.inl ⟨he, hb, rfl⟩)
  · cases h; exact .inr (.inr (.inl ⟨he, hb, hd, rfl⟩))
  · obtain ⟨v, hv, h⟩ := orFault_next_iff.1 h
    cases h
    exact .inr (.inr (.inr ⟨he, hb, hd, v, readHash_ok_iff.1 hv, rfl⟩))

/-- A host write of `MSG` that answers: the bytes land, and it touches no message of a run in progress. -/
theorem hostWriteMsg_next {a : Quad} {bs : List Byte} {s t : State} (h : hostWriteMsg a bs s = .next t) :
    t = s.setMsg (memPut s.msg a.toNat bs) ∧ a.toNat + bs.length ≤ 2 ^ 64 ∧
      (s.status.busy = false ∨ bs = [] ∨ s.len.toNat ≤ a.toNat) := by
  unfold hostWriteMsg touchesMessage at h
  split at h
  · cases h
  · rename_i hc
    split at h
    · cases h
      refine ⟨rfl, ‹_›, ?_⟩
      cases hb : s.status.busy
      · exact .inl rfl
      · refine .inr ?_
        cases bs with
        | nil => exact .inl rfl
        | cons b bs => simp [hb] at hc; exact .inr hc
    · cases h

/-! ## Lengths -/

/-- `P = 64 * ceil((L + 9) / 64)` (R142). -/
theorem padLen_eq (l : Nat) : padLen l = 64 * ((l + 9 + 63) / 64) := by unfold padLen zeroBytes; omega

/-- `NB = ceil((L + 9) / 64)` (R143). -/
theorem blockCount_eq (l : Nat) : blockCount l = (l + 9 + 63) / 64 := by unfold blockCount; rw [padLen_eq]; omega

theorem padLen_eq_blocks (l : Nat) : padLen l = 64 * blockCount l := by rw [padLen_eq, blockCount_eq]

theorem padLen_room (l : Nat) : l + 9 ≤ padLen l := by unfold padLen; omega

theorem blockCount_pos (l : Nat) : 1 ≤ blockCount l := by rw [blockCount_eq]; omega

/-- Both counts of a legal length fit 64 bits (R29). -/
theorem padLen_lt {l : Nat} (h : l < 2 ^ 61) : padLen l < 2 ^ 64 ∧ blockCount l < 2 ^ 64 := by
  rw [padLen_eq, blockCount_eq]; omega

theorem plenValue_of_lt {l : Nat} (h : l < 2 ^ 61) : plenValue l = BitVec.ofNat 64 (padLen l) := by
  rw [plenValue, if_pos (padLen_lt h).1]

end Sys2Proof.Machine
end

