-- ==== Sys2Proof/Laws/Algorithm.lean ====
section
/-!
SUPPORT. The run as one function: the words of a schedule, and that padding, schedule and hash depend on the
first `L` bytes of the message alone. (`Sched` is a closed term that unfolds for ever: cite these, do not let a
unifier evaluate it; take equations between its values apart with `injection`, not with `cases`.)
-/

namespace Sys2Proof.Machine

/-! ## The schedule (R173) -/

theorem extendSched_length (n : Nat) (ws : List Word) : (extendSched n ws).length = ws.length + n := by
  induction n generalizing ws with
  | zero => rfl
  | succ n ih => rw [extendSched, ih]; simp; omega

/-- Extending keeps the words that are there. -/
theorem extendSched_getD_of_lt (n : Nat) (ws : List Word) {i : Nat} (h : i < ws.length) :
    (extendSched n ws).getD i 0 = ws.getD i 0 := by
  induction n generalizing ws with
  | zero => rfl
  | succ n ih =>
    rw [extendSched, ih _ (by simp; omega)]
    simp [List.getD, List.getElem?_append_left h]

/-- Every added word obeys the recurrence. -/
theorem extendSched_getD_of_ge (n : Nat) (ws : List Word) {j : Nat} (h16 : 16 ≤ ws.length) (h1 : ws.length ≤ j)
    (h2 : j < ws.length + n) :
    (extendSched n ws).getD j 0 = schedNext ((extendSched n ws).getD (j - 16) 0)
      ((extendSched n ws).getD (j - 15) 0) ((extendSched n ws).getD (j - 7) 0) ((extendSched n ws).getD (j - 2) 0) := by
  induction n generalizing ws with
  | zero => omega
  | succ n ih =>
    rw [extendSched]
    by_cases hj : j = ws.length
    · subst hj
      have old (i : Nat) (hi : i < ws.length) : (extendSched n (ws ++ [nextSched ws])).getD i 0 = ws.getD i 0 := by
        rw [extendSched_getD_of_lt _ _ (by simp; omega)]
        simp [List.getD, List.getElem?_append_left hi]
      rw [extendSched_getD_of_lt _ _ (i := ws.length) (by simp), old _ (by omega), old _ (by omega), old _ (by omega),
        old _ (by omega)]
      simp [List.getD, nextSched]
    · exact ih _ (by simp; omega) (by simp; omega) (by simp; omega)

theorem schedOf_length (b : Nat → Byte) : (schedOf b).length = 64 := by simp [schedOf, extendSched_length]

theorem schedOf_getD_of_lt (b : Nat → Byte) {t : Nat} (h : t < 16) : (schedOf b).getD t 0 = blockWord b t := by
  rw [schedOf, extendSched_getD_of_lt _ _ (by simpa using h)]
  simp [List.getD, h]

theorem schedOf_getD_of_ge (b : Nat → Byte) {j : Nat} (h : 16 ≤ j) (h' : j ≤ 63) :
    (schedOf b).getD j 0 = schedNext ((schedOf b).getD (j - 16) 0) ((schedOf b).getD (j - 15) 0)
      ((schedOf b).getD (j - 7) 0) ((schedOf b).getD (j - 2) 0) :=
  extendSched_getD_of_ge 48 _ (by simp) (by simpa using h) (by simp; omega)

/-! ## Dependence on the message alone -/

section
variable {m m' : Nat → Byte} {l : Nat} (h : ∀ k, k < l → m k = m' k)
include h

theorem padByte_congr : padByte m l = padByte m' l := by
  funext k
  unfold padByte
  split
  · exact h k ‹_›
  · rfl

theorem blockByte_congr : blockByte m l = blockByte m' l := by
  funext i k
  unfold blockByte
  rw [padByte_congr h]

theorem hashBlocks_congr (n : Nat) : hashBlocks m l n = hashBlocks m' l n := by
  induction n with
  | zero => rfl
  | succ n ih => rw [hashBlocks, hashBlocks, ih, blockByte_congr h]

theorem hashMsg_congr : hashMsg m l = hashMsg m' l := hashBlocks_congr h _

theorem stagedByte_congr (c k : Nat) : stagedByte c m l k = stagedByte c m' l k := by
  unfold stagedByte
  rw [padByte_congr h]
  by_cases hk : k < l
  · simp [hk, h k hk]
  · simp [hk]
end

/-- From PSEG on the buffer holds the closed form of R144. -/
theorem stagedByte_of_ge {c : Nat} (h : 7 ≤ c) (m : Nat → Byte) (l k : Nat) :
    stagedByte c m l k = some (padByte m l k) := by
  unfold stagedByte
  rw [if_neg (by omega), if_neg (by omega), if_neg (by omega)]

/-! ## Writes into the buffer keep what is filled -/

theorem filledFrom_memPut {b : PadBuf} {start n : Nat} (h : filledFrom b start) (hn : b.size = n) (a : Nat)
    (bs : List Byte) : filledFrom ⟨n, memPut b.cells a bs⟩ start := by
  intro k h1 h2
  show (memGet (memPut b.cells a bs) k).isSome = true
  rw [memGet_memPut]
  split
  · rw [List.getElem?_eq_getElem (by omega)]; rfl
  · exact h k h1 (by rw [hn]; exact h2)

/-! ## The place of a phase -/

@[simp] theorem stage_idle : stage .idle = 0 := rfl
@[simp] theorem stage_chk : stage .chk = 1 := rfl
@[simp] theorem stage_plen : stage .plen = 2 := rfl
@[simp] theorem stage_pzero : stage .pzero = 3 := rfl
@[simp] theorem stage_pcopy : stage .pcopy = 4 := rfl
@[simp] theorem stage_pterm : stage .pterm = 5 := rfl
@[simp] theorem stage_plenw : stage .plenw = 6 := rfl
@[simp] theorem stage_pseg : stage .pseg = 7 := rfl
@[simp] theorem stage_hinit : stage .hinit = 8 := rfl
@[simp] theorem stage_wld : stage .wld = 9 := rfl
@[simp] theorem stage_wex : stage .wex = 10 := rfl
@[simp] theorem stage_rld : stage .rld = 11 := rfl
@[simp] theorem stage_rnd : stage .rnd = 12 := rfl
@[simp] theorem stage_ffw : stage .ffw = 13 := rfl
@[simp] theorem stage_emit : stage .emit = 14 := rfl

end Sys2Proof.Machine
end

