-- ==== Sys2Proof/Laws/Step.lean ====
section
/-!
SUPPORT. What a step can do, said once: a transaction, a sequencer step, a step.
-/

namespace Sys2Proof.Machine

/-- What a transaction can do to the core: nothing; fault entry; an accepted START; an accepted WRLEN. Beside it
only the port's outputs change. -/
theorem exec_transaction_outputs {i : Instr} {s t : State} (hi : isTransaction i = true) (h : exec i s = .next t) :
    ∃ u, t = (u.setRdata t.rdata).setFreeCtr t.freeCtr ∧
      ((u = s ∧ (isPortRead i = true ∨ s.status.err = true)) ∨
       (s.status.err = false ∧ ∃ c, c ≠ .none ∧ u = raise c s) ∨
       (i = .start ∧ Ready s ∧ u = startRun s) ∨ ∃ v, i = .wrlen v ∧ Ready s ∧ u = s.setLen v) := by
  have ill (b : Bool) (c : Cause) (hc : c ≠ .none) (hr : b = isPortRead i)
      (h : Host.Outcome.next (illegalWord b c s) = (.next t : Result)) :
      ∃ u, t = (u.setRdata t.rdata).setFreeCtr t.freeCtr ∧
        ((u = s ∧ (isPortRead i = true ∨ s.status.err = true)) ∨
         (s.status.err = false ∧ ∃ c, c ≠ .none ∧ u = raise c s) ∨
         (i = .start ∧ Ready s ∧ u = startRun s) ∨ ∃ v, i = .wrlen v ∧ Ready s ∧ u = s.setLen v) := by
    obtain ⟨he, e⟩ | ⟨he, e⟩ := illegalWord_cases b c s <;> rw [e] at h <;> cases h
    · cases b
      · exact ⟨s, rfl, .inl ⟨rfl, .inr he⟩⟩
      · exact ⟨s, rfl, .inl ⟨rfl, .inr he⟩⟩
    · cases b
      · exact ⟨raise c s, rfl, .inr (.inl ⟨he, c, hc, rfl⟩)⟩
      · exact ⟨raise c s, rfl, .inr (.inl ⟨he, c, hc, rfl⟩)⟩
  cases i with
  | start =>
    obtain ⟨he, e⟩ | ⟨he, hb, e⟩ | ⟨he, hb, e⟩ := execStart_cases s <;> rw [exec, e] at h <;> cases h
    · exact ⟨s, rfl, .inl ⟨rfl, .inr he⟩⟩
    · exact ⟨raise .busyViolation s, rfl, .inr (.inl ⟨he, .busyViolation, by decide, rfl⟩)⟩
    · exact ⟨startRun s, rfl, .inr (.inr (.inl ⟨rfl, ⟨hb, he⟩, rfl⟩))⟩
  | wrlen v =>
    obtain ⟨he, e⟩ | ⟨he, hb, e⟩ | ⟨he, hb, e⟩ := execWrlen_cases v s <;> rw [exec, e] at h <;> cases h
    · exact ⟨s, rfl, .inl ⟨rfl, .inr he⟩⟩
    · exact ⟨raise .busyViolation s, rfl, .inr (.inl ⟨he, .busyViolation, by decide, rfl⟩)⟩
    · exact ⟨s.setLen v, rfl, .inr (.inr (.inr ⟨v, rfl, ⟨hb, he⟩, rfl⟩))⟩
  | rdstatus => cases h; exact ⟨s, rfl, .inl ⟨rfl, .inl rfl⟩⟩
  | rdlen =>
    simp only [exec, execRdlen, unlessFaulted] at h
    split at h <;> cases h <;> exact ⟨s, rfl, .inl ⟨rfl, .inl rfl⟩⟩
  | rdnblk =>
    obtain ⟨-, rfl⟩ | ⟨he, -, rfl⟩ | ⟨he, -, -, rfl⟩ | ⟨-, -, -, n, -, rfl⟩ := execRdnblk_next h
    · exact ⟨s, rfl, .inl ⟨rfl, .inl rfl⟩⟩
    · exact ⟨raise .busyViolation s, rfl, .inr (.inl ⟨he, .busyViolation, by decide, rfl⟩)⟩
    · exact ⟨raise .illegalAccess s, rfl, .inr (.inl ⟨he, .illegalAccess, by decide, rfl⟩)⟩
    · exact ⟨s, rfl, .inl ⟨rfl, .inl rfl⟩⟩
  | rddig k =>
    obtain ⟨-, rfl⟩ | ⟨he, -, rfl⟩ | ⟨he, -, -, rfl⟩ | ⟨-, -, -, n, -, rfl⟩ := execRddig_next h
    · exact ⟨s, rfl, .inl ⟨rfl, .inl rfl⟩⟩
    · exact ⟨raise .busyViolation s, rfl, .inr (.inl ⟨he, .busyViolation, by decide, rfl⟩)⟩
    · exact ⟨raise .illegalAccess s, rfl, .inr (.inl ⟨he, .illegalAccess, by decide, rfl⟩)⟩
    · exact ⟨s, rfl, .inl ⟨rfl, .inl rfl⟩⟩
  | illegalCmd v => exact ill _ _ (by decide) rfl h
  | illegalRdcmd => exact ill _ _ (by decide) rfl h
  | illegalWrstatus v => exact ill _ _ (by decide) rfl h
  | illegalWrnblk v => exact ill _ _ (by decide) rfl h
  | illegalRes4to7 n acc => exact ill _ _ (by decide) rfl h
  | illegalWrdig k v => exact ill _ _ (by decide) rfl h
  | illegalRes16to31 n acc => exact ill _ _ (by decide) rfl h
  | illegalRes32to63 n acc => exact ill _ _ (by decide) rfl h
  | chk _ => cases hi
  | plen _ => cases hi
  | pzero _ => cases hi
  | pcopy _ => cases hi
  | pterm _ => cases hi
  | plenw _ => cases hi
  | pseg _ => cases hi
  | hinit _ => cases hi
  | wld _ _ => cases hi
  | wex _ _ => cases hi
  | rld _ => cases hi
  | rnd _ _ => cases hi
  | ffw _ => cases hi
  | emit _ => cases hi

/-- The same, with the outputs named. -/
theorem exec_transaction_next {i : Instr} {s t : State} (hi : isTransaction i = true) (h : exec i s = .next t) :
    ∃ u r n, t = (u.setRdata r).setFreeCtr n ∧
      ((u = s ∧ (isPortRead i = true ∨ s.status.err = true)) ∨
       (s.status.err = false ∧ ∃ c, c ≠ .none ∧ u = raise c s) ∨
       (i = .start ∧ Ready s ∧ u = startRun s) ∨ ∃ v, i = .wrlen v ∧ Ready s ∧ u = s.setLen v) := by
  obtain ⟨u, e, hu⟩ := exec_transaction_outputs hi h
  exact ⟨u, _, _, e, hu⟩

/-- Every word of the port decodes to a transaction (R87). -/
theorem decodeHost_isTransaction (w : HostWord) : isTransaction (decodeHost w) = true := by
  unfold decodeHost decodeWrite decodeRead
  repeat' split
  all_goals rfl

/-- What a step can do: the sequencer's step, a transaction, bytes written to `MSG`, or reset. -/
theorem step_next {s t : State} (h : step s = .next t) :
    (nextMove s = .pass ∧ seqStep (takeMove s) = .next t) ∨
    (∃ w, nextMove s = .txn w ∧ exec (decodeHost w) (takeMove s) = .next t) ∨
    (∃ a bs, nextMove s = .writeMsg a bs ∧ hostWriteMsg a bs (takeMove s) = .next t) ∨
    (nextMove s = .reset ∧ t = applyReset (takeMove s)) := by
  unfold step at h
  split at h
  · exact .inl ⟨‹_›, h⟩
  · exact .inr (.inl ⟨_, ‹_›, h⟩)
  · exact .inr (.inr (.inl ⟨_, _, ‹_›, h⟩))
  · cases h; exact .inr (.inr (.inr ⟨‹_›, rfl⟩))

/-- What a sequencer step can do: nothing at rest, else the micro-operation of the phase, with its index. -/
theorem seqStep_next {s t : State} (h : seqStep s = .next t) :
    (s.seq.phase = .idle ∧ t = s) ∨ (s.seq.phase = .chk ∧ execChk s = .next t) ∨
    (s.seq.phase = .plen ∧ execPlen s = .next t) ∨ (s.seq.phase = .pzero ∧ execPzero s = .next t) ∨
    (s.seq.phase = .pcopy ∧ execPcopy s = .next t) ∨ (s.seq.phase = .pterm ∧ execPterm s = .next t) ∨
    (s.seq.phase = .plenw ∧ execPlenw s = .next t) ∨ (s.seq.phase = .pseg ∧ execPseg s = .next t) ∨
    (s.seq.phase = .hinit ∧ execHinit s = .next t) ∨
    (s.seq.phase = .wld ∧ execWld s.seq.idx s.seq.blk s = .next t) ∨
    (s.seq.phase = .wex ∧ execWex s.seq.idx s.seq.blk s = .next t) ∨
    (s.seq.phase = .rld ∧ execRld s.seq.blk s = .next t) ∨
    (s.seq.phase = .rnd ∧ execRnd s.seq.idx s.seq.blk s = .next t) ∨
    (s.seq.phase = .ffw ∧ execFfw s.seq.blk s = .next t) ∨ (s.seq.phase = .emit ∧ execEmit s.seq.blk s = .next t) := by
  unfold seqStep fetchSeq decodeSeqFields at h
  cases hp : s.seq.phase <;> simp only [hp, plainMicroOp] at h
  case idle => cases h; exact .inl ⟨rfl, rfl⟩
  case wld => simpa [exec] using h
  case wex => simpa [exec] using h
  case rnd => simpa [exec] using h
  all_goals
    by_cases hx : s.seq.idx = 0
    · simpa [exec, hx] using h
    · rw [if_neg hx] at h; cases h

end Sys2Proof.Machine
end

