-- ==== Sys2Proof/Tests/Slice0.lean ====
section
/-!
SUPPORT. The model's own tests: ill-formed terms, a word for every instruction written out from R81, R82, R86 to
R88, one step each on small states with the values of `spec/95_test_vectors.md`, and the witnesses that the
hypotheses of the statements can be met.
-/

namespace Sys2Proof.Tests

open Sys2Proof Sys2Proof.Machine

/-! ## Helpers -/

/-- The next state of a result, if there is one. -/
def after (r : Result) : Option State :=
  match r with
  | .next s => some s
  | .fault _ => none
  | .refused _ => none

/-- What a result's next state shows at a projection. -/
def seen {α : Type} (f : State → α) (r : Result) : Option α := (after r).map f

/-- The `STATUS` word of a state. -/
def stat (s : State) : BitVec 12 := statusWord s.status

/-- A result that answers without entering the fault state. -/
def goesOn (s : State) (r : Result) : Bool :=
  match r with
  | .next t => t.status.err == s.status.err
  | .fault _ => false
  | .refused _ => false

/-- `s` inside a run, the sequencer about to execute phase `p`. -/
def running (p : Phase) (blk : Quad) (idx : BitVec 7) (s : State) : State :=
  (s.setSeq ⟨p, blk, idx⟩).setStatus ⟨true, false, false, .none, .idle⟩

/-- At rest with a completed run: `NBLK = 1`, the hash state of "abc" (S2). -/
def finished : State :=
  (((State.reset.setStatus ⟨false, true, false, .none, .idle⟩).setHash (some
    #v[0xba7816bf#32, 0x8f01cfea#32, 0x414140de#32, 0x5dae2223#32,
       0xb00361a3#32, 0x96177a9c#32, 0xb410ff61#32, 0xf20015ad#32])).setNblk (some 1)).setLen 3

/-- In the fault state after an illegal command at rest. -/
def faulted : State := State.reset.setStatus ⟨false, false, true, .illegalCommand, .idle⟩

/-- The message "abc" and its length, in a run. -/
def abcRun (p : Phase) (idx : BitVec 7) : State :=
  running p 0 idx ((((State.reset.setMsg [(0, 0x61#8), (1, 0x62#8), (2, 0x63#8)]).setLen 3).setPlen
    (some 64)).setNblk (some 1))

/-- The registers of V-CMP-3, last row. -/
def regsNibbles : WorkRegs :=
  ⟨0x11111111#32, 0x22222222#32, 0x33333333#32, 0x44444444#32, 0x55555555#32, 0x66666666#32, 0x77777777#32, 0x88888888#32⟩

/-- The registers after round 63 of "abc" (V-CMP-2). -/
def regsAbc : WorkRegs :=
  ⟨0x506e3058#32, 0xd39a2165#32, 0x04d24d6c#32, 0xb85e2ce9#32, 0x5ef50f24#32, 0xfb121210#32, 0x948d25b6#32, 0x961f4894#32⟩

/-- A schedule of zeros but for the listed words. -/
def sched (ws : List (Nat × Word)) : Vector (Option Word) 64 :=
  ws.foldl (fun v w => v.setIfInBounds w.1 (some w.2)) (Vector.replicate 64 (some 0#32))

/-- One block of padding for "abc" (V-PAD-3). -/
def abcBuf : PadBuf :=
  ⟨64, cellsFrom 0 ([0x61#8, 0x62#8, 0x63#8, 0x80#8] ++ List.replicate 59 0#8 ++ [0x18#8])⟩

/-! ## WellFormed: an ill-formed term for each check -/

theorem test_wf_start_word_is_no_illegal_command : (Instr.illegalCmd 1).wf = false := by decide
theorem test_wf_res4to7 : (Instr.illegalRes4to7 3 .read).wf = false ∧ (Instr.illegalRes4to7 8 .read).wf = false := by
  decide
theorem test_wf_res16to31 :
    (Instr.illegalRes16to31 15 (.write 0)).wf = false ∧ (Instr.illegalRes16to31 32 .read).wf = false := by decide
theorem test_wf_res32to63 : (Instr.illegalRes32to63 31 .read).wf = false := by decide
theorem test_wf_wld : (Instr.wld 16 0).wf = false := by decide
theorem test_wf_wex : (Instr.wex 15 0).wf = false ∧ (Instr.wex 64 0).wf = false := by decide
theorem test_wf_rnd : (Instr.rnd 64 0).wf = false := by decide

/-! ## Decoding: format HOST, `T = {we, addr, wdata}` (R81, R86, R87) -/

theorem test_decode_start : decode (.host (1#1 ++ 0b000000#6 ++ 1#64)) = .ok .start := by decide
theorem test_decode_wrlen : decode (.host (1#1 ++ 0b000010#6 ++ 0xFEDCBA9876543210#64)) =
    .ok (.wrlen 0xFEDCBA9876543210) := by decide
theorem test_decode_rdstatus : decode (.host (0#1 ++ 0b000001#6 ++ 0xFFFFFFFFFFFFFFFF#64)) = .ok .rdstatus := by decide
theorem test_decode_rdlen : decode (.host (0#1 ++ 0b000010#6 ++ 0x5#64)) = .ok .rdlen := by decide
theorem test_decode_rdnblk : decode (.host (0#1 ++ 0b000011#6 ++ 0x0#64)) = .ok .rdnblk := by decide
theorem test_decode_rddig : decode (.host (0#1 ++ 0b001110#6 ++ 0x1#64)) = .ok (.rddig 6) := by decide
theorem test_decode_illegal_cmd : decode (.host (1#1 ++ 0b000000#6 ++ 0x8000000000000001#64)) =
    .ok (.illegalCmd 0x8000000000000001) := by decide
theorem test_decode_illegal_rdcmd : decode (.host (0#1 ++ 0b000000#6 ++ 1#64)) = .ok .illegalRdcmd := by decide
theorem test_decode_illegal_wrstatus : decode (.host (1#1 ++ 0b000001#6 ++ 7#64)) = .ok (.illegalWrstatus 7) := by decide
theorem test_decode_illegal_wrnblk : decode (.host (1#1 ++ 0b000011#6 ++ 7#64)) = .ok (.illegalWrnblk 7) := by decide
theorem test_decode_illegal_res4to7 :
    decode (.host (0#1 ++ 0b000100#6 ++ 9#64)) = .ok (.illegalRes4to7 4 .read) ∧
    decode (.host (1#1 ++ 0b000111#6 ++ 9#64)) = .ok (.illegalRes4to7 7 (.write 9)) := by decide
theorem test_decode_illegal_wrdig : decode (.host (1#1 ++ 0b001011#6 ++ 9#64)) = .ok (.illegalWrdig 3 9) := by decide
theorem test_decode_illegal_res16to31 :
    decode (.host (1#1 ++ 0b010000#6 ++ 9#64)) = .ok (.illegalRes16to31 16 (.write 9)) ∧
    decode (.host (0#1 ++ 0b011111#6 ++ 9#64)) = .ok (.illegalRes16to31 31 .read) := by decide
theorem test_decode_illegal_res32to63 :
    decode (.host (1#1 ++ 0b100000#6 ++ 9#64)) = .ok (.illegalRes32to63 32 (.write 9)) ∧
    decode (.host (0#1 ++ 0b111111#6 ++ 9#64)) = .ok (.illegalRes32to63 63 .read) := by decide

/-! ## Decoding: format SEQ, `BLK`, `IDX`, `PHASE` (R82, R88; the places: log 13) -/

theorem test_decode_chk : decode (.seq (3#64 ++ 0#7 ++ 0b0001#4)) = .ok (.chk 3) := by decide
theorem test_decode_plen : decode (.seq (0#64 ++ 0#7 ++ 0b0010#4)) = .ok (.plen 0) := by decide
theorem test_decode_pzero : decode (.seq (0#64 ++ 0#7 ++ 0b0011#4)) = .ok (.pzero 0) := by decide
theorem test_decode_pcopy : decode (.seq (0#64 ++ 0#7 ++ 0b0100#4)) = .ok (.pcopy 0) := by decide
theorem test_decode_pterm : decode (.seq (0#64 ++ 0#7 ++ 0b0101#4)) = .ok (.pterm 0) := by decide
theorem test_decode_plenw : decode (.seq (0#64 ++ 0#7 ++ 0b0110#4)) = .ok (.plenw 0) := by decide
theorem test_decode_pseg : decode (.seq (0#64 ++ 0#7 ++ 0b0111#4)) = .ok (.pseg 0) := by decide
theorem test_decode_hinit : decode (.seq (0#64 ++ 0#7 ++ 0b1000#4)) = .ok (.hinit 0) := by decide
theorem test_decode_wld : decode (.seq (5#64 ++ 0b0001111#7 ++ 0b1001#4)) = .ok (.wld 15 5) := by decide
theorem test_decode_wex : decode (.seq (5#64 ++ 0b0111111#7 ++ 0b1010#4)) = .ok (.wex 63 5) := by decide
theorem test_decode_rld : decode (.seq (0x8000000000000000#64 ++ 0#7 ++ 0b1011#4)) = .ok (.rld 0x8000000000000000) := by
  decide
theorem test_decode_rnd : decode (.seq (1#64 ++ 0b0100001#7 ++ 0b1100#4)) = .ok (.rnd 33 1) := by decide
theorem test_decode_ffw : decode (.seq (1#64 ++ 0#7 ++ 0b1101#4)) = .ok (.ffw 1) := by decide
theorem test_decode_emit : decode (.seq (2#64 ++ 0#7 ++ 0b1110#4)) = .ok (.emit 2) := by decide
theorem test_decode_rejects :
    decode (.seq (0#64 ++ 0#7 ++ 0b0000#4)) = .error .idle ∧
    decode (.seq (0#64 ++ 0#7 ++ 0b1111#4)) = .error .reservedPhase ∧
    decode (.seq (0#64 ++ 1#7 ++ 0b1101#4)) = .error .idxNotZero := by decide

/-! ## One step each -/

/-- V-PAD-8: `LEN = 0` and `LEN = 2^61`. -/
theorem test_chk_faults :
    seen stat (step (running .chk 0 0 State.reset)) = some 0x114 ∧
    seen stat (step (running .chk 0 0 (State.reset.setLen 0x2000000000000000))) = some 0x124 := by decide
/-- V-PAD-8: `LEN = 2^61 - 1` passes. -/
theorem test_chk_passes :
    seen (·.seq) (step (running .chk 0 0 (State.reset.setLen 0x1FFFFFFFFFFFFFFF))) = some ⟨.plen, 0, 0⟩ := by decide
/-- V-PAD-1, rows 55 and 56. -/
theorem test_plen_boundary :
    seen (fun t => (t.plen, t.nblk)) (step (running .plen 0 0 (State.reset.setLen 55))) = some (some 64, some 1) ∧
    seen (fun t => (t.plen, t.nblk)) (step (running .plen 0 0 (State.reset.setLen 56))) = some (some 128, some 2) := by
  decide
/-- V-PAD-1, the last row. -/
theorem test_plen_largest :
    seen (fun t => (t.plen, t.nblk)) (step (running .plen 0 0 (State.reset.setLen 0x1FFFFFFFFFFFFFFF))) =
      some (some 2305843009213694016, some 36028797018963969) := by decide
/-- V-PAD-8: 56 bytes with `MAX_BLOCKS = 1`. -/
theorem test_pzero_over_capacity :
    seen stat (step ((running .pzero 0 0 (((State.reset.setLen 56).setPlen (some 128)).setNblk
      (some 2))).setMaxBlocks (some 1))) = some 0x334 := by decide
/-- R147: zeros from offset `L` up, no value before. -/
theorem test_pzero_zeroes_beyond_the_message :
    seen (fun t => [2, 3, 63, 64].map (memGet ((t.pb.map (·.cells)).getD []))) (step (abcRun .pzero 0)) =
      some [none, some 0, some 0, none] := by decide
/-- V-PAD-3, the message bytes. -/
theorem test_pcopy_abc :
    seen (fun t => [0, 1, 2, 3].map (memGet ((t.pb.map (·.cells)).getD [])))
      (step ((abcRun .pcopy 0).setPb (some (allocZeroed 3 64)))) = some [some 0x61, some 0x62, some 0x63, some 0] := by
  decide
/-- V-PAD-3, the terminator. -/
theorem test_pterm_abc :
    seen (fun t => [2, 3, 4].map (memGet ((t.pb.map (·.cells)).getD [])))
      (step ((abcRun .pterm 0).setPb (some (allocZeroed 0 64)))) = some [some 0, some 0x80, some 0] := by decide
/-- V-PAD-3, the length field. -/
theorem test_plenw_abc :
    seen (fun t => [55, 56, 62, 63].map (memGet ((t.pb.map (·.cells)).getD [])))
      (step ((abcRun .plenw 0).setPb (some ⟨64, []⟩))) = some [none, some 0, some 0, some 0x18] := by decide
/-- V-PAD-7, the last row. -/
theorem test_plenw_largest :
    seen (fun t => (t.pb.map (·.cells)).map (·.map (·.2))) (step (running .plenw 0 0 (((State.reset.setLen
      0x1FFFFFFFFFFFFFFF).setPlen (some 2305843009213694016)).setPb (some ⟨2305843009213694016, []⟩)))) =
      some (some [0xff, 0xff, 0xff, 0xff, 0xff, 0xff, 0xff, 0xf8]) := by decide
/-- V-MSG-3, last row: a padded length of 56 is no partition. -/
theorem test_pseg_losing_length : seen stat (step ((abcRun .pseg 0).setPlen (some 56))) = some 0x744 := by decide
theorem test_pseg_passes : seen (·.seq) (step (abcRun .pseg 0)) = some ⟨.hinit, 0, 0⟩ := by decide
/-- V-MSG-2, row HINIT. -/
theorem test_hinit : seen (fun t => t.hash.map (·.toList)) (step (abcRun .hinit 0)) =
    some (some [0x6a09e667, 0xbb67ae85, 0x3c6ef372, 0xa54ff53a, 0x510e527f, 0x9b05688c, 0x1f83d9ab, 0x5be0cd19]) := by
  decide
/-- V-EXP-1, `W[0]` and `W[15]`: big-endian words. -/
theorem test_wld_abc :
    seen (fun t => (t.sched[0], t.seq)) (step ((abcRun .wld 0).setPb (some abcBuf))) =
      some (some 0x61626380, ⟨.wld, 0, 1⟩) ∧
    seen (fun t => (t.sched[15], t.seq)) (step ((abcRun .wld 15).setPb (some abcBuf))) =
      some (some 0x18, ⟨.wex, 0, 16⟩) := by decide
/-- V-EXP-1, worked step `W[31]`: the sum wraps. -/
theorem test_wex_wraps :
    seen (fun t => (t.sched[31], t.seq)) (step ((abcRun .wex 31).setSched
      (sched [(15, 0x18#32), (16, 0x61626380#32), (24, 0xc8215c1a#32), (29, 0xec8726cb#32)]))) =
      some (some 0xd3b7973b, ⟨.wex, 0, 32⟩) := by decide
/-- V-EXP-1, the last word. -/
theorem test_wex_last :
    seen (fun t => (t.sched[63], t.seq)) (step ((abcRun .wex 63).setSched
      (sched [(47, 0x065c43da#32), (48, 0xfb3e89cb#32), (56, 0xef57b9cd#32), (61, 0x668b2ff8#32)]))) =
      some (some 0x12b1edeb, ⟨.rld, 0, 0⟩) := by decide
/-- V-MSG-2: block 1 loads the hash state of block 0, not `IV`; here the hash state of `finished`. -/
theorem test_rld : seen (fun t => t.regs.map (fun r => (r.a, r.h))) (step ((abcRun .rld 0).setHash finished.hash)) =
    some (some (0xba7816bf, 0xf20015ad)) := by decide
/-- V-CMP-1, round 0. -/
theorem test_rnd_first :
    seen (fun t => (t.regs, t.seq)) (step (((abcRun .rnd 0).setRegs (some (loadRegs iv))).setSched
      (sched [(0, 0x61626380#32)]))) =
      some (some ⟨0x5d6aebcd, 0x6a09e667, 0xbb67ae85, 0x3c6ef372, 0xfa2a4622, 0x510e527f, 0x9b05688c, 0x1f83d9ab⟩,
        ⟨.rnd, 0, 1⟩) := by decide
/-- V-CMP-3, the last row, with `K[63]`: the update is simultaneous. -/
theorem test_rnd_last :
    seen (fun t => (t.regs, t.seq)) (step (((abcRun .rnd 63).setRegs (some regsNibbles)).setSched
      (sched [(63, 0xdeadbeef#32)]))) =
      some (some ⟨0xa51f37df, 0x11111111, 0x22222222, 0x33333333, 0x2da7c068, 0x55555555, 0x66666666, 0x77777777⟩,
        ⟨.ffw, 0, 0⟩) := by decide
/-- V-CMP-2. -/
theorem test_ffw_abc :
    seen (fun t => (t.hash, t.seq)) (step (((abcRun .ffw 0).setRegs (some regsAbc)).setHash (some iv))) =
      some (finished.hash, ⟨.emit, 1, 0⟩) := by decide
/-- R193: back to WLD while blocks remain. -/
theorem test_ffw_next_block :
    seen (fun t => (t.seq, t.sched[0])) (step ((((abcRun .ffw 0).setRegs (some regsAbc)).setHash (some iv)).setNblk
      (some 2))) = some (⟨.wld, 1, 0⟩, none) := by decide
/-- P1: the end state of the run. -/
theorem test_emit :
    seen (fun t => (stat t, t.seq, t.nblk)) (step ((running .emit 1 0 finished).setPb (some abcBuf))) =
      some (0x002, ⟨.idle, 1, 0⟩, some 1) ∧
    seen (fun t => (t.pb, t.regs)) (step ((running .emit 1 0 finished).setPb (some abcBuf))) =
      some (none, none) := by decide

/-- P1: START sets BUSY. -/
theorem test_start_accepted :
    seen (fun t => (stat t, t.seq, t.hash, t.nblk)) (step (finished.setInputs [wr 0 1])) =
      some (0x001, ⟨.chk, 0, 0⟩, none, none) := by decide
/-- R248: a START during a run. -/
theorem test_start_while_busy : seen stat (step ((abcRun .pcopy 0).setInputs [wr 0 1])) = some 0x474 := by decide
/-- R242: all 64 bits, `DONE` kept. -/
theorem test_wrlen : seen (fun t => (t.len, stat t)) (step (finished.setInputs [wr 2 0xFFFFFFFFFFFFFFFF])) =
    some (0xFFFFFFFFFFFFFFFF, 0x002) := by decide
/-- R248: the phase is recorded (RND is 0xC). -/
theorem test_wrlen_while_busy :
    seen (fun t => (stat t, t.len)) (step ((abcRun .rnd 5).setInputs [wr 2 9])) = some (0xC74, 3) := by decide
theorem test_rdstatus : seen (·.rdata) (step (faulted.setInputs [rd 1])) = some (some 0x054) := by decide
/-- R248: legal also while busy. -/
theorem test_rdlen : seen (fun t => (t.rdata, stat t)) (step ((abcRun .wld 0).setInputs [rd 2])) =
    some (some 3, 0x001) := by decide
theorem test_rdnblk : seen (·.rdata) (step (finished.setInputs [rd 3])) = some (some 1) := by decide
/-- R245: at rest without a result. -/
theorem test_rdnblk_not_done : seen stat (step (State.reset.setInputs [rd 3])) = some 0x064 := by decide
/-- P1: `rd DIG7`, zero-extended. -/
theorem test_rddig : seen (·.rdata) (step (finished.setInputs [rd 15])) = some (some 0x00000000f20015ad) := by decide
/-- R248. -/
theorem test_rddig_while_busy : seen stat (step ((abcRun .wld 0).setInputs [rd 8])) = some 0x974 := by decide
theorem test_illegal_cmd : seen (fun t => (stat t, t.hash)) (step (finished.setInputs [wr 0 2])) =
    some (0x054, none) := by decide
theorem test_illegal_rdcmd : seen stat (step (finished.setInputs [rd 0])) = some 0x064 := by decide
theorem test_illegal_wrstatus : seen stat (step (finished.setInputs [wr 1 0])) = some 0x064 := by decide
theorem test_illegal_wrnblk : seen stat (step (finished.setInputs [wr 3 0])) = some 0x064 := by decide
theorem test_illegal_res4to7 : seen stat (step (finished.setInputs [wr 4 0])) = some 0x064 := by decide
/-- R248: while busy an illegal word raises its own fault, not `BUSY_VIOLATION`. -/
theorem test_illegal_wrdig_while_busy : seen stat (step ((abcRun .chk 0).setInputs [wr 8 0])) = some 0x164 := by decide
theorem test_illegal_res16to31 : seen stat (step (finished.setInputs [rd 16])) = some 0x064 := by decide
theorem test_illegal_res32to63 : seen stat (step (finished.setInputs [wr 63 0])) = some 0x064 := by decide
/-- R249: in the fault state a START has no effect. -/
theorem test_fault_state_ignores_start : seen (fun t => (stat t, t.seq)) (step (faulted.setInputs [wr 0 1])) =
    some (0x054, ⟨.idle, 0, 0⟩) := by decide
/-- R300: reset clears `ERR`. -/
theorem test_reset_input : seen stat (step (faulted.setInputs [.reset])) = some 0x000 := by decide
/-- R293: at rest nothing happens. -/
theorem test_rest_stays : seen (fun t => (stat t, t.seq)) (step finished) = some (0x002, ⟨.idle, 0, 0⟩) := by decide
/-- R51: the host fills `MSG`; the memory stays sorted. -/
theorem test_msg_write : seen (·.msg) (step ((State.reset.setMsg [(1, 9#8), (7, 7#8)]).setInputs
    [.writeMsg 0 [0x61, 0x62, 0x63]])) = some [(0, 0x61), (1, 0x62), (2, 0x63), (7, 7)] := by decide
/-- R72: no meaning during a run. -/
theorem test_msg_write_during_run :
    step ((abcRun .chk 0).setInputs [.writeMsg 2 [0]]) = .refused .msgWriteDuringRun := by rfl
/-- Every row of format SEQ, placed as the first instruction after reset. -/
theorem test_rows_run_first :
    seen (·.seq) (step (State.reset.withFetchWord 8 0x9)) = some ⟨.wld, 0, 1⟩ ∧
    seen (·.seq) (step (State.reset.withFetchWord 8 0xE)) = some ⟨.idle, 0, 0⟩ ∧
    seen stat (step (State.reset.withFetchWord 72 0x400000000000000001)) = some 0x001 ∧
    seen (·.seq) (step (State.reset.withFetchWord 8 0xC)) = some ⟨.rnd, 0, 1⟩ := by decide

/-! ## Values of the pure functions -/

/-- V-FN-1, V-FN-2. -/
theorem test_word_functions :
    ssig0 0x61626380 = 0x940e90ef ∧ ssig1 0x61626380 = 0x7da86405 ∧ bsig0 0x61626380 = 0x8dd59276 ∧
    bsig1 0x61626380 = 0xc0b865f2 ∧ chFn 0xf0f0f0f0 0xaaaaaaaa 0x55555555 = 0xa5a5a5a5 ∧
    majFn 0x510e527f 0x9b05688c 0x1f83d9ab = 0x1b0758af := by decide
/-- V-FN-3, V-FN-4. -/
theorem test_conversions :
    add32 0xffffffff 1 = 0 ∧ be32 0xff 0 0 1 = 0xff000001 ∧ bytesBE32 0xba7816bf = [0xba, 0x78, 0x16, 0xbf] ∧
    be64 0x7a1200 = [0, 0, 0, 0, 0, 0x7a, 0x12, 0] := by decide
/-- V-PAD-1: the edges of the block count. -/
theorem test_block_count :
    [1, 55, 56, 64, 119, 120, 1000000].map blockCount = [1, 1, 2, 2, 2, 3, 15626] := by decide

/-! ## Witnesses: the hypotheses of each statement can be met, at the edges of its clauses -/

/-- `DecodeInvertsEncode`: the edges of every operand range. -/
theorem witness_decode_inverts_encode :
    ∀ i ∈ [Instr.illegalCmd 0, .illegalCmd 2, .illegalRes4to7 4 .read, .illegalRes4to7 7 (.write 1),
      .illegalRes16to31 16 .read, .illegalRes16to31 31 .read, .illegalRes32to63 32 .read, .illegalRes32to63 63 .read,
      .wld 0 0, .wld 15 0, .wex 16 0, .wex 63 0, .rnd 0 0, .rnd 63 0, .rddig 7, .emit 1], i.wf = true := by decide

/-- `EncodeInvertsDecode`: a sequencer word that decodes, a write, a read with data. -/
theorem witness_encode_inverts_decode :
    decodeSeq (seqWord 0xC 63 1) = .ok (.rnd 63 1) ∧ HostWord.we (hostWord true 0 5) = true ∧
    HostWord.we (hostWord false 63 5) = false := by decide

/-- `StepRunsTheTransaction`. -/
theorem witness_step_runs_the_transaction :
    (finished.setInputs [wr 0 1]).inputs = .txn (hostWord true 0 1) :: [] ∧
    decode (.host (hostWord true 0 1)) = .ok .start := ⟨rfl, by decide⟩

/-- `StepRunsTheMicroOperation`: a running sequencer with an empty list and with a `pass`, and one at rest. -/
theorem witness_step_runs_the_micro_operation :
    (abcRun .rnd 63).inputs = [] ∧ ((abcRun .rnd 63).setInputs [.pass]).inputs = .pass :: [] ∧
    decode (.seq (seqWord (phaseCode (abcRun .rnd 63).seq.phase) (abcRun .rnd 63).seq.idx (abcRun .rnd 63).seq.blk)) =
      .ok (.rnd 63 0) ∧ finished.seq.phase = .idle := ⟨rfl, rfl, by decide, rfl⟩

/-- `ResetInputRestoresEveryElement`: both parts on the fault state. -/
theorem witness_reset_input :
    (faulted.setInputs [.reset]).inputs = .reset :: [] ∧ (faulted.setInputs [.reset]).status.err = true ∧
    seen (·.status.err) (step (faulted.setInputs [.reset])) = some false := ⟨rfl, rfl, by decide⟩

/-- A one-block run in which every element holds a value. -/
def fullRun (p : Phase) (blk : Quad) (idx : BitVec 7) : State := running p blk idx (midRun (State.reset.setLen 3))

/-- `SequencerFollowsTheTable`: every phase answers, at both ends of every index range, and FFW both ways; CHK
and the others also by fault entry. -/
theorem witness_sequencer_follows_the_table :
    (∀ q ∈ [(Phase.idle, (0 : BitVec 7)), (.chk, 0), (.plen, 0), (.pzero, 0), (.pcopy, 0), (.pterm, 0), (.plenw, 0),
      (.pseg, 0), (.hinit, 0), (.wld, 0), (.wld, 14), (.wld, 15)],
      goesOn (fullRun q.1 0 q.2) (seqStep (fullRun q.1 0 q.2)) = true) ∧
    (∀ q ∈ [(Phase.wex, (16 : BitVec 7)), (.wex, 62), (.wex, 63), (.rld, 0), (.rnd, 0), (.rnd, 62), (.rnd, 63),
      (.ffw, 0), (.emit, 0)],
      goesOn (fullRun q.1 0 q.2) (seqStep (fullRun q.1 0 q.2)) = true) ∧
    goesOn ((fullRun .ffw 0 0).setNblk (some 2)) (seqStep ((fullRun .ffw 0 0).setNblk (some 2))) = true ∧
    seen (·.status.err) (seqStep ((fullRun .chk 0 0).setLen 0)) = some true ∧
    (fullRun .chk 0 0).status.err = false := by decide

/-- `RotationAndShiftMoveBits`: both ends of the amount, and of the bit number. -/
theorem witness_rotation_amount :
    (1 ≤ 1 ∧ 1 ≤ 31 ∧ 31 ≤ 31) ∧ 0 < 32 ∧ 31 < 32 ∧ 32 - 31 ≤ 1 ∧ 32 - 1 ≤ 31 := by decide

/-- `MixingFunctionsBitByBit`, `ChoiceAndMajorityBitByBit`: the first and the last bit. -/
theorem witness_bit_number : (0 : Nat) < 32 ∧ 31 < 32 := by decide

/-- `DigestIsBigEndianByWord`: the first and the last byte. -/
theorem witness_digest_byte : ((0 : Nat) < 4 ∧ 0 < 8) ∧ 3 < 4 ∧ 7 < 8 := by decide

/-- `PaddedLengthIsLeast`: a smaller multiple is too small, `P` itself is one. -/
theorem witness_padded_length : 64 ∣ 128 ∧ 56 + 1 + 8 ≤ 128 ∧ padLen 56 = 128 := by decide

/-- `PadderBuildsTheClosedForm`: the shortest and the longest message, and a bounded buffer. -/
theorem witness_padder_builds :
    ((running .chk 0 0 (State.reset.setLen 1)).inputs = [] ∧
      (running .chk 0 0 (State.reset.setLen 1)).seq = ⟨.chk, 0, 0⟩ ∧ 1 ≤ (1 : Quad).toNat ∧ (1 : Quad).toNat < 2 ^ 61) ∧
    (1 ≤ (0x1FFFFFFFFFFFFFFF : Quad).toNat ∧ (0x1FFFFFFFFFFFFFFF : Quad).toNat < 2 ^ 61) ∧
    overCapacity none (blockCount (0x1FFFFFFFFFFFFFFF : Quad).toNat) = false ∧
    overCapacity (some 1) (blockCount 55) = false := by decide

/-- `ChkPassesLegalLengths`: each clause at its edges. -/
theorem witness_chk :
    (State.reset.setLen 0).len.toNat = 0 ∧ 2 ^ 61 ≤ (State.reset.setLen 0x2000000000000000).len.toNat ∧
    2 ^ 61 ≤ (State.reset.setLen 0xFFFFFFFFFFFFFFFF).len.toNat ∧ 1 ≤ (State.reset.setLen 1).len.toNat ∧
    (State.reset.setLen 0x1FFFFFFFFFFFFFFF).len.toNat < 2 ^ 61 ∧ (State.reset.setLen 1).len.toNat < 2 ^ 61 ∧
    1 ≤ (State.reset.setLen 0x1FFFFFFFFFFFFFFF).len.toNat := by decide

/-- `PlenComputesBothCounts`. -/
theorem witness_plen : (State.reset.setLen 0x1FFFFFFFFFFFFFFF).len.toNat < 2 ^ 61 := by decide

/-- `PzeroAllocatesOrFaults`: one block too many, and exactly enough, and unbounded. -/
theorem witness_pzero :
    (abcRun .pzero 0).nblk = some 1 ∧ (abcRun .pzero 0).plen = some 64 ∧
    ((abcRun .pzero 0).setMaxBlocks (some 0)).maxBlocks = some 0 ∧ 0 < (1 : Quad).toNat ∧
    (∀ m, ((abcRun .pzero 0).setMaxBlocks (some 1)).maxBlocks = some m → (1 : Quad).toNat ≤ m) ∧
    (∀ m, (abcRun .pzero 0).maxBlocks = some m → (1 : Quad).toNat ≤ m) := by
  refine ⟨rfl, rfl, rfl, by decide, fun m h => ?_, fun m h => ?_⟩
  · cases h; decide
  · cases h

/-- `PcopyCopiesTheMessage`, `PtermSetsTheTerminator`: a buffer of exactly the size, and one byte more. -/
theorem witness_pcopy_pterm :
    ((abcRun .pcopy 0).setPb (some ⟨3, []⟩)).pb = some ⟨3, []⟩ ∧ (abcRun .pcopy 0).len.toNat ≤ 3 ∧
    ((abcRun .pterm 0).setPb (some ⟨4, []⟩)).pb = some ⟨4, []⟩ ∧ (abcRun .pterm 0).len.toNat < 4 := by decide

/-- `PlenwWritesTheLengthField`: the shortest buffer, and the longest message. -/
theorem witness_plenw :
    ((abcRun .plenw 0).setPb (some abcBuf)).pb = some abcBuf ∧ (abcRun .plenw 0).plen = some 64 ∧
    8 ≤ (64 : Quad).toNat ∧ (64 : Quad).toNat ≤ abcBuf.size ∧ 8 * (abcRun .plenw 0).len.toNat < 2 ^ 64 ∧
    8 * (State.reset.setLen 0x1FFFFFFFFFFFFFFF).len.toNat < 2 ^ 64 := by decide

/-- `PsegChecksThePartition`: each ground for the fault, and the least partition. -/
theorem witness_pseg :
    (abcRun .pseg 0).plen = some 64 ∧ (abcRun .pseg 0).nblk = some 1 ∧
    (56 : Quad).toNat % 64 ≠ 0 ∧ (2 : Quad).toNat * 64 ≠ (64 : Quad).toNat ∧ (0 : Quad).toNat < 1 ∧
    (64 : Quad).toNat % 64 = 0 ∧ (1 : Quad).toNat * 64 = (64 : Quad).toNat ∧ 1 ≤ (1 : Quad).toNat := by decide

/-- `WldLoadsTheBlockWord`: the first and the last word. -/
theorem witness_wld :
    (∀ t ∈ [(0 : BitVec 7), 15], t.toNat ≤ 15 ∧ ∀ k ∈ [0, 1, 2, 3],
      (readPbByte ((abcRun .wld t).setPb (some abcBuf)) (64 * (0 : Quad).toNat + 4 * t.toNat + k)).toOption.isSome = true) ∧
    (14 : BitVec 7).toNat < 15 := by decide

/-- `WexExpandsTheSchedule`: the first and the last expanded word. -/
theorem witness_wex :
    ∀ j ∈ [(16 : BitVec 7), 63], 16 ≤ j.toNat ∧ j.toNat ≤ 63 ∧ ∀ k ∈ [16, 15, 7, 2],
      (readSched (fullRun .wex 0 j) (j.toNat - k)).toOption = some 0 := by decide

/-- `RldCopiesTheHashState`. -/
theorem witness_rld : (fullRun .rld 0 0).hash = some iv := by decide

/-- `RndUpdatesInParallel`: the first and the last round, with the first and the last constant of R124's table. -/
theorem witness_rnd : kTable[0]? = some 0x428a2f98#32 ∧ kTable[63]? = some 0xc67178f2#32 ∧ kTable[64]? = none ∧
    ∀ j ∈ [(0 : BitVec 7), 63], j.toNat ≤ 63 ∧ (fullRun .rnd 0 j).regs = some (loadRegs iv) ∧
      (readSched (fullRun .rnd 0 j) j.toNat).toOption = some 0 ∧ (kTable[j.toNat]?).isSome = true := by decide

/-- `FfwAddsTheRegisters`: the last block, and one before it. -/
theorem witness_ffw :
    (fullRun .ffw 0 0).hash = some iv ∧ (fullRun .ffw 0 0).regs = some (loadRegs iv) ∧
    (fullRun .ffw 0 0).nblk = some 1 ∧ (0 : Quad).toNat + 1 = (1 : Quad).toNat ∧
    (0 : Quad).toNat + 1 < (2 : Quad).toNat := by decide

/-- `ExpanderComputesSched`: every byte of the block is there. -/
theorem witness_expander :
    ((abcRun .wld 0).setPb (some abcBuf)).inputs = [] ∧ ((abcRun .wld 0).setPb (some abcBuf)).seq = ⟨.wld, 0, 0⟩ ∧
    ∀ k ∈ List.range 64, (readPbByte ((abcRun .wld 0).setPb (some abcBuf)) (64 * (0 : Quad).toNat + k)).toOption =
      some (abcBuf.cells.map (·.2))[k]! := by decide

/-- `CompressorComputesCompress`: a full schedule. -/
theorem witness_compressor :
    (fullRun .rld 0 0).inputs = [] ∧ (fullRun .rld 0 0).seq = ⟨.rld, 0, 0⟩ ∧ (fullRun .rld 0 0).hash = some iv ∧
    (fullRun .rld 0 0).nblk = some 1 ∧ (0 : Quad).toNat + 1 ≤ (1 : Quad).toNat ∧
    (List.replicate 64 (0 : Word)).length = 64 ∧
    ∀ j ∈ List.range 64, (List.replicate 64 (0 : Word))[j]? = (readSched (fullRun .rld 0 0) j).toOption := by decide

/-- At rest after reset, with the message "abc" and its length. -/
def loaded : State := (State.reset.setMsg [(0, 0x61#8), (1, 0x62#8), (2, 0x63#8)]).setLen 3

/-- `RunHashesTheMessage`: one block, with polls before, between and after the sequencer's steps. -/
theorem witness_run_hashes :
    CoreInv loaded ∧ Ready loaded ∧ 1 ≤ loaded.len.toNat ∧ loaded.len.toNat < 2 ^ 61 ∧
    overCapacity loaded.maxBlocks (blockCount loaded.len.toNat) = false ∧
    onlyPolls (rd 1 :: (List.replicate 139 .pass ++ [rd 2])) ∧
    (rd 1 :: (List.replicate 139 .pass ++ [rd 2])).count .pass = 9 + 130 * blockCount loaded.len.toNat := by
  refine ⟨⟨⟨by decide, by decide, by decide, by decide, by decide, by decide⟩,
    { idxRange := rfl
      lenChecked := fun h => absurd h (by decide)
      lengths := fun h => absurd h (by decide)
      unallocated := fun _ => rfl
      allocated := fun h => absurd h (by decide)
      copied := fun h => absurd h (by decide)
      hashed := fun h => absurd h (by decide)
      inBlock := fun h => absurd h (by decide)
      afterBlocks := fun h => absurd h (by decide)
      expanding := fun h => absurd h (by decide)
      expanded := fun h => absurd h (by decide)
      loaded := fun h => absurd h (by decide)
      finished := fun h => absurd h (by decide) },
    { padded := fun h => absurd h (by decide)
      folded := fun h => absurd h (by decide)
      expanding := fun h => absurd h (by decide)
      expanded := fun h => absurd h (by decide)
      rounds := fun h => absurd h (by decide)
      allRounds := fun h => absurd h (by decide)
      digest := fun h => absurd h (by decide) }⟩,
    ⟨rfl, rfl⟩, by decide, by decide, by decide, fun m hm => ?_, by decide +kernel⟩
  simp only [List.mem_cons, List.mem_append, List.mem_replicate, List.not_mem_nil, or_false] at hm
  rcases hm with rfl | ⟨-, rfl⟩ | rfl
  · exact .inr ⟨_, rfl, .inl (by decide)⟩
  · exact .inl rfl
  · exact .inr ⟨_, rfl, .inr (by decide)⟩

/-- `StartBeginsARun`, `WrlenSetsTheLength`: at rest without fault, with and without a result. -/
theorem witness_ready :
    (State.reset.status.busy = false ∧ State.reset.status.err = false) ∧
    finished.status.busy = false ∧ finished.status.err = false := by decide

/-- `StatusAndLengthAreRead`: `ERR = 0` while busy and at rest. -/
theorem witness_rdlen : (abcRun .rnd 0).status.err = false ∧ finished.status.err = false := by decide

/-- `RdnblkReturnsTheCount`, `RddigReturnsTheWord`: done, busy, and at rest without a result. -/
theorem witness_result_reads :
    (finished.status.err = false ∧ finished.status.busy = false ∧ finished.status.done = true ∧
      finished.nblk = some 1 ∧ (∃ h, finished.hash = some h ∧ h[(7 : BitVec 3).toNat]? = some 0xf20015ad ∧
        h[(0 : BitVec 3).toNat]? = some 0xba7816bf)) ∧
    ((abcRun .rnd 0).status.err = false ∧ (abcRun .rnd 0).status.busy = true) ∧
    (State.reset.status.err = false ∧ State.reset.status.busy = false ∧ State.reset.status.done = false) := by
  refine ⟨⟨rfl, rfl, rfl, rfl, _, rfl, by decide, by decide⟩, by decide, by decide⟩

/-- `IllegalWordsRaiseTheirFault`: busy and at rest. -/
theorem witness_illegal : (abcRun .rnd 0).status.err = false ∧ State.reset.status.err = false := by decide

/-- `BusyPortRaisesBusyViolation`. -/
theorem witness_busy_port :
    (abcRun .rnd 0).status.busy = true ∧ (abcRun .rnd 0).status.err = false ∧ Instr.wrlen 9 = .wrlen 9 := by decide

/-- `FaultStateAnswersOnlyStatus`: a read and a write. -/
theorem witness_fault_state :
    faulted.status.err = true ∧ isTransaction .rdlen = true ∧ isPortRead .rdlen = true ∧ Instr.rdlen ≠ .rdstatus ∧
    isTransaction .start = true ∧ isPortRead .start = false ∧ Instr.start ≠ .rdstatus := by decide

/-- `FaultEntryRecordsAndDrops`: both clauses. -/
theorem witness_fault_entry : (abcRun .rnd 0).status.err = false ∧ faulted.status.err = true := by decide

/-- `FirstFaultStays`. -/
theorem witness_first_fault :
    (faulted.setInputs [wr 0 1]).status.err = true ∧
    goesOn (faulted.setInputs [wr 0 1]) (step (faulted.setInputs [wr 0 1])) = true ∧
    nextMove (faulted.setInputs [wr 0 1]) ≠ .reset := by decide

/-- `MessageIsFixedDuringARun`: the last byte of the message, the first beyond it, and at rest; the last address. -/
theorem witness_message_fixed :
    ((abcRun .chk 0).setInputs [.writeMsg 2 [0]]).inputs = .writeMsg 2 [0] :: [] ∧
    (abcRun .chk 0).status.busy = true ∧ (2 : Quad).toNat < (abcRun .chk 0).len.toNat ∧
    (abcRun .chk 0).len.toNat ≤ (3 : Quad).toNat ∧ finished.status.busy = false ∧
    (0xFFFFFFFFFFFFFFFF : Quad).toNat + [(0 : Byte)].length ≤ 2 ^ 64 := by decide

/-- `FramesOfMicroOpsThatStoreNothing`: each goes on from a run in which every element holds a value. -/
theorem witness_frames_no_store :
    (∀ i ∈ [Instr.chk 0, .plen 0, .pseg 0, .hinit 0, .rld 0, .ffw 0], goesOn (fullRun .rnd 0 0)
      (exec i (fullRun .rnd 0 0)) = true) ∧
    ∀ i ∈ [Instr.wld 15 0, .wex 63 0, .rnd 63 0], goesOn (fullRun .rnd 0 0) (exec i (fullRun .rnd 0 0)) = true := by
  decide

/-- `FramesOfMicroOpsThatStore`. -/
theorem witness_frames_store :
    (∀ i ∈ [Instr.pzero 0, .pcopy 0, .pterm 0, .plenw 0], goesOn (fullRun .pzero 0 0)
      (exec i (fullRun .pzero 0 0)) = true) ∧ (fullRun .pzero 0 0).plen = some 64 ∧
    (fullRun .pzero 0 0).status.err = false := by decide

/-- `FramesOfHostTransactions`: a legal read, a write, a START, and an illegal word. -/
theorem witness_frames_host :
    (∀ i ∈ [Instr.rddig 0, .rdnblk, .rdlen, .wrlen 5, .start], isTransaction i = true ∧
      goesOn finished (exec i finished) = true) ∧
    seen (·.status.err) (exec .illegalRdcmd finished) = some true ∧ finished.status.err = false ∧
    isTransaction .illegalRdcmd = true := by decide

/-- `LenChangesOnlyByWrlenAtRest`: by WRLEN, and by reset. -/
theorem witness_len_changes :
    (∃ t, step (finished.setInputs [wr 2 9]) = .next t ∧ t.len ≠ finished.len) ∧
    ∃ t, step (finished.setInputs [.reset]) = .next t ∧ t.len ≠ finished.len := by
  exact ⟨⟨_, rfl, by decide⟩, ⟨_, rfl, by decide⟩⟩

/-- `FlagsChangeOnlyWhereStated`: each change of a flag, by one of its causes. -/
theorem witness_flags_change :
    (finished.status.busy = false ∧ seen (·.status.busy) (step (finished.setInputs [wr 0 1])) = some true) ∧
    ((fullRun .emit 1 0).status.busy = true ∧ seen (·.status.busy) (step (fullRun .emit 1 0)) = some false) ∧
    ((fullRun .emit 1 0).status.done = false ∧ seen (·.status.done) (step (fullRun .emit 1 0)) = some true) ∧
    (finished.status.done = true ∧ seen (·.status.done) (step (finished.setInputs [wr 0 1])) = some false) ∧
    (finished.status.err = false ∧ seen (·.status.err) (step (finished.setInputs [wr 0 3])) = some true) := by decide

/-- `HostSeesOnlyItsRegisters`: two states that differ in `PB`, `W`, `a..h` and `SEQ`, and a read. -/
theorem witness_host_sees :
    isTransaction (.rddig 3) = true ∧ finished.len = (((finished.setPb (some abcBuf)).setRegs (some regsAbc)).setSeq
      ⟨.idle, 9, 0⟩).len ∧
    finished.status = (((finished.setPb (some abcBuf)).setRegs (some regsAbc)).setSeq ⟨.idle, 9, 0⟩).status ∧
    finished.hash = (((finished.setPb (some abcBuf)).setRegs (some regsAbc)).setSeq ⟨.idle, 9, 0⟩).hash ∧
    goesOn finished (exec (.rddig 3) finished) = true ∧
    goesOn finished (exec (.rddig 3) (((finished.setPb (some abcBuf)).setRegs (some regsAbc)).setSeq ⟨.idle, 9, 0⟩)) =
      true := by decide

/-- After START with the message "abc". -/
def started : State := ((State.reset.setMsg [(0, 0x61#8), (1, 0x62#8), (2, 0x63#8)]).setLen 3).setSeq ⟨.chk, 0, 0⟩
  |>.setStatus ⟨true, false, false, .none, .idle⟩

/-- `StatusInvariantKept`, `RunsNeverReadWithoutValue`, `SequencerStepsRunOut`: a run meets R42. -/
theorem witness_status_inv : StatusInv started := by
  refine ⟨by decide, by decide, by decide, by decide, by decide, by decide⟩

/-- `RunInvariantKept`, `RunsNeverReadWithoutValue`, `SequencerStepsRunOut`: a run meets the run's invariant. -/
theorem witness_run_inv : RunInv started where
  idxRange := rfl
  lenChecked h := absurd h (by decide)
  lengths h := absurd h (by decide)
  unallocated _ := rfl
  allocated h := absurd h (by decide)
  copied h := absurd h (by decide)
  hashed h := absurd h (by decide)
  inBlock h := absurd h (by decide)
  afterBlocks h := absurd h (by decide)
  expanding h := absurd h (by decide)
  expanded h := absurd h (by decide)
  loaded h := absurd h (by decide)
  finished h := absurd h (by decide)

/-- `DigestInvariantKept`: a run meets all three, and its next step answers. -/
theorem witness_core_inv : CoreInv started ∧ goesOn started (step started) = true ∧
    nextMove started = .pass ∧ started.status.busy = true :=
  ⟨⟨witness_status_inv, witness_run_inv,
    { padded := fun h => absurd h (by decide)
      folded := fun h => absurd h (by decide)
      expanding := fun h => absurd h (by decide)
      expanded := fun h => absurd h (by decide)
      rounds := fun h => absurd h (by decide)
      allRounds := fun h => absurd h (by decide)
      digest := fun h => absurd h (by decide) }⟩, by decide, rfl, rfl⟩

/-- `MemoryFormKept`: a filled message space, and a buffer, through a step that stores. -/
theorem witness_mem_inv :
    MemInv ((abcRun .pterm 0).setPb (some abcBuf)) ∧
    goesOn ((abcRun .pterm 0).setPb (some abcBuf)) (step ((abcRun .pterm 0).setPb (some abcBuf))) = true := by
  refine ⟨⟨by decide, by decide, fun b h => ?_⟩, by decide⟩
  cases h
  exact ⟨by decide, by decide⟩

/-- `ReachableStatesMeetInvariants`: the state after START is reached from reset by two host moves. -/
theorem witness_reachable : Reachable started :=
  ⟨[.writeMsg 0 [0x61, 0x62, 0x63], wr 2 3, wr 0 1], none, 3, by
    simp only [Host.Core.run, Sys2Proof.core]
    rfl⟩

end Sys2Proof.Tests
end

/-!
PROOFS. What every step keeps, packaged once: a predicate that survives each kind of move survives every step and every
run. Then the sequencer's frame, the status invariant (R42 (1) to (3)), and what follows from the frame alone: who
changes `LEN` (R30) and the flags (R32 to R34).
-/

namespace Sys2Proof.Machine

/-! ## Invariants of the machine -/

/-- A predicate of states that survives every kind of move, each stated for itself: the bookkeeping of the host's list
and of the port's outputs, a sequencer step, fault entry, an accepted START, an accepted WRLEN, bytes written to `MSG`,
and the reset input. -/
structure KeptByMoves (P : State → Prop) : Prop where
  inputs : ∀ {s : State} (v : List HostMove), P s → P (s.setInputs v)
  outputs : ∀ {s : State} (r : Option Quad) (n : Nat), P s → P ((s.setRdata r).setFreeCtr n)
  sequencer : ∀ {s t : State}, P s → seqStep s = .next t → P t
  fault : ∀ {s : State} {c : Cause}, c ≠ .none → s.status.err = false → P s → P (raise c s)
  start : ∀ {s : State}, Ready s → P s → P (startRun s)
  wrlen : ∀ {s : State} (v : Quad), Ready s → P s → P (s.setLen v)
  message : ∀ {s t : State} {a : Quad} {bs : List Byte}, P s → hostWriteMsg a bs s = .next t → P t
  reset : ∀ {s : State}, P s → P (applyReset s)

theorem KeptByMoves.step {P : State → Prop} (hP : KeptByMoves P) {s t : State} (hs : P s) (h : step s = .next t) :
    P t := by
  have hs' : P (takeMove s) := hP.inputs _ hs
  obtain ⟨-, h⟩ | ⟨w, -, h⟩ | ⟨a, bs, -, h⟩ | ⟨-, rfl⟩ := step_next h
  · exact hP.sequencer hs' h
  · obtain ⟨u, r, n, rfl, hu⟩ := exec_transaction_next (decodeHost_isTransaction w) h
    refine hP.outputs r n ?_
    obtain ⟨rfl, -⟩ | ⟨he, c, hc, rfl⟩ | ⟨-, hr, rfl⟩ | ⟨v, -, hr, rfl⟩ := hu
    · exact hs'
    · exact hP.fault hc he hs'
    · exact hP.start hr hs'
    · exact hP.wrlen v hr hs'
  · exact hP.message hs' h
  · exact hP.reset hs'

/-- A run of `n + 1` steps that answers is a step that answers and a run of `n` steps from there. -/
theorem run_succ_next {M : Host.Core} {n : Nat} {s t : M.State} (h : M.run (n + 1) s = .next t) :
    ∃ u, M.step s = .next u ∧ M.run n u = .next t := by
  rw [Host.Core.run] at h
  split at h
  · exact ⟨_, ‹_›, h⟩
  · cases h
  · cases h

theorem KeptByMoves.run {P : State → Prop} (hP : KeptByMoves P) {n : Nat} {s t : State} (hs : P s)
    (h : Host.Core.run Sys2Proof.core n s = .next t) : P t := by
  induction n generalizing s with
  | zero => cases h; exact hs
  | succ n ih =>
    obtain ⟨u, hu, h⟩ := run_succ_next h
    exact ih (hP.step hs hu) h

/-! ## Small facts -/

theorem toNat_succ {w : Nat} {x : BitVec w} (h : x.toNat + 1 < 2 ^ w) : (x + 1).toNat = x.toNat + 1 := by
  have h1 : (1 : BitVec w).toNat = 1 := BitVec.toNat_one (Nat.pos_of_ne_zero (by rintro rfl; omega))
  rw [BitVec.toNat_add, h1, Nat.mod_eq_of_lt h]

@[simp] theorem raise_seq_of_not_err {s : State} (h : s.status.err = false) (c : Cause) :
    (raise c s).seq = ⟨.idle, s.seq.blk, 0⟩ := by rw [raise_of_not_err h]; rfl

@[simp] theorem raise_status_of_not_err {s : State} (h : s.status.err = false) (c : Cause) :
    (raise c s).status = faultFlags c s.seq.phase := by rw [raise_of_not_err h]; rfl

/-- Fault entry that leaves `ERR` as it was found it set, and so did nothing: first fault wins (R280). -/
theorem raise_eq_self {c : Cause} {s : State} (h : (raise c s).status.err = s.status.err) : raise c s = s :=
  raise_of_err (by rw [← h, raise_err]) c

/-! ## The frame of a sequencer step -/

/-- What a micro-operation that goes on can do to the buffer: nothing, PZERO's allocation, or a write inside it. -/
inductive PbUpdate : Option PadBuf → Option PadBuf → Prop where
  | keep (b : Option PadBuf) : PbUpdate b b
  | alloc (b : Option PadBuf) (l p : Nat) : PbUpdate b (some (allocZeroed l p))
  | write (b : PadBuf) (a : Nat) (bs : List Byte) (h : a + bs.length ≤ b.size) :
      PbUpdate (some b) (some ⟨b.size, memPut b.cells a bs⟩)

/-- What every micro-operation that goes on with the run leaves as it was. -/
structure GoesOn (s t : State) : Prop where
  running : t.seq.phase ≠ .idle
  status : t.status = s.status
  len : t.len = s.len
  msg : t.msg = s.msg
  pb : PbUpdate s.pb t.pb

theorem goesOn_afterWld (j : BitVec 7) (blk : Quad) (s : State) : GoesOn s (afterWld j blk s) := by
  unfold afterWld; split <;> exact ⟨by simp, rfl, rfl, rfl, .keep _⟩

theorem goesOn_afterWex (j : BitVec 7) (blk : Quad) (s : State) : GoesOn s (afterWex j blk s) := by
  unfold afterWex; split <;> exact ⟨by simp, rfl, rfl, rfl, .keep _⟩

theorem goesOn_afterRnd (j : BitVec 7) (blk : Quad) (s : State) : GoesOn s (afterRnd j blk s) := by
  unfold afterRnd; split <;> exact ⟨by simp, rfl, rfl, rfl, .keep _⟩

/-- The sequencer rests, enters the fault state, ends its run, or goes on with it. -/
theorem seqStep_frame {s t : State} (h : seqStep s = .next t) :
    (s.seq.phase = .idle ∧ t = s) ∨
    (s.seq.phase ≠ .idle ∧ ((∃ c, c ≠ .none ∧ t = raise c s) ∨
      (s.seq.phase = .emit ∧ execEmit s.seq.blk s = .next t) ∨ GoesOn s t)) := by
  obtain ⟨hp, rfl⟩ | ⟨hp, h⟩ | ⟨hp, h⟩ | ⟨hp, h⟩ | ⟨hp, h⟩ | ⟨hp, h⟩ | ⟨hp, h⟩ | ⟨hp, h⟩ | ⟨hp, h⟩ | ⟨hp, h⟩ |
    ⟨hp, h⟩ | ⟨hp, h⟩ | ⟨hp, h⟩ | ⟨hp, h⟩ | ⟨hp, h⟩ := seqStep_next h
  case inl => exact .inl ⟨hp, rfl⟩
  all_goals refine .inr ⟨by simp [hp], ?_⟩
  · obtain ⟨-, rfl⟩ | ⟨-, rfl⟩ | ⟨-, -, rfl⟩ := execChk_next h
    · exact .inl ⟨.emptyMessage, by decide, rfl⟩
    · exact .inl ⟨.lengthOverflow, by decide, rfl⟩
    · exact .inr (.inr ⟨by simp, rfl, rfl, rfl, .keep _⟩)
  · cases h; exact .inr (.inr ⟨by simp, rfl, rfl, rfl, .keep _⟩)
  · obtain ⟨nb, -, ⟨-, rfl⟩ | ⟨-, p, -, rfl⟩⟩ := execPzero_next h
    · exact .inl ⟨.allocation, by decide, rfl⟩
    · exact .inr (.inr ⟨by simp, rfl, rfl, rfl, .alloc _ _ _⟩)
  · obtain ⟨b, hb, hl, rfl⟩ := execPcopy_next h
    exact .inr (.inr ⟨by simp, rfl, rfl, rfl, by rw [hb]; exact .write b 0 _ (by simpa using hl)⟩)
  · obtain ⟨b, hb, hl, rfl⟩ := execPterm_next h
    exact .inr (.inr ⟨by simp, rfl, rfl, rfl, by rw [hb]; exact .write b _ [0x80#8] hl⟩)
  · obtain ⟨p, b, -, hb, h8, hl, rfl⟩ := execPlenw_next h
    exact .inr (.inr ⟨by simp, rfl, rfl, rfl, by
      rw [hb]; exact .write b _ (be64 _) (by simp only [be64, List.length_cons, List.length_nil]; omega)⟩)
  · obtain ⟨p, nb, -, -, ⟨-, rfl⟩ | ⟨-, -, -, rfl⟩⟩ := execPseg_next h
    · exact .inl ⟨.blockCount, by decide, rfl⟩
    · exact .inr (.inr ⟨by simp, rfl, rfl, rfl, .keep _⟩)
  · cases h; exact .inr (.inr ⟨by simp, rfl, rfl, rfl, .keep _⟩)
  · obtain ⟨-, x, -, rfl⟩ := execWld_next h
    exact .inr (.inr { goesOn_afterWld s.seq.idx s.seq.blk (writeSched s.seq.idx.toNat x s) with })
  · obtain ⟨-, w16, w15, w7, w2, -, -, -, -, rfl⟩ := execWex_next h
    exact .inr (.inr { goesOn_afterWex s.seq.idx s.seq.blk (writeSched s.seq.idx.toNat _ s) with })
  · obtain ⟨v, -, rfl⟩ := execRld_next h
    exact .inr (.inr ⟨by simp, rfl, rfl, rfl, .keep _⟩)
  · obtain ⟨-, r, w, -, -, rfl⟩ := execRnd_next h
    exact .inr (.inr { goesOn_afterRnd s.seq.idx s.seq.blk (s.setRegs _) with })
  · obtain ⟨v, r, nb, -, -, -, ⟨-, rfl⟩ | ⟨-, rfl⟩⟩ := execFfw_next h
    · exact .inr (.inr ⟨by simp, rfl, rfl, rfl, .keep _⟩)
    · exact .inr (.inr ⟨by simp, rfl, rfl, rfl, .keep _⟩)
  · exact .inr (.inl ⟨hp, h⟩)

/-! ## The status invariant -/

theorem StatusInv.phase_idle {s : State} (hs : StatusInv s) (h : s.status.busy = false) : s.seq.phase = .idle := by
  obtain ⟨hb, -⟩ := hs
  by_contra hp
  simp [hb.2 hp] at h

theorem StatusInv.not_done {s : State} (hs : StatusInv s) (h : s.seq.phase ≠ .idle) : s.status.done = false := by
  obtain ⟨hb, hbd, -⟩ := hs
  simpa [hb.2 h] using hbd

theorem StatusInv.not_err {s : State} (hs : StatusInv s) (h : s.seq.phase ≠ .idle) : s.status.err = false := by
  obtain ⟨hb, -, hbe, -⟩ := hs
  simpa [hb.2 h] using hbe

/-- Fault entry records a cause, so it keeps R42 (1) to (3). -/
theorem StatusInv.raise {s : State} {c : Cause} (hc : c ≠ .none) (hs : StatusInv s) : StatusInv (raise c s) := by
  cases he : s.status.err with
  | true => rwa [raise_of_err he]
  | false => simp [StatusInv, he, faultFlags, hc]

theorem StatusInv.emit {s t : State} {blk : Quad} (hp : s.seq.phase ≠ .idle) (hs : StatusInv s)
    (h : execEmit blk s = .next t) : StatusInv t := by
  have he := hs.not_err hp
  obtain ⟨-, -, -, -, hc, -⟩ := hs
  cases h
  simpa [StatusInv, dropSched, emitFlags, he] using hc he

theorem StatusInv.goesOn {s t : State} (hp : s.seq.phase ≠ .idle) (hs : StatusInv s) (h : GoesOn s t) :
    StatusInv t := by
  obtain ⟨hb, hs⟩ := hs
  unfold StatusInv
  rw [h.status]
  exact ⟨⟨fun _ => h.running, fun _ => hb.2 hp⟩, hs⟩

theorem statusInv_kept : KeptByMoves StatusInv where
  inputs _ hs := hs
  outputs _ _ hs := hs
  sequencer hs h := by
    obtain ⟨-, rfl⟩ | ⟨hp, ⟨c, hc, rfl⟩ | ⟨-, h⟩ | h⟩ := seqStep_frame h
    · exact hs
    · exact hs.raise hc
    · exact hs.emit hp h
    · exact hs.goesOn hp h
  fault hc _ hs := hs.raise hc
  start hr hs := by
    obtain ⟨-, he⟩ := hr
    obtain ⟨-, -, -, -, hc, -⟩ := hs
    simpa [StatusInv, startRun, startFlags, he] using hc he
  wrlen _ _ hs := hs
  message hs h := by
    obtain ⟨rfl, -⟩ := hostWriteMsg_next h
    exact hs
  reset _ := by simp [StatusInv, applyReset, State.reset, Status.reset, Seq.reset]

/-- Settles O55: each kind of move keeps R42 (1) to (3). -/
theorem statusInvariantKept : Obligations.StatusInvariantKept :=
  fun _ _ hs h => statusInv_kept.step hs h

/-! ## Who changes `LEN` and the flags -/

/-- Settles O51: no sequencer step, fault entry or START writes `LEN`. -/
theorem lenChangesOnlyByWrlenAtRest : Obligations.LenChangesOnlyByWrlenAtRest := by
  intro s t h hne
  have hlen : (takeMove s).len = s.len := rfl
  obtain ⟨-, h⟩ | ⟨w, hw, h⟩ | ⟨a, bs, -, h⟩ | ⟨hm, -⟩ := step_next h
  · obtain ⟨-, rfl⟩ | ⟨-, ⟨c, -, rfl⟩ | ⟨-, h⟩ | h⟩ := seqStep_frame h
    · exact absurd hlen hne
    · exact absurd (raise_len _ _) hne
    · cases h; exact absurd rfl hne
    · exact absurd h.len hne
  · obtain ⟨u, r, n, rfl, hu⟩ := exec_transaction_next (decodeHost_isTransaction w) h
    obtain ⟨rfl, -⟩ | ⟨-, c, -, rfl⟩ | ⟨-, -, rfl⟩ | ⟨v, hv, hr, rfl⟩ := hu
    · exact absurd hlen hne
    · exact absurd (raise_len _ _) hne
    · exact absurd rfl hne
    · exact .inr ⟨w, hw, hv, hr⟩
  · obtain ⟨rfl, -⟩ := hostWriteMsg_next h
    exact absurd rfl hne
  · exact .inl hm

/-- Everything that can happen to `STATUS` in a step: it stays, fault entry, an accepted START, EMIT, or reset. -/
theorem step_status {s t : State} (h : step s = .next t) :
    t.status = s.status ∨
    (s.status.err = false ∧ t.seq = ⟨.idle, s.seq.blk, 0⟩ ∧ ∃ c, c ≠ .none ∧ t.status = faultFlags c s.seq.phase) ∨
    (startsRun s ∧ t.status = startFlags s.status) ∨
    (nextMove s = .pass ∧ s.seq.phase = .emit ∧ t.status = emitFlags s.status) ∨
    (nextMove s = .reset ∧ t.status = Status.reset) := by
  obtain ⟨hm, h⟩ | ⟨w, hw, h⟩ | ⟨a, bs, -, h⟩ | ⟨hm, rfl⟩ := step_next h
  · obtain ⟨-, rfl⟩ | ⟨-, ⟨c, hc, rfl⟩ | ⟨hp, h⟩ | h⟩ := seqStep_frame h
    · exact .inl rfl
    · cases he : (takeMove s).status.err with
      | true => rw [raise_of_err he]; exact .inl rfl
      | false =>
        exact .inr (.inl ⟨he, raise_seq_of_not_err he c, c, hc, raise_status_of_not_err he c⟩)
    · cases h; exact .inr (.inr (.inr (.inl ⟨hm, hp, rfl⟩)))
    · exact .inl h.status
  · obtain ⟨u, r, n, rfl, hu⟩ := exec_transaction_next (decodeHost_isTransaction w) h
    obtain ⟨rfl, -⟩ | ⟨he, c, hc, rfl⟩ | ⟨hi, hr, rfl⟩ | ⟨v, -, -, rfl⟩ := hu
    · exact .inl rfl
    · exact .inr (.inl ⟨he, raise_seq_of_not_err he c, c, hc, raise_status_of_not_err he c⟩)
    · exact .inr (.inr (.inl ⟨⟨w, hw, hi, hr⟩, rfl⟩))
    · exact .inl rfl
  · obtain ⟨rfl, -⟩ := hostWriteMsg_next h
    exact .inl rfl
  · exact .inr (.inr (.inr (.inr ⟨hm, rfl⟩)))

/-- Settles O52: each way `STATUS` changes is one of the causes the rules name. -/
theorem flagsChangeOnlyWhereStated : Obligations.FlagsChangeOnlyWhereStated := by
  intro s t h
  obtain e | ⟨-, hq, c, hc, e⟩ | ⟨hr, e⟩ | ⟨hm, hp, e⟩ | ⟨hm, e⟩ := step_status h
  · rw [e]
    simp +contextual
  · rw [e, hq]
    simp [faultFlags, hc]
  · rw [e]
    simp +contextual [startFlags, hr]
  · rw [e]
    simp +contextual [emitFlags, hm, hp]
  · rw [e]
    simp [Status.reset, hm]

end Sys2Proof.Machine

/-!
PROOFS. The run invariant (R26, R29, R38, R42 (4) to (6), R43): two ways to meet it, at rest and inside a run, then one
lemma per micro-operation.
-/

namespace Sys2Proof.Machine

/-! ## Filling the schedule -/

theorem schedFilled_zero (s : State) : schedFilled s 0 := fun _ h => absurd h (Nat.not_lt_zero _)

/-- Writing the next word of `W` fills one word more. -/
theorem schedFilled_writeSched {s : State} {n : Nat} (h : schedFilled s n) (hn : n < 64) (x : Word) :
    schedFilled (writeSched n x s) (n + 1) := by
  intro t ht
  rw [readSched_writeSched]
  by_cases e : t = n
  · exact ⟨x, by simp [e, hn]⟩
  · simpa [e] using h t (by omega)

/-! ## The two ways to meet the invariant -/

/-- At rest only what a finished run left matters (R42 (4)). -/
theorem RunInv.of_idle {s : State} (hp : s.seq.phase = .idle) (hx : s.seq.idx = 0) (hb : s.pb = none)
    (hf : s.status.done = true → (∃ h, s.hash = some h) ∧ ∃ nb, s.nblk = some nb ∧ s.seq.blk = nb ∧ 1 ≤ nb.toNat ∧
      ∃ p, s.plen = some p ∧ p.toNat = 64 * nb.toNat) : RunInv s where
  idxRange := by simp [hp, hx, idxInRange]
  lenChecked h := by simp [hp] at h
  lengths h := by simp [hp] at h
  unallocated _ := hb
  allocated h := by simp [hp] at h
  copied h := by simp [hp] at h
  hashed h := by simp [hp] at h
  inBlock h := by simp [hp] at h
  afterBlocks h := by simp [hp] at h
  expanding h := by simp [hp] at h
  expanded h := by simp [hp] at h
  loaded h := by simp [hp] at h
  finished := hf

/-- Before the hash state is loaded only the padder's part matters. -/
theorem RunInv.of_padder {s : State} (hd : s.status.done = false) (hx : s.seq.idx = 0) (h9 : stage s.seq.phase < 9)
    (hl : 2 ≤ stage s.seq.phase → 1 ≤ s.len.toNat ∧ s.len.toNat < 2 ^ 61 := by simp)
    (hn : 3 ≤ stage s.seq.phase → s.plen = some (BitVec.ofNat 64 (padLen s.len.toNat)) ∧
      s.nblk = some (BitVec.ofNat 64 (blockCount s.len.toNat)) := by simp)
    (hu : stage s.seq.phase < 4 → s.pb = none := by simp)
    (ha : 4 ≤ stage s.seq.phase →
      ∃ b, s.pb = some b ∧ b.size = padLen s.len.toNat ∧ filledFrom b s.len.toNat := by simp)
    (hc : 5 ≤ stage s.seq.phase → ∀ b, s.pb = some b → filledFrom b 0 := by simp) : RunInv s where
  idxRange := by cases hp : s.seq.phase <;> simp [hp, hx, idxInRange] at h9 ⊢
  lenChecked := hl
  lengths := hn
  unallocated := hu
  allocated := ha
  copied := hc
  hashed h := by omega
  inBlock h := by omega
  afterBlocks h := by simp [h] at h9
  expanding h := by rcases h with h | h <;> simp [h] at h9
  expanded h := by rcases h with h | h <;> simp [h] at h9
  loaded h := by rcases h with h | h <;> simp [h] at h9
  finished h := by simp [hd] at h

/-- The message is padded and the block count known, as from PTERM on (R29, R38). -/
structure Padded (s : State) : Prop where
  len : 1 ≤ s.len.toNat ∧ s.len.toNat < 2 ^ 61
  counts : s.plen = some (BitVec.ofNat 64 (padLen s.len.toNat)) ∧
    s.nblk = some (BitVec.ofNat 64 (blockCount s.len.toNat))
  buffer : ∃ b, s.pb = some b ∧ b.size = padLen s.len.toNat ∧ filledFrom b 0

theorem RunInv.padded {s : State} (hs : RunInv s) (h : 5 ≤ stage s.seq.phase) : Padded s where
  len := hs.lenChecked (by omega)
  counts := hs.lengths (by omega)
  buffer := by
    obtain ⟨b, hb, hsz, -⟩ := hs.allocated (by omega)
    exact ⟨b, hb, hsz, hs.copied h b hb⟩

/-- In a block: the message is padded, `H` holds a value, and the block exists. -/
theorem RunInv.block {s : State} (hs : RunInv s) (h9 : 9 ≤ stage s.seq.phase) (h13 : stage s.seq.phase ≤ 13) :
    Padded s ∧ (∃ h, s.hash = some h) ∧ s.seq.blk.toNat < blockCount s.len.toNat :=
  ⟨hs.padded (by omega), hs.hashed h9, hs.inBlock h9 h13⟩

/-- From PZERO on `PLEN` is the padded length, as a number. -/
theorem RunInv.plen_toNat {s : State} (hs : RunInv s) (h : 3 ≤ stage s.seq.phase) :
    ∃ p, s.plen = some p ∧ p.toNat = padLen s.len.toNat :=
  ⟨_, (hs.lengths h).1, BitVec.toNat_ofNat _ _ ▸ Nat.mod_eq_of_lt (padLen_lt (hs.lenChecked (by omega)).2).1⟩

/-- From PZERO on `NBLK` is the block count, as a number. -/
theorem RunInv.nblk_toNat {s : State} (hs : RunInv s) (h : 3 ≤ stage s.seq.phase) :
    ∃ nb, s.nblk = some nb ∧ nb.toNat = blockCount s.len.toNat :=
  ⟨_, (hs.lengths h).2, BitVec.toNat_ofNat _ _ ▸ Nat.mod_eq_of_lt (padLen_lt (hs.lenChecked (by omega)).2).2⟩

/-- From PTERM on: the message is padded, and the rest is what the phase asks. -/
theorem RunInv.of_padded {s : State} (hs : Padded s) (hd : s.status.done = false)
    (h5 : 5 ≤ stage s.seq.phase := by simp)
    (hx : idxInRange s.seq.phase s.seq.idx.toNat := by simp [idxInRange])
    (hh : 9 ≤ stage s.seq.phase → ∃ h, s.hash = some h := by simp)
    (hi : 9 ≤ stage s.seq.phase → stage s.seq.phase ≤ 13 → s.seq.blk.toNat < blockCount s.len.toNat := by simp)
    (ha : s.seq.phase = .emit → s.seq.blk.toNat = blockCount s.len.toNat := by simp)
    (he : s.seq.phase = .wld ∨ s.seq.phase = .wex → schedFilled s s.seq.idx.toNat := by simp)
    (hw : s.seq.phase = .rld ∨ s.seq.phase = .rnd → schedFilled s 64 := by simp)
    (hr : s.seq.phase = .rnd ∨ s.seq.phase = .ffw → ∃ r, s.regs = some r := by simp) : RunInv s where
  idxRange := hx
  lenChecked _ := hs.len
  lengths _ := hs.counts
  unallocated h := by omega
  allocated _ := by
    obtain ⟨b, hb, hsz, hf⟩ := hs.buffer
    exact ⟨b, hb, hsz, fun k _ hk => hf k (Nat.zero_le k) hk⟩
  copied _ b hb := by
    obtain ⟨c, hc, -, hf⟩ := hs.buffer
    cases hc.symm.trans hb
    exact hf
  hashed := hh
  inBlock := hi
  afterBlocks := ha
  expanding := he
  expanded := hw
  loaded := hr
  finished h := by simp [hd] at h

/-! ## Fault entry, the port's moves -/

theorem RunInv.raise {s : State} {c : Cause} (he : s.status.err = false) : RunInv (raise c s) := by
  rw [raise_of_not_err he]
  exact .of_idle rfl rfl rfl (by simp [dropResults, dropSched, faultFlags])

theorem RunInv.start {s : State} (hs : RunInv s) (hi : s.seq.phase = .idle) : RunInv (startRun s) := by
  have hu := hs.unallocated (by simp [hi])
  unfold startRun
  exact .of_padder rfl rfl (by simp) (hu := fun _ => hu)

theorem RunInv.setLen {s : State} (hs : RunInv s) (hi : s.seq.phase = .idle) (v : Quad) : RunInv (s.setLen v) := by
  have hx := hs.idxRange
  simp only [hi, idxInRange] at hx
  exact .of_idle hi (BitVec.eq_of_toNat_eq hx) (hs.unallocated (by simp [hi])) hs.finished

/-! ## The padder -/

section
variable {s t : State} (hs : RunInv s) (hd : s.status.done = false)
include hs hd

theorem RunInv.chk (hp : s.seq.phase = .chk) (he : s.status.err = false) (h : execChk s = .next t) : RunInv t := by
  have hu := hs.unallocated (by simp [hp])
  obtain ⟨-, rfl⟩ | ⟨-, rfl⟩ | ⟨h1, h2, rfl⟩ := execChk_next h
  · exact .raise he
  · exact .raise he
  · exact .of_padder hd rfl (by simp) (hl := fun _ => ⟨h1, h2⟩) (hu := fun _ => hu)

theorem RunInv.plen (hp : s.seq.phase = .plen) (h : execPlen s = .next t) : RunInv t := by
  have hl := hs.lenChecked (by simp [hp])
  have hu := hs.unallocated (by simp [hp])
  cases h
  exact .of_padder hd rfl (by simp) (hl := fun _ => hl) (hn := fun _ => ⟨congrArg some (plenValue_of_lt hl.2), rfl⟩)
    (hu := fun _ => hu)

theorem RunInv.pzero (hp : s.seq.phase = .pzero) (he : s.status.err = false) (h : execPzero s = .next t) :
    RunInv t := by
  have hl := hs.lenChecked (by simp [hp])
  have hn := hs.lengths (by simp [hp])
  obtain ⟨p, hpl, hsz⟩ := hs.plen_toNat (by simp [hp])
  obtain ⟨nb, -, ⟨-, rfl⟩ | ⟨-, q, hq, rfl⟩⟩ := execPzero_next h
  · exact .raise he
  · cases hpl.symm.trans hq
    refine .of_padder hd rfl (by simp) (hl := fun _ => hl) (hn := fun _ => hn) (ha := fun _ => ⟨_, rfl, hsz, ?_⟩)
    intro k h1 h2
    rw [memGet_allocZeroed, if_pos ⟨h1, h2⟩]
    rfl

theorem RunInv.pcopy (hp : s.seq.phase = .pcopy) (h : execPcopy s = .next t) : RunInv t := by
  have hl := hs.lenChecked (by simp [hp])
  have hn := hs.lengths (by simp [hp])
  obtain ⟨b, hb, hsz, hf⟩ := hs.allocated (by simp [hp])
  obtain ⟨c, hc, -, rfl⟩ := execPcopy_next h
  cases hc.symm.trans hb
  refine .of_padded ⟨hl, hn, _, rfl, hsz, ?_⟩ hd
  intro k _ hk
  rw [memGet_memPut, msgBytes_length, msgBytes_getElem?]
  by_cases hkl : k < s.len.toNat
  · simp [hkl]
  · rw [if_neg (by omega)]
    exact hf k (by omega) hk

theorem RunInv.pterm (hp : s.seq.phase = .pterm) (h : execPterm s = .next t) : RunInv t := by
  obtain ⟨hl, hn, b, hb, hsz, hf⟩ := hs.padded (by simp [hp])
  obtain ⟨c, hc, -, rfl⟩ := execPterm_next h
  cases hc.symm.trans hb
  exact .of_padded ⟨hl, hn, _, rfl, hsz, filledFrom_memPut hf rfl _ _⟩ hd

theorem RunInv.plenw (hp : s.seq.phase = .plenw) (h : execPlenw s = .next t) : RunInv t := by
  obtain ⟨hl, hn, b, hb, hsz, hf⟩ := hs.padded (by simp [hp])
  obtain ⟨p, c, -, hc, -, -, rfl⟩ := execPlenw_next h
  cases hc.symm.trans hb
  exact .of_padded ⟨hl, hn, _, rfl, hsz, filledFrom_memPut hf rfl _ _⟩ hd

theorem RunInv.pseg (hp : s.seq.phase = .pseg) (he : s.status.err = false) (h : execPseg s = .next t) : RunInv t := by
  obtain ⟨hl, hn, hb⟩ := hs.padded (by simp [hp])
  obtain ⟨p, nb, -, -, ⟨-, rfl⟩ | ⟨-, -, -, rfl⟩⟩ := execPseg_next h
  · exact .raise he
  · exact .of_padded ⟨hl, hn, hb⟩ hd

theorem RunInv.hinit (hp : s.seq.phase = .hinit) (h : execHinit s = .next t) : RunInv t := by
  obtain ⟨hl, hn, hb⟩ := hs.padded (by simp [hp])
  cases h
  exact .of_padded ⟨hl, hn, hb⟩ hd (hi := fun _ _ => blockCount_pos _) (he := fun _ => schedFilled_zero _)

/-! ## The expander and the compressor -/

theorem RunInv.wld (hp : s.seq.phase = .wld) (h : execWld s.seq.idx s.seq.blk s = .next t) : RunInv t := by
  obtain ⟨⟨hl, hn, hb⟩, hh, hi⟩ := hs.block (by simp [hp]) (by simp [hp])
  obtain ⟨h15, x, -, rfl⟩ := execWld_next h
  have hw := schedFilled_writeSched (hs.expanding (.inl hp)) (by omega) x
  unfold afterWld
  split
  · have e := toNat_succ (x := s.seq.idx) (by omega)
    rw [← e] at hw
    exact .of_padded ⟨hl, hn, hb⟩ hd (hx := by simp only [goTo_seq, idxInRange]; omega)
      (hh := fun _ => hh) (hi := fun _ _ => hi) (he := fun _ => hw)
  · rw [show s.seq.idx.toNat + 1 = 16 by omega] at hw
    exact .of_padded ⟨hl, hn, hb⟩ hd (hh := fun _ => hh) (hi := fun _ _ => hi) (he := fun _ => hw)

theorem RunInv.wex (hp : s.seq.phase = .wex) (h : execWex s.seq.idx s.seq.blk s = .next t) : RunInv t := by
  obtain ⟨⟨hl, hn, hb⟩, hh, hi⟩ := hs.block (by simp [hp]) (by simp [hp])
  obtain ⟨⟨h16, h63⟩, w16, w15, w7, w2, -, -, -, -, rfl⟩ := execWex_next h
  have hw := schedFilled_writeSched (hs.expanding (.inr hp)) (by omega) (schedNext w16 w15 w7 w2)
  unfold afterWex
  split
  · have e := toNat_succ (x := s.seq.idx) (by omega)
    rw [← e] at hw
    exact .of_padded ⟨hl, hn, hb⟩ hd (hx := by simp only [goTo_seq, idxInRange]; omega)
      (hh := fun _ => hh) (hi := fun _ _ => hi) (he := fun _ => hw)
  · rw [show s.seq.idx.toNat + 1 = 64 by omega] at hw
    exact .of_padded ⟨hl, hn, hb⟩ hd (hh := fun _ => hh) (hi := fun _ _ => hi) (hw := fun _ => hw)

theorem RunInv.rld (hp : s.seq.phase = .rld) (h : execRld s.seq.blk s = .next t) : RunInv t := by
  obtain ⟨⟨hl, hn, hb⟩, hh, hi⟩ := hs.block (by simp [hp]) (by simp [hp])
  have hw := hs.expanded (.inl hp)
  obtain ⟨v, -, rfl⟩ := execRld_next h
  exact .of_padded ⟨hl, hn, hb⟩ hd (hh := fun _ => hh) (hi := fun _ _ => hi) (hw := fun _ => hw)

theorem RunInv.rnd (hp : s.seq.phase = .rnd) (h : execRnd s.seq.idx s.seq.blk s = .next t) : RunInv t := by
  obtain ⟨⟨hl, hn, hb⟩, hh, hi⟩ := hs.block (by simp [hp]) (by simp [hp])
  have hw := hs.expanded (.inr hp)
  obtain ⟨h63, r, w, -, -, rfl⟩ := execRnd_next h
  unfold afterRnd
  split
  · have e := toNat_succ (x := s.seq.idx) (by omega)
    exact .of_padded ⟨hl, hn, hb⟩ hd (hx := by simp only [goTo_seq, idxInRange]; omega)
      (hh := fun _ => hh) (hi := fun _ _ => hi) (hw := fun _ => hw)
  · exact .of_padded ⟨hl, hn, hb⟩ hd (hh := fun _ => hh) (hi := fun _ _ => hi)

theorem RunInv.ffw (hp : s.seq.phase = .ffw) (h : execFfw s.seq.blk s = .next t) : RunInv t := by
  obtain ⟨hl, hn, hb⟩ := hs.padded (by simp [hp])
  obtain ⟨nb, hnb, hsz⟩ := hs.nblk_toNat (by simp [hp])
  obtain ⟨v, r, n, -, -, hn', hc⟩ := execFfw_next h
  cases hnb.symm.trans hn'
  rw [hsz] at hc
  have e : (s.seq.blk + 1).toNat = s.seq.blk.toNat + 1 := toNat_succ (by omega)
  obtain ⟨hlt, rfl⟩ | ⟨heq, rfl⟩ := hc
  · rw [← e] at hlt
    exact .of_padded ⟨hl, hn, hb⟩ hd (hh := fun _ => ⟨_, rfl⟩) (hi := fun _ _ => hlt) (he := fun _ => schedFilled_zero _)
  · rw [← e] at heq
    exact .of_padded ⟨hl, hn, hb⟩ hd (hh := fun _ => ⟨_, rfl⟩) (ha := fun _ => heq)

omit hd in
theorem RunInv.emit (hp : s.seq.phase = .emit) (h : execEmit s.seq.blk s = .next t) : RunInv t := by
  have hh := hs.hashed (by simp [hp])
  have hi := hs.afterBlocks hp
  obtain ⟨p, hpl, hp'⟩ := hs.plen_toNat (by simp [hp])
  obtain ⟨nb, hnb, hn'⟩ := hs.nblk_toNat (by simp [hp])
  cases h
  refine .of_idle rfl rfl rfl fun _ => ⟨hh, nb, hnb, BitVec.eq_of_toNat_eq (hi.trans hn'.symm), ?_, p, hpl, ?_⟩
  · rw [hn']
    exact blockCount_pos _
  · rw [hp', hn', padLen_eq_blocks]

end

/-! ## Every move -/

theorem RunInv.sequencer {s t : State} (hi : StatusInv s) (hs : RunInv s) (h : seqStep s = .next t) : RunInv t := by
  have hd : s.seq.phase ≠ .idle → s.status.done = false := hi.not_done
  have he : s.seq.phase ≠ .idle → s.status.err = false := hi.not_err
  obtain ⟨hp, rfl⟩ | ⟨hp, h⟩ | ⟨hp, h⟩ | ⟨hp, h⟩ | ⟨hp, h⟩ | ⟨hp, h⟩ | ⟨hp, h⟩ | ⟨hp, h⟩ | ⟨hp, h⟩ | ⟨hp, h⟩ |
    ⟨hp, h⟩ | ⟨hp, h⟩ | ⟨hp, h⟩ | ⟨hp, h⟩ | ⟨hp, h⟩ := seqStep_next h
  case inl => exact hs
  all_goals
    replace hd := hd (by simp [hp])
    replace he := he (by simp [hp])
  · exact hs.chk hd hp he h
  · exact hs.plen hd hp h
  · exact hs.pzero hd hp he h
  · exact hs.pcopy hd hp h
  · exact hs.pterm hd hp h
  · exact hs.plenw hd hp h
  · exact hs.pseg hd hp he h
  · exact hs.hinit hd hp h
  · exact hs.wld hd hp h
  · exact hs.wex hd hp h
  · exact hs.rld hd hp h
  · exact hs.rnd hd hp h
  · exact hs.ffw hd hp h
  · exact hs.emit hp h

theorem runInv_kept : KeptByMoves fun s => StatusInv s ∧ RunInv s where
  inputs v hs := ⟨statusInv_kept.inputs v hs.1, { hs.2 with }⟩
  outputs r n hs := ⟨statusInv_kept.outputs r n hs.1, { hs.2 with }⟩
  sequencer hs h := ⟨statusInv_kept.sequencer hs.1 h, hs.2.sequencer hs.1 h⟩
  fault hc he hs := ⟨statusInv_kept.fault hc he hs.1, .raise he⟩
  start hr hs := ⟨statusInv_kept.start hr hs.1, hs.2.start (hs.1.phase_idle hr.1)⟩
  wrlen v hr hs := ⟨statusInv_kept.wrlen v hr hs.1, hs.2.setLen (hs.1.phase_idle hr.1) v⟩
  message hs h := by
    refine ⟨statusInv_kept.message hs.1 h, ?_⟩
    obtain ⟨rfl, -⟩ := hostWriteMsg_next h
    exact { hs.2 with }
  reset hs := ⟨statusInv_kept.reset hs.1, .of_idle rfl rfl rfl (by simp [applyReset, State.reset, Status.reset])⟩

/-- Settles O57: each micro-operation leaves what the next one reads. -/
theorem runInvariantKept : Obligations.RunInvariantKept :=
  fun _ _ hi hs h => (runInv_kept.step ⟨hi, hs⟩ h).2

end Sys2Proof.Machine

/-!
PROOFS. The frames of the micro-operations (R43), one lemma each, and the sequencer register as an instruction word
(R82, R88).
-/

namespace Sys2Proof.Machine

/-! ## Micro-operations that store nothing in `PB` -/

section
variable {s t : State}

theorem execChk_frame (he : t.status.err = s.status.err) (h : execChk s = .next t) : t = s.setSeq t.seq := by
  obtain ⟨-, rfl⟩ | ⟨-, rfl⟩ | ⟨-, -, rfl⟩ := execChk_next h
  · rw [raise_eq_self he]; rfl
  · rw [raise_eq_self he]; rfl
  · rfl

theorem execPseg_frame (he : t.status.err = s.status.err) (h : execPseg s = .next t) : t = s.setSeq t.seq := by
  obtain ⟨p, nb, -, -, ⟨-, rfl⟩ | ⟨-, -, -, rfl⟩⟩ := execPseg_next h
  · rw [raise_eq_self he]; rfl
  · rfl

theorem execPlen_frame (h : execPlen s = .next t) : t = ((s.setPlen t.plen).setNblk t.nblk).setSeq t.seq := by
  cases h; rfl

theorem execHinit_frame (h : execHinit s = .next t) : t = (s.setHash t.hash).setSeq t.seq := by
  cases h; rfl

theorem readSched_writeSched_other {j k : Nat} (h : k ≠ j) (x : Word) :
    readSched (writeSched j x s) k = readSched s k := by
  rw [readSched_writeSched, if_neg fun e => h e.1]

theorem execWld_frame {j : BitVec 7} {blk : Quad} (h : execWld j blk s = .next t) :
    t = (s.setSched t.sched).setSeq t.seq ∧ ∀ k, k ≠ j.toNat → readSched t k = readSched s k := by
  obtain ⟨-, x, -, rfl⟩ := execWld_next h
  unfold afterWld
  split <;> exact ⟨rfl, fun k hk => readSched_writeSched_other hk x⟩

theorem execWex_frame {j : BitVec 7} {blk : Quad} (h : execWex j blk s = .next t) :
    t = (s.setSched t.sched).setSeq t.seq ∧ ∀ k, k ≠ j.toNat → readSched t k = readSched s k := by
  obtain ⟨-, w16, w15, w7, w2, -, -, -, -, rfl⟩ := execWex_next h
  unfold afterWex
  split <;> exact ⟨rfl, fun k hk => readSched_writeSched_other hk _⟩

theorem execRld_frame {blk : Quad} (h : execRld blk s = .next t) : t = (s.setRegs t.regs).setSeq t.seq := by
  obtain ⟨v, -, rfl⟩ := execRld_next h
  rfl

theorem execRnd_frame {j : BitVec 7} {blk : Quad} (h : execRnd j blk s = .next t) :
    t = (s.setRegs t.regs).setSeq t.seq := by
  obtain ⟨-, r, w, -, -, rfl⟩ := execRnd_next h
  unfold afterRnd
  split <;> rfl

/-- FFW leaves no word of `W` with a value (log 10). -/
theorem execFfw_frame {blk : Quad} (h : execFfw blk s = .next t) :
    t = ((s.setHash t.hash).setSched (Vector.replicate 64 none)).setSeq t.seq := by
  obtain ⟨v, r, nb, -, -, -, ⟨-, rfl⟩ | ⟨-, rfl⟩⟩ := execFfw_next h
  · rfl
  · rfl

/-- What the core reads from `PB` depends on `PB` alone. -/
theorem readPbByte_congr (h : t.pb = s.pb) (a : Nat) : readPbByte t a = readPbByte s a := by
  simp [readPbByte, h]

/-- Where `PB` and `MSG` are as before, so is every byte read from them. -/
theorem bytes_kept {u : State} (e : t = u) (hp : u.pb = s.pb) (hm : u.msg = s.msg) (a : Nat) :
    readPbByte t a = readPbByte s a ∧ msgByteAt t a = msgByteAt s a := by
  subst e
  exact ⟨readPbByte_congr hp a, by rw [msgByteAt_congr hm]⟩

end

/-- Settles O48: the frame of each micro-operation, and `PB` and `MSG` untouched by all of them. -/
theorem framesOfMicroOpsThatStoreNothing : Obligations.FramesOfMicroOpsThatStoreNothing := by
  intro s t j blk he
  refine ⟨?_, execPlen_frame, execHinit_frame, ?_, ?_, execFfw_frame, ?_⟩
  · rintro (h | h)
    · exact execChk_frame he h
    · exact execPseg_frame he h
  · rintro (h | h)
    · exact execWld_frame h
    · exact execWex_frame h
  · rintro (h | h)
    · exact execRld_frame h
    · exact execRnd_frame h
  · rintro (h | h | h | h | h | h | h | h | h)
    · exact bytes_kept (execChk_frame he h) rfl rfl
    · exact bytes_kept (execPseg_frame he h) rfl rfl
    · exact bytes_kept (execPlen_frame h) rfl rfl
    · exact bytes_kept (execHinit_frame h) rfl rfl
    · exact bytes_kept (execWld_frame h).1 rfl rfl
    · exact bytes_kept (execWex_frame h).1 rfl rfl
    · exact bytes_kept (execRld_frame h) rfl rfl
    · exact bytes_kept (execRnd_frame h) rfl rfl
    · exact bytes_kept (execFfw_frame h) rfl rfl

/-! ## Micro-operations that store in `PB` -/

section
variable {s t : State}

/-- A write into the buffer leaves every byte outside it as it was. -/
theorem readPbByte_write_outside {b : PadBuf} (hb : s.pb = some b) {a k : Nat} {bs : List Byte}
    (ht : t.pb = some ⟨b.size, memPut b.cells a bs⟩) (hk : k < a ∨ a + bs.length ≤ k) :
    readPbByte t k = readPbByte s k := by
  simp [readPbByte, hb, ht, memGet_memPut_outside _ _ _ hk]

theorem execPzero_frame (he : t.status.err = s.status.err) (ht : t.status.err = false) (h : execPzero s = .next t) :
    t = (s.setPb t.pb).setSeq t.seq ∧ ∀ p a, s.plen = some p → ¬ (s.len.toNat ≤ a ∧ a < p.toNat) →
      readPbByte t a = if a < p.toNat then .error (.noValue (.padByte a)) else .error (.pbAddress a) := by
  obtain ⟨nb, -, ⟨-, rfl⟩ | ⟨-, p, hp, rfl⟩⟩ := execPzero_next h
  · simp at ht
  · refine ⟨rfl, fun q a hq ha => ?_⟩
    cases hp.symm.trans hq
    have hn : memGet (allocZeroed s.len.toNat p.toNat).cells a = none := by rw [memGet_allocZeroed, if_neg ha]
    simp [readPbByte, hn, valueOf, show (allocZeroed s.len.toNat p.toNat).size = p.toNat from rfl]

theorem execPcopy_frame (h : execPcopy s = .next t) :
    t = (s.setPb t.pb).setSeq t.seq ∧ ∀ a, s.len.toNat ≤ a → readPbByte t a = readPbByte s a := by
  obtain ⟨b, hb, -, rfl⟩ := execPcopy_next h
  exact ⟨rfl, fun a ha => readPbByte_write_outside hb rfl (.inr (by simpa using ha))⟩

theorem execPterm_frame (h : execPterm s = .next t) :
    t = (s.setPb t.pb).setSeq t.seq ∧ ∀ a, a ≠ s.len.toNat → readPbByte t a = readPbByte s a := by
  obtain ⟨b, hb, -, rfl⟩ := execPterm_next h
  exact ⟨rfl, fun a ha => readPbByte_write_outside hb rfl (by rw [List.length_singleton]; omega)⟩

theorem execPlenw_frame (h : execPlenw s = .next t) :
    t = (s.setPb t.pb).setSeq t.seq ∧
    ∀ p a, s.plen = some p → ¬ (p.toNat - 8 ≤ a ∧ a < p.toNat) → readPbByte t a = readPbByte s a := by
  obtain ⟨p, b, hp, hb, h8, -, rfl⟩ := execPlenw_next h
  refine ⟨rfl, fun q a hq ha => readPbByte_write_outside hb rfl ?_⟩
  cases hp.symm.trans hq
  have : (be64 (lengthField s.len.toNat)).length = 8 := rfl
  omega

end

/-- Settles O49: each write into `PB` reads as before outside its bytes. -/
theorem framesOfMicroOpsThatStore : Obligations.FramesOfMicroOpsThatStore :=
  fun _ _ _ he => ⟨fun h ht => execPzero_frame he ht h, execPcopy_frame, execPterm_frame, execPlenw_frame⟩

/-! ## The sequencer register as an instruction word -/

theorem seqWord_idx (c : BitVec 4) (idx : BitVec 7) (blk : Quad) : (seqWord c idx blk).idx = idx := by
  change (blk ++ idx ++ c : BitVec (64 + 7 + 4)).extractLsb' 4 7 = idx
  apply BitVec.eq_of_getLsbD_eq
  intro i hi
  simp only [BitVec.getLsbD_extractLsb', BitVec.getLsbD_append, show ¬ 4 + i < 4 by omega, hi,
    Nat.add_sub_cancel_left, decide_true, Bool.true_and, if_true, if_false]

theorem seqWord_blk (c : BitVec 4) (idx : BitVec 7) (blk : Quad) : (seqWord c idx blk).blk = blk := by
  change (blk ++ idx ++ c : BitVec (64 + 7 + 4)).extractLsb' 11 64 = blk
  apply BitVec.eq_of_getLsbD_eq
  intro i hi
  simp only [BitVec.getLsbD_extractLsb', BitVec.getLsbD_append, hi, show ¬ 11 + i < 4 by omega,
    show ¬ 11 + i - 4 < 7 by omega, show 11 + i - 4 - 7 = i by omega, decide_true, Bool.true_and, if_false]

theorem phaseOfCode_phaseCode (p : Phase) : phaseOfCode (phaseCode p) = some p := by cases p <;> rfl

/-- The word of a sequencer register decodes as the register does. -/
theorem decode_seqWord (q : Seq) : decode (.seq (seqWord (phaseCode q.phase) q.idx q.blk)) = fetchSeq q := by
  simp only [decode, decodeSeq, seqWord_phase, seqWord_idx, seqWord_blk, phaseOfCode_phaseCode, fetchSeq]

/-- With the host off the port a step is the sequencer's. -/
theorem step_of_pass {s : State} (h : nextMove s = .pass) : step s = seqStep (takeMove s) := by
  unfold step; rw [h]

/-- Settles O7: the register is its own word, and the host passes. -/
theorem stepRunsTheMicroOperation : Obligations.StepRunsTheMicroOperation := by
  intro s hm
  have hm : nextMove s = .pass := by
    obtain hm | ⟨rest, hm⟩ := hm <;> simp [nextMove, hm]
  rw [step_of_pass hm]
  refine ⟨fun i hi => ?_, fun hp => ?_⟩
  · rw [decode_seqWord] at hi
    change fetchSeq (takeMove s).seq = .ok i at hi
    rw [seqStep, hi]
    rfl
  · have hi : fetchSeq (takeMove s).seq = .error .idle := by
      change decodeSeqFields s.seq.phase s.seq.idx s.seq.blk = _
      rw [hp]
      rfl
    rw [seqStep, hi]
    rfl

end Sys2Proof.Machine

/-!
PROOFS. Progress: under the status and run invariants every read finds a value, so every step answers but for a write
of `MSG` (R21, R43, R60, R294).
-/

namespace Sys2Proof.Machine

/-! ## The micro-operations answer -/

section
variable {s : State}

/-- A write inside the buffer answers. -/
theorem writePb_answers {b : PadBuf} (hb : s.pb = some b) {a : Nat} {bs : List Byte} (hl : a + bs.length ≤ b.size)
    (p : Phase) : ∃ t, (orFault (writePb s a bs) fun c => .next (goTo p 0 0 (s.setPb (some c)))) = .next t :=
  ⟨_, orFault_next_iff.2 ⟨_, writePb_ok_iff.2 ⟨b, hb, hl, rfl⟩, rfl⟩⟩

/-- Every byte of the padded message reads. -/
theorem Padded.readPbByte (hs : Padded s) {a : Nat} (ha : a < padLen s.len.toNat) : ∃ x, readPbByte s a = .ok x := by
  obtain ⟨-, -, b, hb, hsz, hf⟩ := hs
  rw [← hsz] at ha
  obtain ⟨x, hx⟩ := Option.isSome_iff_exists.1 (hf a (Nat.zero_le a) ha)
  exact ⟨x, readPbByte_ok_iff.2 ⟨b, hb, ha, hx⟩⟩

/-- Every word of the padded message reads. -/
theorem Padded.readPbWord (hs : Padded s) {a : Nat} (ha : a + 3 < padLen s.len.toNat) :
    ∃ x, readPbWord s a = .ok x := by
  obtain ⟨b0, h0⟩ := hs.readPbByte (a := a) (by omega)
  obtain ⟨b1, h1⟩ := hs.readPbByte (a := a + 1) (by omega)
  obtain ⟨b2, h2⟩ := hs.readPbByte (a := a + 2) (by omega)
  obtain ⟨b3, h3⟩ := hs.readPbByte (a := a + 3) (by omega)
  exact ⟨_, readPbWord_ok_iff.2 ⟨b0, b1, b2, b3, h0, h1, h2, h3, rfl⟩⟩

theorem execChk_answers (s : State) : ∃ t, execChk s = .next t := by
  unfold execChk
  split
  · exact ⟨_, rfl⟩
  · split <;> exact ⟨_, rfl⟩

variable (hs : RunInv s)
include hs

theorem RunInv.pzero_answers (hp : s.seq.phase = .pzero) : ∃ t, execPzero s = .next t := by
  obtain ⟨nb, hnb, -⟩ := hs.nblk_toNat (by simp [hp])
  obtain ⟨p, hpl, -⟩ := hs.plen_toNat (by simp [hp])
  rw [execPzero, readNblk_ok_iff.2 hnb, orFault_ok]
  split
  · exact ⟨_, rfl⟩
  · exact ⟨_, orFault_next_iff.2 ⟨_, readPlen_ok_iff.2 ⟨p, hpl, rfl⟩, rfl⟩⟩

theorem RunInv.pcopy_answers (hp : s.seq.phase = .pcopy) : ∃ t, execPcopy s = .next t := by
  obtain ⟨b, hb, hsz, -⟩ := hs.allocated (by simp [hp])
  have := padLen_room s.len.toNat
  exact writePb_answers hb (by rw [msgBytes_length]; omega) _

theorem RunInv.pterm_answers (hp : s.seq.phase = .pterm) : ∃ t, execPterm s = .next t := by
  obtain ⟨b, hb, hsz, -⟩ := hs.allocated (by simp [hp])
  have := padLen_room s.len.toNat
  exact writePb_answers hb (by rw [List.length_singleton]; omega) _

theorem RunInv.plenw_answers (hp : s.seq.phase = .plenw) : ∃ t, execPlenw s = .next t := by
  obtain ⟨b, hb, hsz, -⟩ := hs.allocated (by simp [hp])
  obtain ⟨p, hpl, hp'⟩ := hs.plen_toNat (by simp [hp])
  have := padLen_room s.len.toNat
  rw [execPlenw, readPlen_ok_iff.2 ⟨p, hpl, rfl⟩, orFault_ok, if_neg (by omega)]
  have : (be64 (lengthField s.len.toNat)).length = 8 := rfl
  exact writePb_answers hb (by omega) _

theorem RunInv.pseg_answers (hp : s.seq.phase = .pseg) : ∃ t, execPseg s = .next t := by
  obtain ⟨nb, hnb, -⟩ := hs.nblk_toNat (by simp [hp])
  obtain ⟨p, hpl, -⟩ := hs.plen_toNat (by simp [hp])
  rw [execPseg, readPlen_ok_iff.2 ⟨p, hpl, rfl⟩, orFault_ok, readNblk_ok_iff.2 hnb, orFault_ok]
  split <;> exact ⟨_, rfl⟩

theorem RunInv.wld_answers (hp : s.seq.phase = .wld) (hx : s.seq.idx.toNat ≤ 15) :
    ∃ t, execWld s.seq.idx s.seq.blk s = .next t := by
  obtain ⟨hpad, -, hi⟩ := hs.block (by simp [hp]) (by simp [hp])
  obtain ⟨x, hw⟩ := hpad.readPbWord (a := blockWordAddr s.seq.blk.toNat s.seq.idx.toNat)
    (by rw [padLen_eq_blocks, blockWordAddr]; omega)
  rw [execWld, if_pos hx]
  exact ⟨_, orFault_next_iff.2 ⟨x, hw, rfl⟩⟩

theorem RunInv.wex_answers (hp : s.seq.phase = .wex) (hx : 16 ≤ s.seq.idx.toNat ∧ s.seq.idx.toNat ≤ 63) :
    ∃ t, execWex s.seq.idx s.seq.blk s = .next t := by
  have hw := hs.expanding (.inr hp)
  obtain ⟨w16, h16⟩ := hw (s.seq.idx.toNat - 16) (by omega)
  obtain ⟨w15, h15⟩ := hw (s.seq.idx.toNat - 15) (by omega)
  obtain ⟨w7, h7⟩ := hw (s.seq.idx.toNat - 7) (by omega)
  obtain ⟨w2, h2⟩ := hw (s.seq.idx.toNat - 2) (by omega)
  rw [execWex, if_pos hx, h16, orFault_ok, h15, orFault_ok, h7, orFault_ok, h2]
  exact ⟨_, rfl⟩

theorem RunInv.rld_answers (hp : s.seq.phase = .rld) : ∃ t, execRld s.seq.blk s = .next t := by
  obtain ⟨v, hv⟩ := hs.hashed (by simp [hp])
  exact ⟨_, orFault_next_iff.2 ⟨v, readHash_ok_iff.2 hv, rfl⟩⟩

theorem RunInv.rnd_answers (hp : s.seq.phase = .rnd) (hx : s.seq.idx.toNat ≤ 63) :
    ∃ t, execRnd s.seq.idx s.seq.blk s = .next t := by
  obtain ⟨r, hr⟩ := hs.loaded (.inl hp)
  obtain ⟨w, hw⟩ := hs.expanded (.inr hp) s.seq.idx.toNat (by omega)
  rw [execRnd, if_pos hx, readRegs_ok_iff.2 hr, orFault_ok, hw]
  exact ⟨_, rfl⟩

theorem RunInv.ffw_answers (hp : s.seq.phase = .ffw) : ∃ t, execFfw s.seq.blk s = .next t := by
  obtain ⟨-, ⟨v, hv⟩, hi⟩ := hs.block (by simp [hp]) (by simp [hp])
  obtain ⟨r, hr⟩ := hs.loaded (.inr hp)
  obtain ⟨nb, hnb, hn⟩ := hs.nblk_toNat (by simp [hp])
  rw [execFfw, readHash_ok_iff.2 hv, orFault_ok, readRegs_ok_iff.2 hr, orFault_ok, readNblk_ok_iff.2 hnb, orFault_ok]
  split
  · exact ⟨_, rfl⟩
  · rw [if_pos (by omega)]
    exact ⟨_, rfl⟩

/-- The register names a micro-operation unless it rests: outside WLD, WEX and RND the index is 0 (R26). -/
theorem RunInv.seqStep_answers : ∃ t, seqStep s = .next t := by
  have hx := hs.idxRange
  unfold seqStep fetchSeq decodeSeqFields
  cases hp : s.seq.phase <;> simp only [hp, idxInRange] at hx ⊢
  case idle => exact ⟨s, rfl⟩
  case wld => exact hs.wld_answers hp hx
  case wex => exact hs.wex_answers hp hx
  case rnd => exact hs.rnd_answers hp hx
  all_goals rw [plainMicroOp, if_pos (BitVec.eq_of_toNat_eq hx)]
  · exact execChk_answers s
  · exact ⟨_, rfl⟩
  · exact hs.pzero_answers hp
  · exact hs.pcopy_answers hp
  · exact hs.pterm_answers hp
  · exact hs.plenw_answers hp
  · exact hs.pseg_answers hp
  · exact ⟨_, rfl⟩
  · exact hs.rld_answers hp
  · exact hs.ffw_answers hp
  · exact ⟨_, rfl⟩

end

/-! ## The transactions answer -/

theorem controlWrite_answers (k : State → State) (s : State) : ∃ t, controlWrite k s = .next t := by
  obtain ⟨-, e⟩ | ⟨-, -, e⟩ | ⟨-, -, e⟩ := controlWrite_cases k s <;> exact ⟨_, e⟩

theorem resultRead_answers {k : State → Result} {s : State} (h : s.status.done = true → ∃ t, k s = .next t) :
    ∃ t, resultRead k s = .next t := by
  obtain ⟨-, e⟩ | ⟨-, -, e⟩ | ⟨-, -, -, e⟩ | ⟨-, -, hd, e⟩ := resultRead_cases k s
  · exact ⟨_, e⟩
  · exact ⟨_, e⟩
  · exact ⟨_, e⟩
  · rw [e]
    exact h hd

theorem RunInv.exec_answers {s : State} (hs : RunInv s) {i : Instr} (hi : isTransaction i = true) :
    ∃ t, exec i s = .next t := by
  cases i with
  | start => exact controlWrite_answers _ s
  | wrlen v => exact controlWrite_answers _ s
  | rdstatus => exact ⟨_, rfl⟩
  | rdlen => exact ⟨_, rfl⟩
  | rdnblk =>
    refine resultRead_answers fun hd => ?_
    obtain ⟨-, nb, hnb, -⟩ := hs.finished hd
    exact ⟨_, orFault_next_iff.2 ⟨nb, readNblk_ok_iff.2 hnb, rfl⟩⟩
  | rddig k =>
    refine resultRead_answers fun hd => ?_
    obtain ⟨⟨v, hv⟩, -⟩ := hs.finished hd
    exact ⟨_, orFault_next_iff.2 ⟨v, readHash_ok_iff.2 hv, rfl⟩⟩
  | illegalCmd _ => exact ⟨_, rfl⟩
  | illegalRdcmd => exact ⟨_, rfl⟩
  | illegalWrstatus _ => exact ⟨_, rfl⟩
  | illegalWrnblk _ => exact ⟨_, rfl⟩
  | illegalRes4to7 _ _ => exact ⟨_, rfl⟩
  | illegalWrdig _ _ => exact ⟨_, rfl⟩
  | illegalRes16to31 _ _ => exact ⟨_, rfl⟩
  | illegalRes32to63 _ _ => exact ⟨_, rfl⟩
  | _ => cases hi

/-- Settles O59: the sequencer's step, every transaction and reset answer. -/
theorem runsNeverReadWithoutValue : Obligations.RunsNeverReadWithoutValue := by
  intro s hi hs hm
  obtain ⟨-, hs'⟩ : StatusInv (takeMove s) ∧ RunInv (takeMove s) := runInv_kept.inputs _ ⟨hi, hs⟩
  unfold step
  split
  · exact hs'.seqStep_answers
  · exact hs'.exec_answers (decodeHost_isTransaction _)
  · exact absurd ‹_› (hm _ _)
  · exact ⟨_, rfl⟩

end Sys2Proof.Machine

/-!
PROOFS. The canonical form of both memories (R38, R50), kept by every move.
-/

namespace Sys2Proof.Machine

/-- A buffer in canonical form inside its addresses, or none. -/
def PbForm (o : Option PadBuf) : Prop := ∀ b, o = some b → Memory.wf b.cells = true ∧ ∀ c ∈ b.cells, c.1 < b.size

theorem memInv_iff (s : State) :
    MemInv s ↔ (Memory.wf s.msg = true ∧ ∀ c ∈ s.msg, c.1 < 2 ^ 64) ∧ PbForm s.pb :=
  (and_assoc).symm

theorem pbForm_none : PbForm none := by simp [PbForm]

theorem raise_pb_form {s : State} {c : Cause} (h : PbForm s.pb) : PbForm (raise c s).pb := by
  unfold raise
  split
  · exact h
  · exact pbForm_none

/-- An allocation and a write inside the buffer keep its form. -/
theorem PbUpdate.form {o o' : Option PadBuf} (h : PbUpdate o o') (ho : PbForm o) : PbForm o' := by
  cases h with
  | keep => exact ho
  | alloc _ l p =>
    rintro _ ⟨⟩
    refine ⟨allocZeroed_wf l p, fun c hc => ?_⟩
    have := mem_cellsFrom hc
    rw [List.length_replicate] at this
    change c.1 < p
    omega
  | write b a bs hl =>
    obtain ⟨hw, ha⟩ := ho b rfl
    rintro _ ⟨⟩
    refine ⟨memPut_wf hw a bs, fun c hc => ?_⟩
    obtain hc | hc := mem_memPut hc
    · exact ha c hc
    · change c.1 < b.size
      omega

theorem memInv_kept : KeptByMoves MemInv where
  inputs _ hs := hs
  outputs _ _ hs := hs
  sequencer {s t} hs h := by
    rw [memInv_iff] at hs ⊢
    obtain ⟨hm, hb⟩ := hs
    obtain ⟨-, rfl⟩ | ⟨-, ⟨c, -, rfl⟩ | ⟨-, h⟩ | h⟩ := seqStep_frame h
    · exact ⟨hm, hb⟩
    · exact ⟨by rwa [raise_msg], raise_pb_form hb⟩
    · cases h; exact ⟨hm, pbForm_none⟩
    · exact ⟨by rwa [h.msg], h.pb.form hb⟩
  fault {s c} _ he hs := by
    rw [memInv_iff] at hs ⊢
    rw [raise_of_not_err he]
    exact ⟨hs.1, pbForm_none⟩
  start _ hs := hs
  wrlen _ _ hs := hs
  message {s t a bs} hs h := by
    obtain ⟨hw, ha, hb⟩ := hs
    obtain ⟨rfl, hl, -⟩ := hostWriteMsg_next h
    refine ⟨memPut_wf hw _ _, fun c hc => ?_, hb⟩
    obtain hc | hc := mem_memPut hc
    · exact ha c hc
    · omega
  reset hs := by
    rw [memInv_iff] at hs ⊢
    exact ⟨hs.1, pbForm_none⟩

end Sys2Proof.Machine

/-!
PROOFS. What the small steps have computed so far (R144, R173, R194, R217): two ways to meet the digest invariant, then
one lemma per micro-operation; and every reachable state.
-/

namespace Sys2Proof.Machine

/-! ## The two ways to meet the invariant -/

/-- Before the buffer is allocated only a finished run's digest matters. -/
theorem DigestInv.of_unallocated {s : State} (h4 : stage s.seq.phase < 4)
    (hd : s.status.done = true → ∃ (m : Nat → Byte) (l : Nat), 1 ≤ l ∧ l < 2 ^ 61 ∧
      s.nblk = some (BitVec.ofNat 64 (blockCount l)) ∧ s.hash = some (hashMsg m l)) : DigestInv s where
  padded h := by omega
  folded h := by omega
  expanding h := by rcases h with h | h <;> simp [h] at h4
  expanded h := by rcases h with h | h <;> simp [h] at h4
  rounds h := by simp [h] at h4
  allRounds h := by simp [h] at h4
  digest := hd

/-- Inside a run: the buffer is at its stage, and the rest is what the phase asks. -/
theorem DigestInv.of_running {s : State} (hd : s.status.done = false)
    (hp : ∃ b, s.pb = some b ∧
      ∀ k, k < padLen s.len.toNat → memGet b.cells k = stagedByte (stage s.seq.phase) (msgByteAt s) s.len.toNat k)
    (hf : 9 ≤ stage s.seq.phase → s.hash = some (hashBlocks (msgByteAt s) s.len.toNat s.seq.blk.toNat) := by simp)
    (he : s.seq.phase = .wld ∨ s.seq.phase = .wex →
      ∀ t, t < s.seq.idx.toNat → readSched s t = .ok ((blockSched s).getD t 0) := by simp)
    (hw : s.seq.phase = .rld ∨ s.seq.phase = .rnd →
      ∀ t, t < 64 → readSched s t = .ok ((blockSched s).getD t 0) := by simp)
    (hr : s.seq.phase = .rnd → ∃ h, s.hash = some h ∧
      s.regs = some (roundsFrom (blockSched s) (loadRegs h) s.seq.idx.toNat) := by simp)
    (ha : s.seq.phase = .ffw → ∃ h, s.hash = some h ∧
      s.regs = some (roundsFrom (blockSched s) (loadRegs h) 64) := by simp) : DigestInv s where
  padded _ := hp
  folded := hf
  expanding := he
  expanded := hw
  rounds := hr
  allRounds := ha
  digest h := by simp [hd] at h

/-! ## Fault entry, the port's moves -/

theorem DigestInv.raise {s : State} {c : Cause} (he : s.status.err = false) : DigestInv (raise c s) := by
  rw [raise_of_not_err he]
  exact .of_unallocated (by simp [dropResults, dropSched]) (by simp [dropResults, dropSched, faultFlags])

/-- The invariant depends on the message's first `LEN` bytes alone. -/
theorem DigestInv.setMsg {s : State} (hs : DigestInv s) {v : Memory}
    (h : s.seq.phase = .idle ∨ ∀ k, k < s.len.toNat → msgByteAt (s.setMsg v) k = msgByteAt s k) :
    DigestInv (s.setMsg v) := by
  obtain hp | h := h
  · exact .of_unallocated (by simp [hp]) hs.digest
  have hw : blockSched (s.setMsg v) = blockSched s := by
    rw [blockSched, blockByte_congr (l := (s.setMsg v).len.toNat) h]
    rfl
  refine ⟨fun h4 => ?_, fun h9 => ?_, ?_, ?_, ?_, ?_, hs.digest⟩
  · obtain ⟨b, hb, hk⟩ := hs.padded h4
    exact ⟨b, hb, fun k hlt => (hk k hlt).trans (stagedByte_congr h _ k).symm⟩
  · exact (hs.folded h9).trans (congrArg some (hashBlocks_congr h _).symm)
  · rw [hw]; exact hs.expanding
  · rw [hw]; exact hs.expanded
  · rw [hw]; exact hs.rounds
  · rw [hw]; exact hs.allRounds

/-- A host write that answers during a run leaves the message's bytes as they were (R72). -/
theorem DigestInv.message {s t : State} {a : Quad} {bs : List Byte} (hi : StatusInv s) (hs : DigestInv s)
    (h : hostWriteMsg a bs s = .next t) : DigestInv t := by
  obtain ⟨rfl, -, hb⟩ := hostWriteMsg_next h
  refine hs.setMsg ?_
  obtain hb | hb := hb
  · exact .inl (hi.phase_idle hb)
  · refine .inr fun k hk => ?_
    have hout : memGet (memPut s.msg a.toNat bs) k = memGet s.msg k := by
      obtain rfl | hl := hb
      · exact memGet_memPut_outside _ _ _ (by rw [List.length_nil]; omega)
      · exact memGet_memPut_outside _ _ _ (by omega)
    simp [msgByteAt, hout]

/-! ## The padder -/

section
variable {s t : State} (hr : RunInv s) (hs : DigestInv s) (hd : s.status.done = false)

include hr hd in
theorem DigestInv.pzero (hp : s.seq.phase = .pzero) (he : s.status.err = false) (h : execPzero s = .next t) :
    DigestInv t := by
  obtain ⟨p, hpl, hsz⟩ := hr.plen_toNat (by simp [hp])
  obtain ⟨nb, -, ⟨-, rfl⟩ | ⟨-, q, hq, rfl⟩⟩ := execPzero_next h
  · exact .raise he
  · cases hpl.symm.trans hq
    refine .of_running hd ⟨_, rfl, fun k (hk : k < padLen s.len.toNat) => ?_⟩
    rw [memGet_allocZeroed, hsz]
    by_cases hl : k < s.len.toNat
    · simp [stagedByte, hl]
    · simp [stagedByte, hl, hk, show s.len.toNat ≤ k by omega]

include hs hd in
theorem DigestInv.pcopy (hp : s.seq.phase = .pcopy) (h : execPcopy s = .next t) : DigestInv t := by
  obtain ⟨b, hb, hk⟩ := hs.padded (by simp [hp])
  obtain ⟨c, hc, -, rfl⟩ := execPcopy_next h
  cases hc.symm.trans hb
  refine .of_running hd ⟨_, rfl, fun k hlt => ?_⟩
  have hold := hk k hlt
  rw [memGet_memPut, msgBytes_length, msgBytes_getElem?, hold, hp]
  by_cases hl : k < s.len.toNat
  · simp [stagedByte, hl, msgByteAt]
  · simp [stagedByte, hl]

include hs hd in
theorem DigestInv.pterm (hp : s.seq.phase = .pterm) (h : execPterm s = .next t) : DigestInv t := by
  obtain ⟨b, hb, hk⟩ := hs.padded (by simp [hp])
  obtain ⟨c, hc, -, rfl⟩ := execPterm_next h
  cases hc.symm.trans hb
  refine .of_running hd ⟨_, rfl, fun k hlt => ?_⟩
  have hold := hk k hlt
  rw [memGet_memPut, hold, hp]
  by_cases hl : k = s.len.toNat
  · simp [stagedByte, hl]
  · rw [if_neg (by rw [List.length_singleton]; omega)]
    simp [stagedByte, hl, msgByteAt]

/-- The closed form of R144 past the terminator: the length field in the last eight bytes, zeros before it. -/
theorem padByte_length_field (m : Nat → Byte) {l k : Nat} (h : padLen l - 8 ≤ k) (hk : k < padLen l) :
    (be64 (lengthField l))[k - (padLen l - 8)]? = some (padByte m l k) := by
  have := padLen_room l
  have hlen : (be64 (lengthField l)).length = 8 := rfl
  rw [padByte, if_neg (by omega), if_neg (by omega), if_neg (by omega), List.getD_eq_getElem?_getD,
    List.getElem?_eq_getElem (by omega), Option.getD_some]

theorem stagedByte_before_length_field (m : Nat → Byte) {l k : Nat} (h : k < padLen l - 8) :
    stagedByte 6 m l k = some (padByte m l k) := by
  unfold stagedByte padByte
  rw [if_neg (by omega), if_neg (by omega), if_pos rfl, if_pos h]
  split
  · rfl
  · split <;> rfl

include hr hs hd in
theorem DigestInv.plenw (hp : s.seq.phase = .plenw) (h : execPlenw s = .next t) : DigestInv t := by
  obtain ⟨b, hb, hk⟩ := hs.padded (by simp [hp])
  obtain ⟨p, hpl, hsz⟩ := hr.plen_toNat (by simp [hp])
  obtain ⟨q, c, hq, hc, -, -, rfl⟩ := execPlenw_next h
  cases hc.symm.trans hb
  cases hpl.symm.trans hq
  refine .of_running hd ⟨_, rfl, fun k (hlt : k < padLen s.len.toNat) => ?_⟩
  have hlen : (be64 (lengthField s.len.toNat)).length = 8 := rfl
  have hold := hk k hlt
  rw [hp, stage_plenw] at hold
  change memGet (memPut b.cells (p.toNat - 8) (be64 (lengthField s.len.toNat))) k =
    stagedByte 7 (msgByteAt s) s.len.toNat k
  rw [memGet_memPut, stagedByte_of_ge (Nat.le_refl 7), hlen, hsz]
  by_cases hl : padLen s.len.toNat - 8 ≤ k
  · rw [if_pos (by omega), padByte_length_field (msgByteAt s) hl hlt]
  · rw [if_neg (by omega), hold, stagedByte_before_length_field _ (by omega)]

include hs in
/-- From PSEG on the buffer holds the closed form of R144, whatever the phase. -/
theorem DigestInv.closed (h7 : 7 ≤ stage s.seq.phase) {c : Nat} (hc : 7 ≤ c) : ∃ b, s.pb = some b ∧
    ∀ k, k < padLen s.len.toNat → memGet b.cells k = stagedByte c (msgByteAt s) s.len.toNat k := by
  obtain ⟨b, hb, hk⟩ := hs.padded (by omega)
  refine ⟨b, hb, fun k hlt => ?_⟩
  rw [hk k hlt, stagedByte_of_ge h7, stagedByte_of_ge hc]

include hs hd in
theorem DigestInv.pseg (hp : s.seq.phase = .pseg) (he : s.status.err = false) (h : execPseg s = .next t) :
    DigestInv t := by
  have hb := hs.closed (c := stage .hinit) (by simp [hp]) (by simp)
  obtain ⟨p, nb, -, -, ⟨-, rfl⟩ | ⟨-, -, -, rfl⟩⟩ := execPseg_next h
  · exact .raise he
  · exact .of_running hd hb

include hs hd in
theorem DigestInv.hinit (hp : s.seq.phase = .hinit) (h : execHinit s = .next t) : DigestInv t := by
  have hb := hs.closed (c := stage .wld) (by simp [hp]) (by simp)
  cases h
  exact .of_running hd hb (hf := fun _ => rfl) (he := fun _ k hk => absurd hk (Nat.not_lt_zero k))

/-! ## The expander and the compressor -/

theorem blockSched_congr (hm : t.msg = s.msg) (hl : t.len = s.len) (hb : t.seq.blk = s.seq.blk) :
    blockSched t = blockSched s := by
  rw [blockSched, blockSched, msgByteAt_congr hm, hl, hb]

/-- WLD and WEX stay in their block and write the next word of its schedule. -/
theorem readSched_extend {n : Nat} {x : Word} (h : ∀ k, k < n → readSched s k = .ok ((blockSched s).getD k 0))
    (hx : x = (blockSched s).getD n 0) (hn : n < 64) (p : Phase) (j : BitVec 7) :
    ∀ k, k < n + 1 → readSched (goTo p s.seq.blk j (writeSched n x s)) k =
      .ok ((blockSched (goTo p s.seq.blk j (writeSched n x s))).getD k 0) := by
  intro k hk
  rw [blockSched_congr (s := s) (t := goTo p s.seq.blk j (writeSched n x s)) rfl rfl rfl]
  change readSched (writeSched n x s) k = _
  rw [readSched_writeSched]
  by_cases e : k = n
  · rw [if_pos ⟨e, hn⟩, e, hx]
  · rw [if_neg fun c => e c.1, h k (by omega)]

/-- RLD and RND stay in their block. -/
theorem blockSched_setRegs (p : Phase) (j : BitVec 7) (r : Option WorkRegs) :
    blockSched (goTo p s.seq.blk j (s.setRegs r)) = blockSched s := blockSched_congr rfl rfl rfl

include hs in
/-- What WLD reads is the block's word (R153, R171). -/
theorem DigestInv.readPbWord (h7 : 7 ≤ stage s.seq.phase) {i n : Nat} (hi : i < blockCount s.len.toNat) (hn : n < 16)
    {x : Word} (h : readPbWord s (blockWordAddr i n) = .ok x) :
    x = (schedOf (blockByte (msgByteAt s) s.len.toNat i)).getD n 0 := by
  obtain ⟨b, hb, hk⟩ := hs.closed h7 (Nat.le_refl 7)
  have hpad := padLen_eq_blocks s.len.toNat
  have byte (d : Nat) (hd : d < 4) (y : Byte) (hy : readPbByte s (blockWordAddr i n + d) = .ok y) :
      y = blockByte (msgByteAt s) s.len.toNat i (4 * n + d) := by
    obtain ⟨c, hc, -, hy⟩ := readPbByte_ok_iff.1 hy
    cases hc.symm.trans hb
    rw [hk _ (by unfold blockWordAddr; omega), stagedByte_of_ge (Nat.le_refl 7)] at hy
    rw [blockByte, ← Nat.add_assoc]
    exact (Option.some.inj hy).symm
  obtain ⟨b0, b1, b2, b3, h0, h1, h2, h3, rfl⟩ := readPbWord_ok_iff.1 h
  rw [schedOf_getD_of_lt _ hn, blockWord, byte 0 (by omega) b0 h0, byte 1 (by omega) b1 h1, byte 2 (by omega) b2 h2,
    byte 3 (by omega) b3 h3, Nat.add_zero]

include hr hs hd in
theorem DigestInv.wld (hp : s.seq.phase = .wld) (h : execWld s.seq.idx s.seq.blk s = .next t) : DigestInv t := by
  have hf := hs.folded (by simp [hp])
  have hi := hr.inBlock (by simp [hp]) (by simp [hp])
  obtain ⟨h15, x, hx, rfl⟩ := execWld_next h
  have hx : x = (blockSched s).getD s.seq.idx.toNat 0 := hs.readPbWord (by simp [hp]) hi (by omega) hx
  have hw := readSched_extend (hs.expanding (.inl hp)) hx (by omega)
  unfold afterWld
  split
  · rw [← toNat_succ (by omega)] at hw
    exact .of_running hd (hs.closed (by simp [hp]) (by simp)) (hf := fun _ => hf) (he := fun _ => hw _ _)
  · rw [show s.seq.idx.toNat + 1 = 16 by omega] at hw
    exact .of_running hd (hs.closed (by simp [hp]) (by simp)) (hf := fun _ => hf) (he := fun _ => hw _ _)

include hs hd in
theorem DigestInv.wex (hp : s.seq.phase = .wex) (h : execWex s.seq.idx s.seq.blk s = .next t) : DigestInv t := by
  have hf := hs.folded (by simp [hp])
  have he := hs.expanding (.inr hp)
  obtain ⟨⟨h16, h63⟩, w16, w15, w7, w2, e16, e15, e7, e2, rfl⟩ := execWex_next h
  have read {k : Nat} (hk : k < s.seq.idx.toNat) {w : Word} (hw : readSched s k = .ok w) :
      w = (blockSched s).getD k 0 := Except.ok.inj (hw.symm.trans (he k hk))
  have hx : schedNext w16 w15 w7 w2 = (blockSched s).getD s.seq.idx.toNat 0 := by
    rw [read (by omega) e16, read (by omega) e15, read (by omega) e7, read (by omega) e2, blockSched,
      ← schedOf_getD_of_ge _ h16 h63]
  have hw := readSched_extend he hx (by omega)
  unfold afterWex
  split
  · rw [← toNat_succ (by omega)] at hw
    exact .of_running hd (hs.closed (by simp [hp]) (by simp)) (hf := fun _ => hf) (he := fun _ => hw _ _)
  · rw [show s.seq.idx.toNat + 1 = 64 by omega] at hw
    exact .of_running hd (hs.closed (by simp [hp]) (by simp)) (hf := fun _ => hf) (hw := fun _ => hw _ _)

include hs hd in
theorem DigestInv.rld (hp : s.seq.phase = .rld) (h : execRld s.seq.blk s = .next t) : DigestInv t := by
  have hf := hs.folded (by simp [hp])
  have hw := hs.expanded (.inl hp)
  obtain ⟨v, hv, rfl⟩ := execRld_next h
  refine .of_running hd (hs.closed (by simp [hp]) (by simp)) (hf := fun _ => hf) (hw := fun _ k hk => ?_)
    (hr := fun _ => ⟨v, hv, rfl⟩)
  rw [blockSched_setRegs]
  exact hw k hk

include hs hd in
theorem DigestInv.rnd (hp : s.seq.phase = .rnd) (h : execRnd s.seq.idx s.seq.blk s = .next t) : DigestInv t := by
  have hf := hs.folded (by simp [hp])
  have hw := hs.expanded (.inr hp)
  obtain ⟨v, hv, hregs⟩ := hs.rounds hp
  obtain ⟨h63, r, w, hr, hx, rfl⟩ := execRnd_next h
  have hx := Except.ok.inj (hx.symm.trans (hw _ (by omega)))
  have hround : roundFn r (kConst s.seq.idx.toNat) w = roundsFrom (blockSched s) (loadRegs v) (s.seq.idx.toNat + 1) := by
    rw [roundsFrom, hx, Option.some.inj (hr.symm.trans hregs)]
  unfold afterRnd
  split
  · refine .of_running hd (hs.closed (by simp [hp]) (by simp)) (hf := fun _ => hf) (hw := fun _ k hk => ?_)
      (hr := fun _ => ⟨v, hv, ?_⟩)
    · rw [blockSched_setRegs]
      exact hw k hk
    · rw [blockSched_setRegs, goTo_seq, toNat_succ (by omega)]
      exact congrArg some hround
  · refine .of_running hd (hs.closed (by simp [hp]) (by simp)) (hf := fun _ => hf) (ha := fun _ => ⟨v, hv, ?_⟩)
    rw [show s.seq.idx.toNat + 1 = 64 by omega] at hround
    rw [blockSched_setRegs]
    exact congrArg some hround

include hs hd in
theorem DigestInv.ffw (hp : s.seq.phase = .ffw) (h : execFfw s.seq.blk s = .next t) : DigestInv t := by
  have hf := hs.folded (by simp [hp])
  obtain ⟨g, hg, hregs⟩ := hs.allRounds hp
  obtain ⟨v, r, nb, hv, hr, -, hc⟩ := execFfw_next h
  have hlt := nb.isLt
  have e : (s.seq.blk + 1).toNat = s.seq.blk.toNat + 1 := toNat_succ (by omega)
  have hfold : feedForward v r = hashBlocks (msgByteAt s) s.len.toNat (s.seq.blk + 1).toNat := by
    rw [e, hashBlocks, compress, ← Option.some.inj (hv.symm.trans hf), Option.some.inj (hr.symm.trans hregs),
      Option.some.inj (hg.symm.trans hv), blockSched]
  obtain ⟨-, rfl⟩ | ⟨-, rfl⟩ := hc
  · exact .of_running hd (hs.closed (by simp [hp]) (by simp)) (hf := fun _ => congrArg some hfold)
      (he := fun _ k hk => absurd hk (Nat.not_lt_zero k))
  · exact .of_running hd (hs.closed (by simp [hp]) (by simp)) (hf := fun _ => congrArg some hfold)

include hr hs in
theorem DigestInv.emit (hp : s.seq.phase = .emit) (h : execEmit s.seq.blk s = .next t) : DigestInv t := by
  obtain ⟨hl1, hl2⟩ := hr.lenChecked (by simp [hp])
  obtain ⟨-, hnb⟩ := hr.lengths (by simp [hp])
  have hf := hs.folded (by simp [hp])
  rw [hr.afterBlocks hp] at hf
  cases h
  exact .of_unallocated (by simp) fun _ => ⟨msgByteAt s, s.len.toNat, hl1, hl2, hnb, hf⟩

end

/-! ## Every move -/

theorem DigestInv.sequencer {s t : State} (hi : StatusInv s) (hr : RunInv s) (hs : DigestInv s)
    (h : seqStep s = .next t) : DigestInv t := by
  have hd : s.seq.phase ≠ .idle → s.status.done = false := hi.not_done
  have he : s.seq.phase ≠ .idle → s.status.err = false := hi.not_err
  obtain ⟨hp, rfl⟩ | ⟨hp, h⟩ | ⟨hp, h⟩ | ⟨hp, h⟩ | ⟨hp, h⟩ | ⟨hp, h⟩ | ⟨hp, h⟩ | ⟨hp, h⟩ | ⟨hp, h⟩ | ⟨hp, h⟩ |
    ⟨hp, h⟩ | ⟨hp, h⟩ | ⟨hp, h⟩ | ⟨hp, h⟩ | ⟨hp, h⟩ := seqStep_next h
  case inl => exact hs
  all_goals
    replace hd := hd (by simp [hp])
    replace he := he (by simp [hp])
  · obtain ⟨-, rfl⟩ | ⟨-, rfl⟩ | ⟨-, -, rfl⟩ := execChk_next h
    · exact .raise he
    · exact .raise he
    · exact .of_unallocated (by simp) (by simp [hd])
  · cases h
    exact .of_unallocated (by simp) (by simp [hd])
  · exact .pzero hr hd hp he h
  · exact hs.pcopy hd hp h
  · exact hs.pterm hd hp h
  · exact hs.plenw hr hd hp h
  · exact hs.pseg hd hp he h
  · exact hs.hinit hd hp h
  · exact hs.wld hr hd hp h
  · exact hs.wex hd hp h
  · exact hs.rld hd hp h
  · exact hs.rnd hd hp h
  · exact hs.ffw hd hp h
  · exact hs.emit hr hp h

theorem coreInv_kept : KeptByMoves CoreInv where
  inputs v hs := ⟨statusInv_kept.inputs v hs.status, { hs.run with }, { hs.digest with }⟩
  outputs r n hs := ⟨statusInv_kept.outputs r n hs.status, { hs.run with }, { hs.digest with }⟩
  sequencer hs h := ⟨statusInv_kept.sequencer hs.status h, hs.run.sequencer hs.status h,
    hs.digest.sequencer hs.status hs.run h⟩
  fault hc he hs := ⟨statusInv_kept.fault hc he hs.status, .raise he, .raise he⟩
  start hr hs := ⟨statusInv_kept.start hr hs.status, hs.run.start (hs.status.phase_idle hr.1),
    .of_unallocated (by simp [startRun]) (by simp [startRun, startFlags])⟩
  wrlen v hr hs :=
    have hi := hs.status.phase_idle hr.1
    ⟨statusInv_kept.wrlen v hr hs.status, hs.run.setLen hi v, .of_unallocated (by simp [hi]) hs.digest.digest⟩
  message hs h := ⟨statusInv_kept.message hs.status h, (runInv_kept.message ⟨hs.status, hs.run⟩ h).2,
    hs.digest.message hs.status h⟩
  reset {s} hs := ⟨statusInv_kept.reset hs.status, (runInv_kept.reset ⟨hs.status, hs.run⟩).2,
    .of_unallocated (by simp [applyReset, State.reset, Seq.reset]) (by simp [applyReset, State.reset, Status.reset])⟩

/-! ## Reset and every reachable state -/

/-- Settles O9: the values `State.reset` writes. -/
theorem resetLeavesTheStatedValues : Obligations.ResetLeavesTheStatedValues :=
  ⟨rfl, rfl, rfl, rfl, rfl, rfl, fun j hj => by simp [State.reset, hj], rfl, rfl, rfl, rfl, rfl, rfl, rfl⟩

/-- Settles O54: the sequencer rests, nothing is done and both memories are empty. -/
theorem invariantsHoldAtReset : Obligations.InvariantsHoldAtReset := fun moves cap =>
  ⟨⟨by simp [StatusInv, State.reset, Status.reset, Seq.reset],
    .of_idle rfl rfl rfl fun h => absurd h (by simp [State.reset, Status.reset]),
    .of_unallocated (by simp [State.reset, Seq.reset]) fun h => absurd h (by simp [State.reset, Status.reset])⟩,
   by simp [MemInv, State.reset, Memory.wf]⟩

/-- Settles O60: the invariants hold at reset and every step keeps them, so every run does. -/
theorem reachableStatesMeetInvariants : Obligations.ReachableStatesMeetInvariants := by
  rintro s ⟨moves, cap, n, h⟩
  obtain ⟨hcore, hmem⟩ := invariantsHoldAtReset moves cap
  exact ⟨coreInv_kept.run hcore h, memInv_kept.run hmem h⟩

end Sys2Proof.Machine

/-!
PROOFS. The two memories and the host: the canonical form through a step, the host's writes of `MSG` (R51, R72), what a
transaction leaves as it was (R62), what it returns (R37, R64), and the digest as a byte string (R57).
-/

namespace Sys2Proof.Machine

/-! ## Both memories through a step -/

/-- Settles O56: each kind of move keeps both memories canonical and inside their spaces. -/
theorem memoryFormKept : Obligations.MemoryFormKept :=
  fun _ _ hs h => memInv_kept.step hs h

/-! ## The host's writes of `MSG` -/

/-- A host write next in the list is the step. -/
theorem step_of_writeMsg {s : State} {a : Quad} {bs : List Byte} {rest : List HostMove}
    (h : s.inputs = .writeMsg a bs :: rest) : step s = hostWriteMsg a bs (s.setInputs rest) := by
  have hm : nextMove s = .writeMsg a bs := by rw [nextMove, h, List.headD_cons]
  have ht : takeMove s = s.setInputs rest := by rw [takeMove, h, List.tail_cons]
  unfold step
  rw [hm, ← ht]

/-- A write touches the message of a run exactly when the run is on, a byte is written, and the first lies below
`LEN`. -/
theorem touchesMessage_iff {s : State} {a n : Nat} :
    touchesMessage s a n = true ↔ s.status.busy = true ∧ 0 < n ∧ a < s.len.toNat := by
  simp [touchesMessage, and_assoc]

/-- A write into the message of a run is refused (R72, R313). -/
theorem hostWriteMsg_of_touches {s : State} {a : Quad} {bs : List Byte}
    (h : touchesMessage s a.toNat bs.length = true) : hostWriteMsg a bs s = .refused .msgWriteDuringRun := by
  rw [hostWriteMsg, if_pos h]

/-- Any other write inside the 64-bit space lands. -/
theorem hostWriteMsg_of_not_touches {s : State} {a : Quad} {bs : List Byte}
    (h : ¬ touchesMessage s a.toNat bs.length = true) (hl : a.toNat + bs.length ≤ 2 ^ 64) :
    hostWriteMsg a bs s = .next (s.setMsg (memPut s.msg a.toNat bs)) := by
  rw [hostWriteMsg, if_neg h, if_pos hl]

/-- Settles O47: the write touches the message of a run, or its bytes land where they are addressed. -/
theorem messageIsFixedDuringARun : Obligations.MessageIsFixedDuringARun := by
  intro s a bs rest hin
  rw [step_of_writeMsg hin]
  refine ⟨fun hb hne ha => ?_, fun hfree hl => ?_⟩
  · exact hostWriteMsg_of_touches (touchesMessage_iff.2 ⟨hb, List.length_pos_of_ne_nil hne, ha⟩)
  · have hn : ¬ touchesMessage (s.setInputs rest) a.toNat bs.length = true := by
      rw [touchesMessage_iff]
      rintro ⟨hb, -, ha⟩
      obtain h | h := hfree
      · exact absurd (h.symm.trans hb) (by decide)
      · exact absurd ha (Nat.not_lt.2 h)
    exact ⟨_, hostWriteMsg_of_not_touches hn hl, rfl, fun k => memGet_memPut s.msg a.toNat bs k⟩

/-! ## What a transaction leaves as it was -/

/-- The port's outputs are no state of the core. -/
theorem sameCore_outputs (s : State) (r : Option Quad) (n : Nat) : sameCore s ((s.setRdata r).setFreeCtr n) :=
  ⟨rfl, rfl, rfl, rfl, rfl, rfl, rfl, rfl, rfl⟩

/-- What is the same core has the same buffer. -/
theorem sameCore.pb {s t : State} (h : sameCore s t) : t.pb = s.pb := by
  obtain ⟨-, -, -, hpb, -⟩ := h
  exact hpb

section
variable {s t : State} {i : Instr}

/-- No transaction changes `MSG`, the parameter or the host's further moves. -/
theorem exec_transaction_surroundings (hi : isTransaction i = true) (h : exec i s = .next t) :
    t.msg = s.msg ∧ t.maxBlocks = s.maxBlocks ∧ t.inputs = s.inputs := by
  obtain ⟨u, r, n, rfl, hu⟩ := exec_transaction_next hi h
  obtain ⟨rfl, -⟩ | ⟨-, c, -, rfl⟩ | ⟨-, -, rfl⟩ | ⟨v, -, -, rfl⟩ := hu
  · exact ⟨rfl, rfl, rfl⟩
  · exact ⟨raise_msg c s, raise_maxBlocks c s, raise_inputs c s⟩
  · exact ⟨rfl, rfl, rfl⟩
  · exact ⟨rfl, rfl, rfl⟩

/-- A read that does not fault changes no element of the core (R62). -/
theorem exec_read_sameCore (hi : isTransaction i = true) (h : exec i s = .next t) (hr : isPortRead i = true)
    (he : t.status.err = s.status.err) : sameCore s t := by
  obtain ⟨u, r, n, rfl, hu⟩ := exec_transaction_next hi h
  obtain ⟨rfl, -⟩ | ⟨-, c, -, rfl⟩ | ⟨rfl, -⟩ | ⟨v, rfl, -⟩ := hu
  · exact sameCore_outputs u r n
  · rw [raise_eq_self he]
    exact sameCore_outputs s r n
  · cases hr
  · cases hr

/-- A transaction that changes `ERR` is fault entry with some cause: nothing else a transaction does touches `ERR`. -/
theorem exec_transaction_faults (hi : isTransaction i = true) (h : exec i s = .next t)
    (he : t.status.err ≠ s.status.err) : ∃ c, sameCore (raise c s) t := by
  obtain ⟨u, r, n, rfl, hu⟩ := exec_transaction_next hi h
  obtain ⟨rfl, -⟩ | ⟨-, c, -, rfl⟩ | ⟨-, -, rfl⟩ | ⟨v, -, -, rfl⟩ := hu
  · exact absurd rfl he
  · exact ⟨c, sameCore_outputs _ r n⟩
  · exact absurd rfl he
  · exact absurd rfl he

/-- A control write that does not fault returns nothing, and has its effect or none. -/
theorem controlWrite_of_err_kept {k : State → State} (h : controlWrite k s = .next t)
    (he : t.status.err = s.status.err) : t = replyNone s ∨ t = replyNone (k s) := by
  obtain ⟨-, e⟩ | ⟨-, -, e⟩ | ⟨-, -, e⟩ := controlWrite_cases k s <;> rw [e] at h <;> cases h
  · exact .inl rfl
  · exact .inl (by rw [raise_eq_self he])
  · exact .inr rfl

theorem execWrlen_frame {v : Quad} (h : execWrlen v s = .next t) (he : t.status.err = s.status.err) :
    t = (s.setLen t.len).setRdata t.rdata := by
  obtain rfl | rfl := controlWrite_of_err_kept h he <;> rfl

theorem execStart_frame (h : execStart s = .next t) (he : t.status.err = s.status.err) :
    t = (((((s.setStatus t.status).setHash t.hash).setNblk t.nblk).setPlen t.plen).setSeq t.seq).setRdata t.rdata := by
  obtain rfl | rfl := controlWrite_of_err_kept h he <;> rfl

end

/-- Settles O50: reads change nothing, WRLEN and START their own fields, and the rest is fault entry. -/
theorem framesOfHostTransactions : Obligations.FramesOfHostTransactions := by
  intro s t i hi h
  obtain ⟨hmsg, hmax, hin⟩ := exec_transaction_surroundings hi h
  refine ⟨⟨hmsg, hmax, hin, congrFun (msgByteAt_congr hmsg)⟩, fun hr he => ?_, ?_, ?_, exec_transaction_faults hi h⟩
  · have hcore := exec_read_sameCore hi h hr he
    exact ⟨hcore, readPbByte_congr hcore.pb⟩
  · rintro v rfl he
    exact execWrlen_frame h he
  · rintro rfl he
    exact execStart_frame h he

/-! ## What a transaction returns -/

/-- The status in which a result is read (R245, R246). -/
def resultReadable (t : Status) : Bool := !t.err && !t.busy && t.done

theorem done_of_resultReadable {t : Status} (h : resultReadable t = true) : t.done = true := by
  simp only [resultReadable, Bool.and_eq_true] at h
  exact h.2

section
variable {s t : State}

@[simp] theorem replyFree_rdata (s : State) : (replyFree s).rdata = some (Config.freeRead s.freeCtr) := rfl

/-- A transaction that is not performed returns the next free value to a read, and nothing to a write. -/
theorem replyUnperformed_rdata (b : Bool) (s : State) :
    (replyUnperformed b s).rdata = if b then some (Config.freeRead s.freeCtr) else none := by
  cases b <;> rfl

/-- An illegal word returns what an unperformed transaction does, whether it faults or not. -/
theorem illegalWord_rdata (b : Bool) (c : Cause) (s : State) :
    (illegalWord b c s).rdata = if b then some (Config.freeRead s.freeCtr) else none := by
  obtain ⟨-, e⟩ | ⟨-, e⟩ := illegalWord_cases b c s
  · rw [e, replyUnperformed_rdata]
  · rw [e, replyUnperformed_rdata, raise_freeCtr]

/-- A write "returns nothing" (R81), whatever becomes of it. -/
theorem controlWrite_rdata {k : State → State} (h : controlWrite k s = .next t) : t.rdata = none := by
  obtain ⟨-, e⟩ | ⟨-, -, e⟩ | ⟨-, -, e⟩ := controlWrite_cases k s <;> rw [e] at h <;> cases h <;> rfl

/-- A read of a result returns the result where it is readable, and a free value where it is not. -/
theorem resultRead_rdata {k : State → Result} {o : Option Quad} (hk : k s = .next t → t.rdata = o)
    (h : resultRead k s = .next t) :
    t.rdata = if resultReadable s.status then o else some (Config.freeRead s.freeCtr) := by
  unfold resultReadable
  obtain ⟨he, e⟩ | ⟨he, hb, e⟩ | ⟨he, hb, hd, e⟩ | ⟨he, hb, hd, e⟩ := resultRead_cases k s <;> rw [e] at h
  · cases h; simp [he]
  · cases h; simp [he, hb]
  · cases h; simp [he, hb, hd]
  · simp [he, hb, hd, hk h]

theorem execRdlen_rdata (h : execRdlen s = .next t) :
    t.rdata = if s.status.err then some (Config.freeRead s.freeCtr) else some s.len := by
  unfold execRdlen unlessFaulted at h
  cases h
  split <;> rfl

theorem execRdnblk_rdata (h : execRdnblk s = .next t) :
    t.rdata = if resultReadable s.status then s.nblk else some (Config.freeRead s.freeCtr) := by
  refine resultRead_rdata (fun h => ?_) h
  obtain ⟨n, hn, h⟩ := orFault_next_iff.1 h
  cases h
  exact (readNblk_ok_iff.1 hn).symm

theorem execRddig_rdata {k : BitVec 3} (h : execRddig k s = .next t) :
    t.rdata = if resultReadable s.status then s.hash.map (fun v : Words8 => (v[k.toNat]).setWidth 64)
      else some (Config.freeRead s.freeCtr) := by
  refine resultRead_rdata (fun h => ?_) h
  obtain ⟨v, hv, h⟩ := orFault_next_iff.1 h
  cases h
  rw [readHash_ok_iff.1 hv]
  rfl

end

/-- Two illegal words of one kind return the same in states with the same free value number. -/
theorem illegalWord_rdata_congr {b : Bool} {c : Cause} {s₁ s₂ t₁ t₂ : State} (hf : s₁.freeCtr = s₂.freeCtr)
    (h₁ : Host.Outcome.next (illegalWord b c s₁) = (.next t₁ : Result))
    (h₂ : Host.Outcome.next (illegalWord b c s₂) = (.next t₂ : Result)) : t₁.rdata = t₂.rdata := by
  cases h₁
  cases h₂
  rw [illegalWord_rdata, illegalWord_rdata, hf]

/-- Settles O53: what each transaction returns is a function of the registers the host can read. -/
theorem hostSeesOnlyItsRegisters : Obligations.HostSeesOnlyItsRegisters := by
  intro i s₁ s₂ t₁ t₂ hi hlen hst hf hres h₁ h₂
  cases i with
  | start | wrlen _ => rw [controlWrite_rdata h₁, controlWrite_rdata h₂]
  | rdstatus =>
    cases h₁
    cases h₂
    simp only [replyWith, State.setRdata_rdata, hst]
  | rdlen => rw [execRdlen_rdata h₁, execRdlen_rdata h₂, hst, hf, hlen]
  | rdnblk =>
    rw [execRdnblk_rdata h₁, execRdnblk_rdata h₂, ← hst, ← hf]
    split
    · exact (hres (done_of_resultReadable ‹_›)).2
    · rfl
  | rddig k =>
    rw [execRddig_rdata h₁, execRddig_rdata h₂, ← hst, ← hf]
    split
    · rw [(hres (done_of_resultReadable ‹_›)).1]
    · rfl
  | illegalCmd _ | illegalRdcmd | illegalWrstatus _ | illegalWrnblk _ | illegalRes4to7 _ _ | illegalWrdig _ _
  | illegalRes16to31 _ _ | illegalRes32to63 _ _ => exact illegalWord_rdata_congr hf h₁ h₂
  | _ => cases hi

/-! ## The digest as a byte string -/

@[simp] theorem bytesBE32_length (x : Word) : (bytesBE32 x).length = 4 := rfl

/-- Byte `k` of a word, most significant first (R121). -/
theorem bytesBE32_getElem? (x : Word) {k : Nat} (h : k < 4) :
    (bytesBE32 x)[k]? = some (x.extractLsb' (24 - 8 * k) 8) := by
  match k, h with
  | 0, _ => rfl
  | 1, _ => rfl
  | 2, _ => rfl
  | 3, _ => rfl

/-- Byte `4 * i + k` of words written out one after the other is byte `k` of word `i`. -/
theorem getElem?_flatMap_bytesBE32 (ws : List Word) (i : Nat) {k : Nat} (h : k < 4) :
    (ws.flatMap bytesBE32)[4 * i + k]? = ws[i]?.map fun x => x.extractLsb' (24 - 8 * k) 8 := by
  induction ws generalizing i with
  | nil => rfl
  | cons w ws ih =>
    rw [List.flatMap_cons]
    cases i with
    | zero =>
      rw [List.getElem?_append_left (by rw [bytesBE32_length]; omega), Nat.mul_zero, Nat.zero_add,
        bytesBE32_getElem? w h]
      rfl
    | succ i =>
      rw [List.getElem?_append_right (by rw [bytesBE32_length]; omega), bytesBE32_length,
        show 4 * (i + 1) + k - 4 = 4 * i + k by omega, ih, List.getElem?_cons_succ]

/-- The digest is the words of `H`, written out one after the other. -/
theorem digestBytes_eq_flatMap (h : Words8) : digestBytes h = h.toList.flatMap bytesBE32 := by
  have hw : h.toList = [h[0], h[1], h[2], h[3], h[4], h[5], h[6], h[7]] :=
    List.ext_getElem (by simp) fun i hi _ => by
      rw [Vector.length_toList] at hi
      interval_cases i <;> rfl
  rw [hw]
  simp [digestBytes]

@[simp] theorem digestBytes_length (h : Words8) : (digestBytes h).length = 32 := rfl

/-- Settles O16: the digest is the words of `H` one after the other, each most significant byte first. -/
theorem digestIsBigEndianByWord : Obligations.DigestIsBigEndianByWord := by
  intro h i k hk hi
  refine ⟨digestBytes_length h, ?_⟩
  rw [digestBytes_eq_flatMap, getElem?_flatMap_bytesBE32 _ _ hk, List.getElem?_eq_getElem (by simpa using hi)]
  simp

end Sys2Proof.Machine

/-!
PROOFS. The two formats (R80 to R94): the fields of a word, the fourteen rows of format HOST as a relation, the decoder
against the encoder, and the match and mask rows.
-/

namespace Sys2Proof.Machine

/-! ## The fields of a transaction word (R81) -/

@[simp] theorem hostWord_we (w : Bool) (n : BitVec 6) (d : Quad) : (hostWord w n d).we = w := by
  have h : (hostWord w n d).extractLsb' 70 1 = BitVec.ofBool w := by
    unfold hostWord
    rw [BitVec.append_assoc]
    exact BitVec.extractLsb'_append_eq_left
  cases w <;> simpa [HostWord.we] using congrArg (·.getLsbD 0) h

@[simp] theorem hostWord_addr (w : Bool) (n : BitVec 6) (d : Quad) : (hostWord w n d).addr = n :=
  (BitVec.extractLsb'_append_eq_of_le (Nat.le_refl 64)).trans <|
    (BitVec.extractLsb'_append_eq_of_add_le (Nat.le_refl 6)).trans BitVec.extractLsb'_eq_self

@[simp] theorem hostWord_wdata (w : Bool) (n : BitVec 6) (d : Quad) : (hostWord w n d).wdata = d :=
  (BitVec.extractLsb'_append_eq_of_add_le (Nat.le_refl 64)).trans BitVec.extractLsb'_eq_self

/-- A transaction word is the word of its fields. -/
theorem hostWord_fields (t : HostWord) : hostWord t.we t.addr t.wdata = t := by
  have hw : BitVec.ofBool t.we = t.extractLsb' 70 1 := by
    ext i hi
    obtain rfl : i = 0 := Nat.lt_one_iff.1 hi
    simp [HostWord.we]
  unfold hostWord HostWord.addr HostWord.wdata
  rw [hw, BitVec.extractLsb'_append_extractLsb'_eq_extractLsb' (show 70 = 64 + 6 from rfl)]
  exact (BitVec.extractLsb'_append_extractLsb'_eq_extractLsb' (show 64 = 0 + 64 from rfl)).trans
    BitVec.extractLsb'_eq_self

theorem eq_hostWord_iff {t : HostWord} {w : Bool} {n : BitVec 6} {d : Quad} :
    t = hostWord w n d ↔ t.we = w ∧ t.addr = n ∧ t.wdata = d := by
  constructor
  · rintro rfl
    simp
  · rintro ⟨rfl, rfl, rfl⟩
    exact (hostWord_fields t).symm

/-! ## The digest's register numbers (R37) -/

@[simp] theorem digAddr_toNat (i : BitVec 3) : (digAddr i).toNat = 8 + i.toNat := by
  revert i
  decide

@[simp] theorem digIndex_digAddr (i : BitVec 3) : digIndex (digAddr i) = i := by
  revert i
  decide

theorem digAddr_digIndex {n : BitVec 6} (h : 8 ≤ n.toNat ∧ n.toNat ≤ 15) : digAddr (digIndex n) = n := by
  revert n
  decide

/-! ## The fourteen rows of format HOST (R86, R87) -/

/-- The access a transaction makes of a register that is illegal in both directions (R87 d). -/
def portAccess (w : Bool) (d : Quad) : Access := if w then .write d else .read

/-- One rule per row of R86 and R87: the words of the row, and the transaction each stands for. The data of a read is
any (R81). -/
inductive HostRowOf : HostWord → Instr → Prop
  | start : HostRowOf (hostWord true 0 1) .start
  | wrlen (d : Quad) : HostRowOf (hostWord true 2 d) (.wrlen d)
  | rdstatus (d : Quad) : HostRowOf (hostWord false 1 d) .rdstatus
  | rdlen (d : Quad) : HostRowOf (hostWord false 2 d) .rdlen
  | rdnblk (d : Quad) : HostRowOf (hostWord false 3 d) .rdnblk
  | rddig (i : BitVec 3) (d : Quad) : HostRowOf (hostWord false (digAddr i) d) (.rddig i)
  | illegalCmd {d : Quad} (hd : d ≠ 1) : HostRowOf (hostWord true 0 d) (.illegalCmd d)
  | illegalRdcmd (d : Quad) : HostRowOf (hostWord false 0 d) .illegalRdcmd
  | illegalWrstatus (d : Quad) : HostRowOf (hostWord true 1 d) (.illegalWrstatus d)
  | illegalWrnblk (d : Quad) : HostRowOf (hostWord true 3 d) (.illegalWrnblk d)
  | illegalRes4to7 {n : BitVec 6} (w : Bool) (d : Quad) (hn : 4 ≤ n.toNat ∧ n.toNat ≤ 7) :
    HostRowOf (hostWord w n d) (.illegalRes4to7 n (portAccess w d))
  | illegalWrdig (i : BitVec 3) (d : Quad) : HostRowOf (hostWord true (digAddr i) d) (.illegalWrdig i d)
  | illegalRes16to31 {n : BitVec 6} (w : Bool) (d : Quad) (hn : 16 ≤ n.toNat ∧ n.toNat ≤ 31) :
    HostRowOf (hostWord w n d) (.illegalRes16to31 n (portAccess w d))
  | illegalRes32to63 {n : BitVec 6} (w : Bool) (d : Quad) (hn : 32 ≤ n.toNat) :
    HostRowOf (hostWord w n d) (.illegalRes32to63 n (portAccess w d))

theorem decodeHost_hostWord (w : Bool) (n : BitVec 6) (d : Quad) :
    decodeHost (hostWord w n d) = if w then decodeWrite n d else decodeRead n := by
  simp [decodeHost]

/-- The decoder gives each word of a row the row's transaction. -/
theorem HostRowOf.decodeHost_eq {t : HostWord} {i : Instr} (h : HostRowOf t i) : decodeHost t = i := by
  cases h with
  | illegalRes4to7 w d hn | illegalRes16to31 w d hn | illegalRes32to63 w d hn =>
    rw [decodeHost_hostWord]
    cases w <;> simp (disch := omega) [decodeWrite, decodeRead, portAccess, if_pos, if_neg]
  | illegalCmd hd =>
    rw [decodeHost_hostWord]
    exact if_neg hd
  | rddig i d | illegalWrdig i d =>
    have := i.isLt
    rw [decodeHost_hostWord]
    simp (disch := omega) [decodeWrite, decodeRead, if_pos, if_neg]
  | _ => simp [decodeHost_hostWord, decodeWrite, decodeRead]

/-- A write stands in the row of what it decodes to. -/
theorem hostRowOf_decodeWrite (n : BitVec 6) (d : Quad) : HostRowOf (hostWord true n d) (decodeWrite n d) := by
  unfold decodeWrite
  split_ifs with h0 hd h1 h2 h3 h7 h15 h31
  · obtain rfl : n = 0 := BitVec.eq_of_toNat_eq h0
    rw [hd]
    exact .start
  · obtain rfl : n = 0 := BitVec.eq_of_toNat_eq h0
    exact .illegalCmd hd
  · obtain rfl : n = 1 := BitVec.eq_of_toNat_eq h1
    exact .illegalWrstatus d
  · obtain rfl : n = 2 := BitVec.eq_of_toNat_eq h2
    exact .wrlen d
  · obtain rfl : n = 3 := BitVec.eq_of_toNat_eq h3
    exact .illegalWrnblk d
  · exact .illegalRes4to7 true d (by omega)
  · have h := HostRowOf.illegalWrdig (digIndex n) d
    rwa [digAddr_digIndex (by omega)] at h
  · exact .illegalRes16to31 true d (by omega)
  · exact .illegalRes32to63 true d (by omega)

/-- A read stands in the row of what it decodes to. -/
theorem hostRowOf_decodeRead (n : BitVec 6) (d : Quad) : HostRowOf (hostWord false n d) (decodeRead n) := by
  unfold decodeRead
  split_ifs with h0 h1 h2 h3 h7 h15 h31
  · obtain rfl : n = 0 := BitVec.eq_of_toNat_eq h0
    exact .illegalRdcmd d
  · obtain rfl : n = 1 := BitVec.eq_of_toNat_eq h1
    exact .rdstatus d
  · obtain rfl : n = 2 := BitVec.eq_of_toNat_eq h2
    exact .rdlen d
  · obtain rfl : n = 3 := BitVec.eq_of_toNat_eq h3
    exact .rdnblk d
  · exact .illegalRes4to7 false d (by omega)
  · have h := HostRowOf.rddig (digIndex n) d
    rwa [digAddr_digIndex (by omega)] at h
  · exact .illegalRes16to31 false d (by omega)
  · exact .illegalRes32to63 false d (by omega)

/-- The rows are the decoder: a word stands in the row of what it decodes to, and in no other. -/
theorem hostRowOf_iff {t : HostWord} {i : Instr} : HostRowOf t i ↔ decodeHost t = i := by
  refine ⟨HostRowOf.decodeHost_eq, ?_⟩
  rintro rfl
  rw [← hostWord_fields t, decodeHost_hostWord]
  cases t.we
  · exact hostRowOf_decodeRead _ _
  · exact hostRowOf_decodeWrite _ _

theorem hostRowOf_decodeHost (t : HostWord) : HostRowOf t (decodeHost t) := hostRowOf_iff.2 rfl

/-! ## Decoder and encoder -/

/-- In a row of both directions stands the word that the encoder writes for an access. -/
theorem HostRowOf.of_accessWord {n : BitVec 6} {f : Access → Instr}
    (h : ∀ w d, HostRowOf (hostWord w n d) (f (portAccess w d))) (a : Access) : HostRowOf (accessWord n a) (f a) := by
  cases a with
  | read => exact h false 0
  | write v => exact h true v

theorem HostRowOf.decode_eq {t : HostWord} {i : Instr} (h : HostRowOf t i) : decode (.host t) = .ok i :=
  congrArg Except.ok h.decodeHost_eq

/-- Settles O1: a transaction's word is of its row, and a micro-operation's word is the sequencer register's. -/
theorem decodeInvertsEncode : Obligations.DecodeInvertsEncode := by
  intro i hi
  cases i with
  | start => exact HostRowOf.start.decode_eq
  | wrlen v => exact (HostRowOf.wrlen v).decode_eq
  | rdstatus => exact (HostRowOf.rdstatus 0).decode_eq
  | rdlen => exact (HostRowOf.rdlen 0).decode_eq
  | rdnblk => exact (HostRowOf.rdnblk 0).decode_eq
  | rddig k => exact (HostRowOf.rddig k 0).decode_eq
  | illegalCmd v => exact (HostRowOf.illegalCmd (bne_iff_ne.1 hi)).decode_eq
  | illegalRdcmd => exact (HostRowOf.illegalRdcmd 0).decode_eq
  | illegalWrstatus v => exact (HostRowOf.illegalWrstatus v).decode_eq
  | illegalWrnblk v => exact (HostRowOf.illegalWrnblk v).decode_eq
  | illegalRes4to7 n a =>
    exact (HostRowOf.of_accessWord (fun w d => .illegalRes4to7 w d (of_decide_eq_true hi)) a).decode_eq
  | illegalWrdig k v => exact (HostRowOf.illegalWrdig k v).decode_eq
  | illegalRes16to31 n a =>
    exact (HostRowOf.of_accessWord (fun w d => .illegalRes16to31 w d (of_decide_eq_true hi)) a).decode_eq
  | illegalRes32to63 n a =>
    exact (HostRowOf.of_accessWord (fun w d => .illegalRes32to63 w d (of_decide_eq_true hi)) a).decode_eq
  | wld k b | wex k b | rnd k b => exact decode_seqWord ⟨_, b, k⟩
  | chk b | plen b | pzero b | pcopy b | pterm b | plenw b | pseg b | hinit b | rld b | ffw b | emit b =>
    exact decode_seqWord ⟨_, b, 0⟩

/-- A sequencer word is the word of its fields. -/
theorem seqWord_fields (q : SeqWord) : seqWord q.phase q.idx q.blk = q := by
  unfold seqWord SeqWord.phase SeqWord.idx SeqWord.blk
  rw [BitVec.extractLsb'_append_extractLsb'_eq_extractLsb' (show 11 = 4 + 7 from rfl)]
  exact (BitVec.extractLsb'_append_extractLsb'_eq_extractLsb' (show 4 = 0 + 4 from rfl)).trans
    BitVec.extractLsb'_eq_self

theorem phaseCode_of_phaseOfCode {c : BitVec 4} {p : Phase} (h : phaseOfCode c = some p) : phaseCode p = c := by
  revert c p
  decide

theorem plainMicroOp_ok_iff {i j : Instr} {idx : BitVec 7} : plainMicroOp i idx = .ok j ↔ idx = 0 ∧ i = j := by
  unfold plainMicroOp
  split <;> simp_all

/-- The encoder writes back the fields that a micro-operation was decoded from. -/
theorem encode_of_decodeSeqFields {p : Phase} {idx : BitVec 7} {blk : Quad} {i : Instr}
    (h : decodeSeqFields p idx blk = .ok i) : encode i = .seq (seqWord (phaseCode p) idx blk) := by
  cases p with
  | idle => cases h
  | wld | wex | rnd => cases h; rfl
  | _ =>
    obtain ⟨rfl, rfl⟩ := plainMicroOp_ok_iff.1 h
    rfl

theorem encode_of_decodeSeq {q : SeqWord} {i : Instr} (h : decodeSeq q = .ok i) : encode i = .seq q := by
  unfold decodeSeq at h
  cases hp : phaseOfCode q.phase with
  | none => simp [hp] at h
  | some p =>
    rw [hp] at h
    rw [encode_of_decodeSeqFields h, phaseCode_of_phaseOfCode hp, seqWord_fields]

/-- The encoder gives back a write's word whole and a read's with data 0 (R81; log 20). -/
theorem HostRowOf.encode_eq {t : HostWord} {i : Instr} (h : HostRowOf t i) :
    encode i = .host (hostWord t.we t.addr (if t.we then t.wdata else 0)) := by
  cases h with
  | illegalRes4to7 w | illegalRes16to31 w | illegalRes32to63 w =>
    simp only [hostWord_we, hostWord_addr, hostWord_wdata]
    cases w <;> rfl
  | _ => simp only [hostWord_we, hostWord_addr, hostWord_wdata]; rfl

theorem HostRowOf.wf_eq {t : HostWord} {i : Instr} (h : HostRowOf t i) : i.wf = true := by
  cases h with
  | illegalCmd hd => exact bne_iff_ne.2 hd
  | illegalRes4to7 _ _ hn | illegalRes16to31 _ _ hn | illegalRes32to63 _ _ hn => exact decide_eq_true hn
  | _ => rfl

/-- Settles O2: a sequencer word is put together from the fields it was read as, and a transaction word from those its
row keeps. -/
theorem encodeInvertsDecode : Obligations.EncodeInvertsDecode := by
  refine ⟨fun q i => encode_of_decodeSeq, fun t ht => ?_, fun t ht => ?_,
    fun t => ⟨(hostRowOf_decodeHost t).wf_eq, decodeHost_isTransaction t⟩⟩
  · rw [(hostRowOf_decodeHost t).encode_eq, if_pos ht, hostWord_fields]
  · rw [(hostRowOf_decodeHost t).encode_eq, ht]
    rfl

/-! ## The match and mask rows (R86, R94) -/

theorem hostWord_and (w w' : Bool) (n n' : BitVec 6) (d d' : Quad) :
    hostWord w n d &&& hostWord w' n' d' = hostWord (w && w') (n &&& n') (d &&& d') := by
  unfold hostWord
  rw [← BitVec.ofBool_and_ofBool, ← BitVec.and_append]
  exact BitVec.and_append

/-- A mask and a pattern act on each field of the word for itself. -/
theorem and_hostWord_eq_iff {t : HostWord} {w w' : Bool} {n n' : BitVec 6} {d d' : Quad} :
    t &&& hostWord w n d = hostWord w' n' d' ↔ (t.we && w) = w' ∧ t.addr &&& n = n' ∧ t.wdata &&& d = d' := by
  rw [← hostWord_fields t, hostWord_and, eq_hostWord_iff]
  simp

/-- Two words that decode alike are of one direction and of one register: the encoder writes both back. -/
theorem register_eq_of_decodeHost_eq {t u : HostWord} (h : decodeHost t = decodeHost u) :
    t.we = u.we ∧ t.addr = u.addr := by
  have ht := (hostRowOf_decodeHost t).encode_eq
  rw [h, (hostRowOf_decodeHost u).encode_eq] at ht
  obtain ⟨hw, hn, -⟩ := eq_hostWord_iff.1 (Code.host.inj ht)
  simp only [hostWord_we, hostWord_addr] at hw hn
  exact ⟨hw.symm, hn.symm⟩

/-- A word whose data stands in a row decodes to that row's transaction exactly at the row's register. -/
theorem HostRowOf.decodeHost_eq_iff {t : HostWord} {w : Bool} {n : BitVec 6} {i : Instr}
    (h : HostRowOf (hostWord w n t.wdata) i) : decodeHost t = i ↔ t.we = w ∧ t.addr = n := by
  rw [← h.decodeHost_eq]
  constructor
  · intro he
    simpa using register_eq_of_decodeHost_eq he
  · rintro ⟨rfl, rfl⟩
    rw [hostWord_fields]

/-- The row of a single register: its mask leaves the data out. -/
theorem HostRowOf.matches_iff {t : HostWord} {w : Bool} {n : BitVec 6} {i : Instr}
    (h : HostRowOf (hostWord w n t.wdata) i) :
    t &&& 0x7F0000000000000000#71 = hostWord w n 0 ↔ decodeHost t = i := by
  have hn : t.addr &&& 63 = t.addr := BitVec.and_allOnes
  rw [h.decodeHost_eq_iff, show 0x7F0000000000000000#71 = hostWord true 63 0 by decide, and_hostWord_eq_iff, hn]
  simp

theorem decodeHost_eq_start_iff {t : HostWord} : decodeHost t = .start ↔ t = 0x400000000000000001#71 := by
  constructor
  · intro h
    obtain ⟨⟩ := hostRowOf_iff.2 h
    rfl
  · rintro rfl
    exact HostRowOf.start.decodeHost_eq

theorem and_start_mask (t : HostWord) : t &&& 0x7FFFFFFFFFFFFFFFFF#71 = t := BitVec.and_allOnes

/-- The registers `DIG0` to `DIG7` by their upper bits (R37, R86). -/
theorem and_eq_dig_iff {n : BitVec 6} : n &&& 0x38 = 0x08 ↔ n = digAddr (digIndex n) := by
  revert n
  decide

/-- The row of RDDIG: its mask leaves out the data and the digest index. -/
theorem matches_rddig_iff {t : HostWord} :
    t &&& 0x780000000000000000#71 = 0x080000000000000000#71 ↔ decodeHost t = .rddig (digIndex t.addr) := by
  rw [(HostRowOf.rddig (digIndex t.addr) t.wdata).decodeHost_eq_iff, ← and_eq_dig_iff,
    show 0x780000000000000000#71 = hostWord true 0x38 0 by decide,
    show 0x080000000000000000#71 = hostWord false 0x08 0 by decide, and_hostWord_eq_iff]
  simp

theorem digIndex_addr (t : HostWord) : digIndex t.addr = t.extractLsb' 64 3 := by
  ext i hi
  simp [digIndex, HostWord.addr, show i < 6 by omega]

/-- The rows that the words of one direction and one register match, START's row apart. -/
def rowsBehindStart (w : Bool) (n : BitVec 6) : List String :=
  (hostRows.tail.filter (·.hits (hostWord w n 0))).map (·.mnemonic)

theorem mask_wdata_of_mem_tail : ∀ r ∈ hostRows.tail, r.mask.wdata = 0 := by decide

/-- A row whose mask leaves the data out asks for the register and the direction alone. -/
theorem hits_eq_hits_register {r : HostRow} (hr : r.mask.wdata = 0) (t : HostWord) :
    r.hits t = r.hits (hostWord t.we t.addr 0) := by
  have h : t &&& r.mask = hostWord t.we t.addr 0 &&& r.mask := by
    rw [← hostWord_fields r.mask, hr, hostWord_and]
    conv_lhs => rw [← hostWord_fields t, hostWord_and]
    simp
  unfold HostRow.hits
  rw [h]

theorem rowsHit_eq (t : HostWord) :
    rowsHit t = if t = 0x400000000000000001#71 then "START" :: rowsBehindStart t.we t.addr
      else rowsBehindStart t.we t.addr := by
  have hrows : hostRows = ⟨"START", 0x400000000000000001#71, 0x7FFFFFFFFFFFFFFFFF#71⟩ :: hostRows.tail := rfl
  have htail : hostRows.tail.filter (·.hits t) = hostRows.tail.filter (·.hits (hostWord t.we t.addr 0)) :=
    List.filter_congr fun r hr => hits_eq_hits_register (mask_wdata_of_mem_tail r hr) t
  unfold rowsHit rowsBehindStart
  rw [hrows, List.filter_cons, List.tail_cons, htail]
  simp only [HostRow.hits, and_start_mask, beq_iff_eq]
  split <;> rfl

/-- The thirteen rows behind START partition the accesses: two directions of sixty-four registers. -/
theorem rowsBehindStart_eq : ∀ (w : Bool) (n : BitVec 6),
    rowsBehindStart w n = [(decodeHost (hostWord w n 0)).mnemonic] := by
  decide

theorem mnemonic_decodeWrite {n : BitVec 6} {d : Quad} (h : ¬(n = 0 ∧ d = 1)) :
    (decodeWrite n d).mnemonic = (decodeWrite n 0).mnemonic := by
  unfold decodeWrite
  rw [if_neg (show (0 : Quad) ≠ 1 by decide)]
  split_ifs with h0 hd
  · exact absurd ⟨BitVec.eq_of_toNat_eq h0, hd⟩ h
  all_goals rfl

/-- START's word apart, the data do not choose the row. -/
theorem mnemonic_decodeHost {t : HostWord} (ht : t ≠ 0x400000000000000001#71) :
    (decodeHost t).mnemonic = (decodeHost (hostWord t.we t.addr 0)).mnemonic := by
  rw [← hostWord_fields t] at ht ⊢
  simp only [hostWord_we, hostWord_addr]
  rw [decodeHost_hostWord, decodeHost_hostWord]
  cases hw : t.we
  · rfl
  · refine mnemonic_decodeWrite fun ⟨hn, hd⟩ => ht ?_
    rw [hw, hn, hd]
    rfl

/-- Settles O4: START's row asks for its one word, and the rows behind it for the register and the direction. -/
theorem hostRowsPartitionTheWords : Obligations.HostRowsPartitionTheWords := by
  intro t
  rw [rowsHit_eq, rowsBehindStart_eq]
  by_cases ht : t = 0x400000000000000001#71
  · subst ht
    decide
  · rw [if_neg ht, if_neg ht, mnemonic_decodeHost ht]

/-- No word matches two of the six rows of R86: `ILLEGAL.cmd`, the one row that shares a word with START's, is not one
of them. -/
theorem legalRows_hits_length (t : HostWord) : (legalRows.filter (·.hits t)).length ≤ 1 := by
  by_cases ht : t = 0x400000000000000001#71
  · subst ht
    decide
  · have h := hostRowsPartitionTheWords t
    rw [if_neg ht, rowsHit, hostRows, List.filter_append] at h
    have hl := congrArg List.length h
    simp only [List.length_map, List.length_append, List.length_singleton] at hl
    omega

/-- Settles O3: each mask keeps the direction, the register (of RDDIG its upper bits) and, for START, the data. -/
theorem legalRowsSelectTheTransaction : Obligations.LegalRowsSelectTheTransaction := by
  intro t
  refine ⟨?_, (HostRowOf.wrlen t.wdata).matches_iff, (HostRowOf.rdstatus t.wdata).matches_iff,
    (HostRowOf.rdlen t.wdata).matches_iff, (HostRowOf.rdnblk t.wdata).matches_iff, ?_, legalRows_hits_length t⟩
  · rw [and_start_mask, decodeHost_eq_start_iff]
  · rw [matches_rddig_iff, digIndex_addr]

/-! ## Words written out -/

/-- Settles O5: the decoder run on thirteen words. -/
theorem writtenWordsDecode : Obligations.WrittenWordsDecode := by
  unfold Obligations.WrittenWordsDecode
  decide

end Sys2Proof.Machine

/-!
PROOFS. The word functions and byte conversions (R110 to R122): the value or the bits of each function, said once.
-/

namespace Sys2Proof.Machine

/-! ## Addition (R110) -/

@[simp] theorem add32_toNat (x y : Word) : (add32 x y).toNat = (x.toNat + y.toNat) % 2 ^ 32 := BitVec.toNat_add x y

theorem add32_comm (x y : Word) : add32 x y = add32 y x := BitVec.add_comm x y

theorem add32_assoc (x y z : Word) : add32 (add32 x y) z = add32 x (add32 y z) := BitVec.add_assoc x y z

/-- Settles O11: the inner reduction is absorbed by the outer one. -/
theorem additionWraps : Obligations.AdditionWraps :=
  ⟨add32_toNat, add32_comm, fun x y z => ⟨by rw [add32_toNat, add32_toNat, Nat.mod_add_mod], add32_assoc x y z⟩⟩

/-! ## Rotation and shift (R111, R112) -/

theorem rotr_toNat (x : Word) (n : Nat) :
    (rotr x n).toNat = x.toNat / 2 ^ n ||| x.toNat * 2 ^ (32 - n) % 2 ^ 32 := by
  rw [rotr, BitVec.toNat_or, BitVec.toNat_ushiftRight, BitVec.toNat_shiftLeft, Nat.shiftRight_eq_div_pow,
    Nat.shiftLeft_eq]

/-- Below place `32 - n` the right shift supplies the bit, from there on the left shift does. -/
theorem getLsbD_rotr (x : Word) {n k : Nat} (hn : n < 32) (hk : k < 32) :
    (rotr x n).getLsbD k = x.getLsbD ((k + n) % 32) := by
  rw [rotr, BitVec.getLsbD_or, BitVec.getLsbD_ushiftRight, BitVec.getLsbD_shiftLeft]
  by_cases h : k < 32 - n
  · rw [Nat.mod_eq_of_lt (by omega), Nat.add_comm k n]
    simp [h]
  · have hwrap : (k + n) % 32 = k - (32 - n) := by omega
    rw [hwrap, BitVec.getLsbD_of_ge x (n + k) (by omega)]
    simp [h, hk]

theorem shr_toNat (x : Word) (n : Nat) : (shr x n).toNat = x.toNat / 2 ^ n := by
  rw [shr, BitVec.toNat_ushiftRight, Nat.shiftRight_eq_div_pow]

theorem getLsbD_shr (x : Word) (n k : Nat) :
    (shr x n).getLsbD k = (decide (k + n < 32) && x.getLsbD (k + n)) := by
  rw [shr, BitVec.getLsbD_ushiftRight, Nat.add_comm n k]
  by_cases h : k + n < 32
  · simp [h]
  · simp [h, BitVec.getLsbD_of_ge x (k + n) (by omega)]

/-- Settles O12: the bits of a rotation and its formula, and a shift's quotient and vacated bits. -/
theorem rotationAndShiftMoveBits : Obligations.RotationAndShiftMoveBits := by
  intro x n _ hn
  refine ⟨fun k hk => getLsbD_rotr x (by omega) hk, rotr_toNat x n, shr_toNat x n, fun k hk => ?_⟩
  have hout : ¬k + n < 32 := by omega
  simp [getLsbD_shr, hout]

/-! ## The mixing functions (R113 to R116) -/

/-- Settles O13: each function is an exclusive or of rotations and at most one shift, whose bits are known. -/
theorem mixingFunctionsBitByBit : Obligations.MixingFunctionsBitByBit := by
  intro x k hk
  have hrot (n : Nat) (hn : n < 32) : (rotr x n).getLsbD k = x.getLsbD ((k + n) % 32) := getLsbD_rotr x hn hk
  refine ⟨?_, ?_, ?_, ?_⟩
  · rw [ssig0, BitVec.getLsbD_xor, BitVec.getLsbD_xor, hrot 7 (by decide), hrot 18 (by decide), getLsbD_shr]
  · rw [ssig1, BitVec.getLsbD_xor, BitVec.getLsbD_xor, hrot 17 (by decide), hrot 19 (by decide), getLsbD_shr]
  · rw [bsig0, BitVec.getLsbD_xor, BitVec.getLsbD_xor, hrot 2 (by decide), hrot 13 (by decide), hrot 22 (by decide)]
  · rw [bsig1, BitVec.getLsbD_xor, BitVec.getLsbD_xor, hrot 6 (by decide), hrot 11 (by decide), hrot 25 (by decide)]

/-! ## Choice and majority (R117, R118) -/

theorem getLsbD_chFn (x y z : Word) {k : Nat} (hk : k < 32) :
    (chFn x y z).getLsbD k = if x.getLsbD k then y.getLsbD k else z.getLsbD k := by
  rw [chFn, BitVec.getLsbD_xor, BitVec.getLsbD_and, BitVec.getLsbD_and, BitVec.getLsbD_not]
  cases x.getLsbD k <;> simp [hk]

theorem getLsbD_majFn (x y z : Word) (k : Nat) :
    (majFn x y z).getLsbD k = (((x.getLsbD k && y.getLsbD k) ^^ (x.getLsbD k && z.getLsbD k)) ^^
      (y.getLsbD k && z.getLsbD k)) := by
  simp only [majFn, BitVec.getLsbD_xor, BitVec.getLsbD_and]

/-- The exclusive or of the three pairwise products of bits is their majority. -/
theorem xor_of_ands_eq_true_iff : ∀ a b c : Bool,
    (((a && b) ^^ (a && c)) ^^ (b && c)) = true ↔ 2 ≤ a.toNat + b.toNat + c.toNat := by
  decide

/-- Settles O14, on one bit of each operand. -/
theorem choiceAndMajorityBitByBit : Obligations.ChoiceAndMajorityBitByBit := by
  intro x y z k hk
  refine ⟨getLsbD_chFn x y z hk, ?_⟩
  rw [getLsbD_majFn]
  exact xor_of_ands_eq_true_iff _ _ _

/-! ## Byte conversions (R120 to R122) -/

/-- Four bytes fit in a word: `BE32`'s sum is not reduced. -/
theorem be32_toNat (b0 b1 b2 b3 : Byte) :
    (be32 b0 b1 b2 b3).toNat = b0.toNat * 2 ^ 24 + b1.toNat * 2 ^ 16 + b2.toNat * 2 ^ 8 + b3.toNat := by
  rw [be32, BitVec.toNat_ofNat, Nat.mod_eq_of_lt]
  have h0 := b0.isLt
  have h1 := b1.isLt
  have h2 := b2.isLt
  have h3 := b3.isLt
  omega

/-- The byte of a vector from place `s` up, as a number. -/
theorem byteAt_toNat {w : Nat} (x : BitVec w) (s : Nat) : (x.extractLsb' s 8).toNat = x.toNat / 2 ^ s % 256 := by
  rw [BitVec.extractLsb'_toNat, Nat.shiftRight_eq_div_pow]

theorem bytesBE32_be32 (b0 b1 b2 b3 : Byte) : bytesBE32 (be32 b0 b1 b2 b3) = [b0, b1, b2, b3] := by
  have h0 := b0.isLt
  have h1 := b1.isLt
  have h2 := b2.isLt
  have h3 := b3.isLt
  simp only [bytesBE32, List.cons.injEq, and_true]
  refine ⟨?_, ?_, ?_, ?_⟩ <;> apply BitVec.eq_of_toNat_eq <;> rw [byteAt_toNat, be32_toNat] <;> omega

theorem be32_of_bytes (x : Word) :
    be32 (x.extractLsb' 24 8) (x.extractLsb' 16 8) (x.extractLsb' 8 8) (x.extractLsb' 0 8) = x := by
  have hx := x.isLt
  apply BitVec.eq_of_toNat_eq
  simp only [be32_toNat, byteAt_toNat]
  omega

@[simp] theorem be64_length (v : Quad) : (be64 v).length = 8 := rfl

/-- The bytes of `BE64`, read as digits to the base 256, spell the number. -/
theorem foldl_be64 (v : Quad) : (be64 v).foldl (fun n b => 256 * n + b.toNat) 0 = v.toNat := by
  have hv := v.isLt
  simp only [be64, List.foldl_cons, List.foldl_nil, byteAt_toNat]
  omega

/-- Settles O15: both conversions on numbers, byte by byte. -/
theorem byteConversionsInvert : Obligations.ByteConversionsInvert :=
  ⟨fun b0 b1 b2 b3 => ⟨be32_toNat b0 b1 b2 b3, bytesBE32_be32 b0 b1 b2 b3⟩,
    fun x => ⟨_, _, _, _, rfl, be32_of_bytes x⟩, fun v => ⟨be64_length v, foldl_be64 v⟩⟩

end Sys2Proof.Machine

/-!
PROOFS. The padder (R142 to R152): the least padded length, each micro-operation as an equation, their eight steps
composed to the closed form of R144, and the digest invariant through every step.
-/

namespace Sys2Proof.Machine

/-- Settles O58: every kind of move keeps the three invariants together, the digest's among them. -/
theorem digestInvariantKept : Obligations.DigestInvariantKept :=
  fun _ _ hs h => (coreInv_kept.step hs h).digest

/-! ## The padded length (R142, R143) -/

/-- A multiple of 64 with room for the message, the terminator and the length field is at least `P`. -/
theorem padLen_le_of_dvd {l p : Nat} (hp : 64 ∣ p) (hl : l + 9 ≤ p) : padLen l ≤ p := by
  obtain ⟨q, rfl⟩ := hp
  rw [padLen_eq]
  omega

/-- Settles O17: `P` is 64 times the rounded-up quotient, so no smaller multiple has the room. -/
theorem paddedLengthIsLeast : Obligations.PaddedLengthIsLeast := fun l =>
  ⟨⟨_, padLen_eq_blocks l⟩, padLen_room l, fun _ => padLen_le_of_dvd, padLen_eq l, rfl,
    by rw [padLen_eq_blocks, Nat.mul_comm], blockCount_eq l, blockCount_pos l⟩

/-! ## The micro-operations that write no buffer -/

theorem execChk_of_empty {s : State} (h : s.len.toNat = 0) : execChk s = .next (raise .emptyMessage s) :=
  if_pos (BitVec.eq_of_toNat_eq h)

theorem len_ne_zero_of_pos {s : State} (h : 1 ≤ s.len.toNat) : s.len ≠ 0 := by
  intro e
  simp [e] at h

theorem execChk_of_overflow {s : State} (h : 2 ^ 61 ≤ s.len.toNat) : execChk s = .next (raise .lengthOverflow s) := by
  rw [execChk, if_neg (len_ne_zero_of_pos (by omega)), if_pos (by omega)]

theorem execChk_of_legal {s : State} (h1 : 1 ≤ s.len.toNat) (h2 : s.len.toNat < 2 ^ 61) :
    execChk s = .next (s.setSeq ⟨.plen, 0, 0⟩) := by
  rw [execChk, if_neg (len_ne_zero_of_pos h1), if_neg (by omega)]
  rfl

/-- Settles O19: CHK's three answers, one per range of `LEN`. -/
theorem chkPassesLegalLengths : Obligations.ChkPassesLegalLengths :=
  fun _ _ => ⟨execChk_of_empty, execChk_of_overflow, execChk_of_legal⟩

/-- The state with both counts of its length written, as PLEN does (R146). -/
def withCounts (s : State) : State :=
  (s.setPlen (some (BitVec.ofNat 64 (padLen s.len.toNat)))).setNblk (some (BitVec.ofNat 64 (blockCount s.len.toNat)))

theorem execPlen_of_legal {s : State} (h : s.len.toNat < 2 ^ 61) :
    execPlen s = .next ((withCounts s).setSeq ⟨.pzero, 0, 0⟩) := by
  rw [execPlen, plenValue_of_lt h]
  rfl

/-- `P` of a legal length, as a register holds it (R29). -/
theorem toNat_padLen {l : Nat} (h : l < 2 ^ 61) : (BitVec.ofNat 64 (padLen l)).toNat = padLen l :=
  (BitVec.toNat_ofNat _ _).trans (Nat.mod_eq_of_lt (padLen_lt h).1)

/-- `NB` of a legal length, as a register holds it (R29). -/
theorem toNat_blockCount {l : Nat} (h : l < 2 ^ 61) : (BitVec.ofNat 64 (blockCount l)).toNat = blockCount l :=
  (BitVec.toNat_ofNat _ _).trans (Nat.mod_eq_of_lt (padLen_lt h).2)

/-- Settles O20: both counts fit 64 bits, so the registers hold them exactly. -/
theorem plenComputesBothCounts : Obligations.PlenComputesBothCounts := fun _ _ h =>
  ⟨_, _, (toNat_padLen h).trans (padLen_eq _), (toNat_blockCount h).trans (blockCount_eq _), execPlen_of_legal h⟩

/-- Settles O25: PSEG reads both counts, and its condition decides. -/
theorem psegChecksThePartition : Obligations.PsegChecksThePartition := by
  intro s blk p nb hp hn
  have hexec : exec (.pseg blk) s =
      if p.toNat % 64 ≠ 0 ∨ nb.toNat * 64 ≠ p.toNat ∨ nb.toNat < 1 then .next (raise .blockCount s)
      else .next (goTo .hinit 0 0 s) := by
    rw [exec, execPseg, readPlen_ok_iff.2 ⟨p, hp, rfl⟩, orFault_ok, readNblk_ok_iff.2 hn, orFault_ok]
  rw [hexec]
  refine ⟨fun h => if_pos h, fun h1 h2 h3 => ?_⟩
  rw [if_neg (by omega)]
  rfl

/-! ## The micro-operations that write the buffer -/

theorem overCapacity_eq_true_iff {o : Option Nat} {nb : Nat} :
    overCapacity o nb = true ↔ ∃ m, o = some m ∧ m < nb := by
  cases o <;> simp [overCapacity]

theorem execPzero_of_over {s : State} {nb : Quad} (hn : s.nblk = some nb)
    (hc : overCapacity s.maxBlocks nb.toNat = true) :
    execPzero s = .next (raise .allocation s) := by
  rw [execPzero, readNblk_ok_iff.2 hn, orFault_ok, if_pos hc]

theorem execPzero_of_fits {s : State} {p nb : Quad} (hn : s.nblk = some nb) (hp : s.plen = some p)
    (hc : overCapacity s.maxBlocks nb.toNat = false) :
    execPzero s = .next ((s.setPb (some (allocZeroed s.len.toNat p.toNat))).setSeq ⟨.pcopy, 0, 0⟩) := by
  rw [execPzero, readNblk_ok_iff.2 hn, orFault_ok, if_neg (by simp [hc]), readPlen_ok_iff.2 ⟨p, hp, rfl⟩]
  rfl

/-- Settles O21: the capacity check, then a fresh buffer that is zero beyond the message. -/
theorem pzeroAllocatesOrFaults : Obligations.PzeroAllocatesOrFaults := by
  intro s blk p nb hn hp
  refine ⟨fun m hm hlt => execPzero_of_over hn (overCapacity_eq_true_iff.2 ⟨m, hm, hlt⟩), fun hcap => ?_⟩
  have hc : overCapacity s.maxBlocks nb.toNat = false := by
    rw [← Bool.not_eq_true, overCapacity_eq_true_iff]
    rintro ⟨m, hm, hlt⟩
    exact absurd (hcap m hm) (by omega)
  exact ⟨_, execPzero_of_fits hn hp hc, rfl, memGet_allocZeroed _ _⟩

/-- A write inside the buffer followed by a move of the sequencer, as an equation. -/
theorem writePb_goTo {s : State} {b : PadBuf} (hb : s.pb = some b) {a : Nat} {bs : List Byte}
    (hl : a + bs.length ≤ b.size) (p : Phase) :
    (orFault (writePb s a bs) fun c => .next (goTo p 0 0 (s.setPb (some c)))) =
      .next ((s.setPb (some ⟨b.size, memPut b.cells a bs⟩)).setSeq ⟨p, 0, 0⟩) := by
  rw [writePb_ok_iff.2 ⟨b, hb, hl, rfl⟩]
  rfl

theorem execPcopy_of_room {s : State} {b : PadBuf} (hb : s.pb = some b) (hl : s.len.toNat ≤ b.size) : execPcopy s =
    .next ((s.setPb (some ⟨b.size, memPut b.cells 0 (msgBytes s s.len.toNat)⟩)).setSeq ⟨.pterm, 0, 0⟩) :=
  writePb_goTo hb (by rw [msgBytes_length]; omega) .pterm

theorem execPterm_of_room {s : State} {b : PadBuf} (hb : s.pb = some b) (hl : s.len.toNat < b.size) : execPterm s =
    .next ((s.setPb (some ⟨b.size, memPut b.cells s.len.toNat [0x80#8]⟩)).setSeq ⟨.plenw, 0, 0⟩) :=
  writePb_goTo hb hl .plenw

/-- Settles O22: PCOPY is one write of the message bytes at address 0. -/
theorem pcopyCopiesTheMessage : Obligations.PcopyCopiesTheMessage := by
  intro s blk b hb hl
  refine ⟨_, execPcopy_of_room hb hl, rfl, fun k hk => ?_, fun k hk => ?_⟩
  · rw [memGet_memPut, msgBytes_length, if_pos (by omega), msgBytes_getElem?, Nat.sub_zero, if_pos hk]
  · exact memGet_memPut_outside _ _ _ (by rw [msgBytes_length]; omega)

/-- Settles O23: PTERM is one write of one byte at address `LEN`. -/
theorem ptermSetsTheTerminator : Obligations.PtermSetsTheTerminator := by
  intro s blk b hb hl
  refine ⟨_, execPterm_of_room hb hl, rfl, ?_, fun k hk => ?_⟩
  · simp [memGet_memPut]
  · exact memGet_memPut_outside _ _ _ (by rw [List.length_singleton]; omega)

/-- Byte `k` of `BE64`, counted from the most significant one (R122). -/
theorem be64_getElem? (v : Quad) {k : Nat} (h : k < 8) :
    ∃ x, (be64 v)[k]? = some x ∧ x.toNat = v.toNat / 256 ^ (7 - k) % 256 := by
  have hget : (be64 v)[k]? = some (v.extractLsb' (8 * (7 - k)) 8) := by
    interval_cases k <;> rfl
  exact ⟨_, hget, by rw [byteAt_toNat, Nat.pow_mul]⟩

/-- The length field of a length whose bits fit 64 bits (R151). -/
theorem lengthField_of_lt {l : Nat} (h : 8 * l < 2 ^ 64) : lengthField l = BitVec.ofNat 64 (8 * l) := if_pos h

theorem execPlenw_of_room {s : State} {b : PadBuf} {p : Quad} (hb : s.pb = some b) (hp : s.plen = some p)
    (h8 : 8 ≤ p.toNat) (hsz : p.toNat ≤ b.size) : execPlenw s = .next ((s.setPb (some
      ⟨b.size, memPut b.cells (p.toNat - 8) (be64 (lengthField s.len.toNat))⟩)).setSeq ⟨.pseg, 0, 0⟩) := by
  rw [execPlenw, readPlen_ok_iff.2 ⟨p, hp, rfl⟩, orFault_ok, if_neg (by omega)]
  exact writePb_goTo hb (by rw [be64_length]; omega) .pseg

/-- The eight bytes of a number written before address `p` read back as `BE64`. -/
theorem memGet_memPut_be64 (m : Memory) (v : Quad) {p k : Nat} (h8 : 8 ≤ p) (hk : p - 8 ≤ k) (hk' : k < p) :
    memGet (memPut m (p - 8) (be64 v)) k = (be64 v)[k - (p - 8)]? := by
  rw [memGet_memPut, if_pos (by rw [be64_length]; omega)]

/-- Settles O24: PLENW is one write of the eight bytes of `BE64(8 * LEN)` at address `PLEN - 8`. -/
theorem plenwWritesTheLengthField : Obligations.PlenwWritesTheLengthField := by
  intro s blk p b hb hp h8 hsz hlt
  refine ⟨_, execPlenw_of_room hb hp h8 hsz, rfl, fun k hk => ?_, fun k hk => ?_⟩
  · obtain ⟨x, hx, hval⟩ := be64_getElem? (lengthField s.len.toNat) hk
    rw [lengthField_of_lt hlt, BitVec.toNat_ofNat, Nat.mod_eq_of_lt hlt] at hval
    refine ⟨x, ?_, hval⟩
    rw [memGet_memPut_be64 _ _ h8 (by omega) (by omega), Nat.add_sub_cancel_left, hx]
  · exact memGet_memPut_outside _ _ _ (by rw [be64_length]; omega)

/-! ## The eight steps (R144) -/

/-- With the host off the port a run takes the micro-operation `SEQ` names, then goes on. -/
theorem run_succ_of_exec {s u : State} {i : Instr} {n : Nat} (hm : s.inputs = []) (hi : fetchSeq s.seq = .ok i)
    (h : exec i s = .next u) :
    Host.Core.run Sys2Proof.core (n + 1) s = Host.Core.run Sys2Proof.core n u := by
  have htake : takeMove s = s := by rw [takeMove, hm, List.tail_nil, ← hm, State.setInputs_self]
  have hstep : step s = .next u := by
    rw [step_of_pass (by simp [nextMove, hm]), htake, seqStep, hi]
    exact h
  have hcore : Sys2Proof.core.step s = .next u := hstep
  simp only [Host.Core.run, hcore]

/-- The buffer after PCOPY: a fresh one, zero beyond the message, with the message in its head (R147, R149). -/
def copiedBuf (s : State) : PadBuf :=
  ⟨padLen s.len.toNat, memPut (allocZeroed s.len.toNat (padLen s.len.toNat)).cells 0 (msgBytes s s.len.toNat)⟩

/-- The buffer after PTERM (R150). -/
def terminatedBuf (s : State) : PadBuf := ⟨padLen s.len.toNat, memPut (copiedBuf s).cells s.len.toNat [0x80#8]⟩

/-- The buffer after PLENW (R151). -/
def paddedBuf (s : State) : PadBuf :=
  ⟨padLen s.len.toNat, memPut (terminatedBuf s).cells (padLen s.len.toNat - 8) (be64 (lengthField s.len.toNat))⟩

/-- The state inside the padder at phase `p`: both counts written, the buffer `b` allocated. -/
def padding (s : State) (b : PadBuf) (p : Phase) : State := ((withCounts s).setPb (some b)).setSeq ⟨p, 0, 0⟩

theorem run_padding {s u : State} {b : PadBuf} {p : Phase} {i : Instr} {n : Nat} (hm : s.inputs = [])
    (hi : decodeSeqFields p 0 0 = .ok i) (h : exec i (padding s b p) = .next u) :
    Host.Core.run Sys2Proof.core (n + 1) (padding s b p) = Host.Core.run Sys2Proof.core n u :=
  run_succ_of_exec hm hi h

/-- CHK, PLEN and PZERO allocate the buffer of a legal length within the capacity. -/
theorem run_allocates {s : State} {n : Nat} (hm : s.inputs = []) (hseq : s.seq = ⟨.chk, 0, 0⟩)
    (h1 : 1 ≤ s.len.toNat) (h61 : s.len.toNat < 2 ^ 61)
    (hcap : overCapacity s.maxBlocks (blockCount s.len.toNat) = false) :
    Host.Core.run Sys2Proof.core (n + 3) s =
      Host.Core.run Sys2Proof.core n (padding s (allocZeroed s.len.toNat (padLen s.len.toNat)) .pcopy) := by
  have hpzero := execPzero_of_fits (s := (withCounts s).setSeq ⟨.pzero, 0, 0⟩) rfl rfl
    (by rw [toNat_blockCount h61]; exact hcap)
  rw [toNat_padLen h61] at hpzero
  calc Host.Core.run Sys2Proof.core (n + 3) s
    _ = Host.Core.run Sys2Proof.core (n + 2) (s.setSeq ⟨.plen, 0, 0⟩) :=
      run_succ_of_exec (i := .chk 0) hm (by rw [hseq]; rfl) (execChk_of_legal h1 h61)
    _ = Host.Core.run Sys2Proof.core (n + 1) ((withCounts s).setSeq ⟨.pzero, 0, 0⟩) :=
      run_succ_of_exec (i := .plen 0) hm rfl (execPlen_of_legal h61)
    _ = _ := run_succ_of_exec (i := .pzero 0) hm rfl hpzero

/-- PCOPY, PTERM and PLENW fill the allocated buffer. -/
theorem run_fills {s : State} {n : Nat} (hm : s.inputs = []) (h61 : s.len.toNat < 2 ^ 61) :
    Host.Core.run Sys2Proof.core (n + 3) (padding s (allocZeroed s.len.toNat (padLen s.len.toNat)) .pcopy) =
      Host.Core.run Sys2Proof.core n (padding s (paddedBuf s) .pseg) := by
  have hroom := padLen_room s.len.toNat
  have hP := toNat_padLen h61
  have hlenw := execPlenw_of_room (s := padding s (terminatedBuf s) .plenw) rfl rfl (by omega) (Nat.le_of_eq hP)
  rw [hP] at hlenw
  have hcopy := execPcopy_of_room (s := padding s (allocZeroed s.len.toNat (padLen s.len.toNat)) .pcopy) rfl
    (show s.len.toNat ≤ padLen s.len.toNat by omega)
  have hterm := execPterm_of_room (s := padding s (copiedBuf s) .pterm) rfl
    (show s.len.toNat < padLen s.len.toNat by omega)
  calc Host.Core.run Sys2Proof.core (n + 3) (padding s (allocZeroed s.len.toNat (padLen s.len.toNat)) .pcopy)
    _ = Host.Core.run Sys2Proof.core (n + 2) (padding s (copiedBuf s) .pterm) :=
      run_padding (i := .pcopy 0) hm rfl hcopy
    _ = Host.Core.run Sys2Proof.core (n + 1) (padding s (terminatedBuf s) .plenw) :=
      run_padding (i := .pterm 0) hm rfl hterm
    _ = Host.Core.run Sys2Proof.core n (padding s (paddedBuf s) .pseg) := run_padding (i := .plenw 0) hm rfl hlenw

/-- The padder's eight steps from START's state: CHK to PZERO, PCOPY to PLENW, then PSEG and HINIT. -/
theorem run_padder {s : State} (hm : s.inputs = []) (hseq : s.seq = ⟨.chk, 0, 0⟩) (h1 : 1 ≤ s.len.toNat)
    (h61 : s.len.toNat < 2 ^ 61) (hcap : overCapacity s.maxBlocks (blockCount s.len.toNat) = false) :
    Host.Core.run Sys2Proof.core 8 s = .next ((padding s (paddedBuf s) .wld).setHash (some iv)) := by
  have hblocks := padLen_eq_blocks s.len.toNat
  have hpos := blockCount_pos s.len.toNat
  have hP := toNat_padLen h61
  have hN := toNat_blockCount h61
  have hseg := (psegChecksThePartition (padding s (paddedBuf s) .pseg) 0 _ _ rfl rfl).2 (by omega) (by omega) (by omega)
  calc Host.Core.run Sys2Proof.core 8 s
    _ = Host.Core.run Sys2Proof.core 5 (padding s (allocZeroed s.len.toNat (padLen s.len.toNat)) .pcopy) :=
      run_allocates hm hseq h1 h61 hcap
    _ = Host.Core.run Sys2Proof.core 2 (padding s (paddedBuf s) .pseg) := run_fills hm h61
    _ = Host.Core.run Sys2Proof.core 1 (padding s (paddedBuf s) .hinit) := run_padding hm rfl hseg
    _ = .next ((padding s (paddedBuf s) .wld).setHash (some iv)) := run_padding (i := .hinit 0) hm rfl rfl

theorem memGet_copiedBuf (s : State) {k : Nat} (hk : k < padLen s.len.toNat) :
    memGet (copiedBuf s).cells k = some (if k < s.len.toNat then msgByteAt s k else 0) := by
  rw [copiedBuf, memGet_memPut, msgBytes_length, msgBytes_getElem?]
  by_cases h : k < s.len.toNat
  · simp [h]
  · rw [if_neg (by omega), memGet_allocZeroed, if_pos (by omega), if_neg h]

/-- Each byte of the padder's buffer is the closed form's (R144). -/
theorem memGet_paddedBuf (s : State) {k : Nat} (hk : k < padLen s.len.toNat) :
    memGet (paddedBuf s).cells k = some (padByte (msgByteAt s) s.len.toNat k) := by
  have hroom := padLen_room s.len.toNat
  by_cases h8 : padLen s.len.toNat - 8 ≤ k
  · rw [paddedBuf, memGet_memPut_be64 _ _ (by omega) h8 hk, padByte_length_field _ h8 hk]
  rw [paddedBuf, memGet_memPut_outside _ _ _ (by omega), terminatedBuf]
  by_cases hl : k = s.len.toNat
  · simp [hl, memGet_memPut, padByte]
  · rw [memGet_memPut_outside _ _ _ (by rw [List.length_singleton]; omega), memGet_copiedBuf s hk, padByte,
      if_neg hl, if_pos (Nat.not_le.1 h8)]
    rfl

/-- Settles O18: the padder leaves the closed form in its buffer, and the four ranges are its four cases. -/
theorem padderBuildsTheClosedForm : Obligations.PadderBuildsTheClosedForm := by
  intro s hm hseq h1 h61 hcap
  have hroom := padLen_room s.len.toNat
  have hread {k : Nat} (hk : k < padLen s.len.toNat) :
      readPbByte ((padding s (paddedBuf s) .wld).setHash (some iv)) k =
        .ok (padByte (msgByteAt s) s.len.toNat k) :=
    readPbByte_ok_iff.2 ⟨_, rfl, hk, memGet_paddedBuf s hk⟩
  refine ⟨_, run_padder hm hseq h1 h61 hcap, rfl, rfl, rfl, rfl, fun k hk => ?_, ?_, fun k hk hk' => ?_,
    fun k hk hk' => ?_, fun k hk => if_neg (Nat.not_lt.2 hk)⟩
  · rw [hread (by omega), padByte, if_pos hk]
  · rw [hread (by omega), padByte, if_neg (Nat.lt_irrefl _), if_pos rfl]
  · rw [hread (by omega), padByte, if_neg (by omega), if_neg (by omega), if_pos hk']
    rfl
  · rw [← lengthField_of_lt (by omega)]
    exact ⟨_, padByte_length_field (msgByteAt s) hk hk', hread hk'⟩

end Sys2Proof.Machine

/-!
PROOFS. The expander (R171 to R173): WLD and WEX as equations, and their sixty-four steps composed to `Sched(B)`.
-/

namespace Sys2Proof.Machine

/-! ## The micro-operations (R171, R172) -/

theorem afterWld_eq_setSeq (t : BitVec 7) (blk : Quad) (s : State) :
    afterWld t blk s = s.setSeq (if t.toNat < 15 then ⟨.wld, blk, t + 1⟩ else ⟨.wex, blk, 16⟩) := by
  unfold afterWld
  split <;> rfl

theorem afterWex_eq_setSeq (j : BitVec 7) (blk : Quad) (s : State) :
    afterWex j blk s = s.setSeq (if j.toNat < 63 then ⟨.wex, blk, j + 1⟩ else ⟨.rld, blk, 0⟩) := by
  unfold afterWex
  split <;> rfl

theorem exec_wld_of_readPbWord {s : State} {t : BitVec 7} {blk : Quad} {x : Word} (ht : t.toNat ≤ 15)
    (hx : readPbWord s (blockWordAddr blk.toNat t.toNat) = .ok x) : exec (.wld t blk) s =
      .next ((writeSched t.toNat x s).setSeq (if t.toNat < 15 then ⟨.wld, blk, t + 1⟩ else ⟨.wex, blk, 16⟩)) := by
  change execWld t blk s = _
  rw [execWld, if_pos ht, hx, orFault_ok, afterWld_eq_setSeq]

theorem exec_wex_of_readSched {s : State} {j : BitVec 7} {blk : Quad} {w16 w15 w7 w2 : Word}
    (hj : 16 ≤ j.toNat ∧ j.toNat ≤ 63) (h16 : readSched s (j.toNat - 16) = .ok w16)
    (h15 : readSched s (j.toNat - 15) = .ok w15) (h7 : readSched s (j.toNat - 7) = .ok w7)
    (h2 : readSched s (j.toNat - 2) = .ok w2) : exec (.wex j blk) s =
      .next ((writeSched j.toNat (schedNext w16 w15 w7 w2) s).setSeq
        (if j.toNat < 63 then ⟨.wex, blk, j + 1⟩ else ⟨.rld, blk, 0⟩)) := by
  change execWex j blk s = _
  rw [execWex, if_pos hj, h16, orFault_ok, h15, orFault_ok, h7, orFault_ok, h2, orFault_ok, afterWex_eq_setSeq]

theorem readSched_writeSched_same (s : State) {j : Nat} (h : j < 64) (x : Word) :
    readSched (writeSched j x s) j = .ok x := by
  rw [readSched_writeSched, if_pos ⟨rfl, h⟩]

/-- The recurrence as one sum: the inner reductions are absorbed by the outer one (R172). -/
theorem schedNext_toNat (w16 w15 w7 w2 : Word) : (schedNext w16 w15 w7 w2).toNat =
    (w16.toNat + (ssig0 w15).toNat + w7.toNat + (ssig1 w2).toNat) % 2 ^ 32 := by
  simp only [schedNext, add32_toNat, Nat.mod_add_mod]

/-- Settles O27: the word written is `BE32` of the four bytes, which fits, and a write of one word keeps the others. -/
theorem wldLoadsTheBlockWord : Obligations.WldLoadsTheBlockWord := by
  intro s t blk b0 b1 b2 b3 ht h0 h1 h2 h3
  have hx : readPbWord s (blockWordAddr blk.toNat t.toNat) = .ok (be32 b0 b1 b2 b3) :=
    readPbWord_ok_iff.2 ⟨b0, b1, b2, b3, h0, h1, h2, h3, rfl⟩
  exact ⟨_, exec_wld_of_readPbWord ht hx, rfl,
    ⟨_, readSched_writeSched_same s (by omega) _, be32_toNat b0 b1 b2 b3⟩,
    fun _ hk => readSched_writeSched_other hk _, rfl⟩

/-- Settles O28: the word written is the recurrence of the four words read, and a write of one word keeps the others. -/
theorem wexExpandsTheSchedule : Obligations.WexExpandsTheSchedule := by
  intro s j blk w16 w15 w7 w2 hj hj' h16 h15 h7 h2
  exact ⟨_, exec_wex_of_readSched ⟨hj, hj'⟩ h16 h15 h7 h2, rfl,
    ⟨_, readSched_writeSched_same s (by omega) _, schedNext_toNat w16 w15 w7 w2⟩,
    fun _ hk => readSched_writeSched_other hk _, rfl⟩

/-! ## The sixty-four steps (R173) -/

/-- `SEQ` when `n` words of a block's schedule are written: WLD and WEX count on in one index. -/
def expandSeq (blk : Quad) (n : Nat) : Seq :=
  if n < 16 then ⟨.wld, blk, BitVec.ofNat 7 n⟩
  else if n < 64 then ⟨.wex, blk, BitVec.ofNat 7 n⟩
  else ⟨.rld, blk, 0⟩

/-- `s` with the first `n` words of `ws` written to `W`. -/
def withWords (ws : List Word) (s : State) : Nat → State
  | 0 => s
  | n + 1 => writeSched n (ws.getD n 0) (withWords ws s n)

/-- The state inside the expander when `n` words are written. -/
def expanding (b : Nat → Byte) (blk : Quad) (s : State) (n : Nat) : State :=
  (withWords (schedOf b) s n).setSeq (expandSeq blk n)

theorem withWords_frame (ws : List Word) (s : State) (n : Nat) :
    withWords ws s n = s.setSched (withWords ws s n).sched := by
  induction n with
  | zero => rfl
  | succ n ih => rw [withWords, ih]; rfl

theorem readSched_withWords (ws : List Word) (s : State) {n k : Nat} (hn : n ≤ 64) (hk : k < n) :
    readSched (withWords ws s n) k = .ok (ws.getD k 0) := by
  induction n with
  | zero => omega
  | succ n ih =>
    rw [withWords]
    by_cases e : k = n
    · rw [e, readSched_writeSched_same _ (by omega)]
    · rw [readSched_writeSched_other e, ih (by omega) (by omega)]

@[simp] theorem expanding_seq (b : Nat → Byte) (blk : Quad) (s : State) (n : Nat) :
    (expanding b blk s n).seq = expandSeq blk n := rfl

theorem expanding_frame (b : Nat → Byte) (blk : Quad) (s : State) (n : Nat) :
    expanding b blk s n = (s.setSched (expanding b blk s n).sched).setSeq (expanding b blk s n).seq := by
  rw [expanding, withWords_frame]
  rfl

theorem readSched_expanding (b : Nat → Byte) (blk : Quad) (s : State) {n k : Nat} (hn : n ≤ 64) (hk : k < n) :
    readSched (expanding b blk s n) k = .ok ((schedOf b).getD k 0) := readSched_withWords _ s hn hk

/-- The expander's steps do not touch the block they read. -/
theorem readPbByte_expanding (b : Nat → Byte) (blk : Quad) (s : State) (n a : Nat) :
    readPbByte (expanding b blk s n) a = readPbByte s a :=
  readPbByte_congr (by rw [expanding_frame]; rfl) a

/-- `SEQ` after WLD `n` (R171). -/
theorem expandSeq_succ_of_wld (blk : Quad) {n : Nat} (hn : n < 16) : expandSeq blk (n + 1) =
    if n < 15 then ⟨.wld, blk, BitVec.ofNat 7 n + 1⟩ else ⟨.wex, blk, 16⟩ := by
  by_cases h : n < 15
  · rw [expandSeq, if_pos (by omega), if_pos h, BitVec.ofNat_add]
    rfl
  · obtain rfl : n = 15 := by omega
    rfl

/-- `SEQ` after WEX `n` (R172). -/
theorem expandSeq_succ_of_wex (blk : Quad) {n : Nat} (h16 : 16 ≤ n) (h63 : n ≤ 63) : expandSeq blk (n + 1) =
    if n < 63 then ⟨.wex, blk, BitVec.ofNat 7 n + 1⟩ else ⟨.rld, blk, 0⟩ := by
  by_cases h : n < 63
  · rw [expandSeq, if_neg (by omega), if_pos (by omega), if_pos h, BitVec.ofNat_add]
    rfl
  · obtain rfl : n = 63 := by omega
    rfl

/-- WLD `n` writes word `n` of the block, which is word `n` of its schedule. -/
theorem exec_wld_expanding {s : State} {blk : Quad} {b : Nat → Byte}
    (hb : ∀ k, k < 64 → readPbByte s (64 * blk.toNat + k) = .ok (b k)) {n : Nat} (hn : n < 16) :
    exec (.wld (BitVec.ofNat 7 n) blk) (expanding b blk s n) = .next (expanding b blk s (n + 1)) := by
  have ht : (BitVec.ofNat 7 n).toNat = n := by rw [BitVec.toNat_ofNat, Nat.mod_eq_of_lt (by omega)]
  have byte (d : Nat) (hd : d < 4) : readPbByte (expanding b blk s n) (blockWordAddr blk.toNat n + d) =
      .ok (b (4 * n + d)) := by
    rw [readPbByte_expanding, blockWordAddr, Nat.add_assoc, hb _ (by omega)]
  have hx : readPbWord (expanding b blk s n) (blockWordAddr blk.toNat n) = .ok ((schedOf b).getD n 0) :=
    readPbWord_ok_iff.2 ⟨_, _, _, _, byte 0 (by omega), byte 1 (by omega), byte 2 (by omega), byte 3 (by omega),
      schedOf_getD_of_lt b hn⟩
  rw [exec_wld_of_readPbWord (by omega) (by rw [ht]; exact hx), ht, ← expandSeq_succ_of_wld blk hn]
  rfl

/-- WEX `n` writes the recurrence of four words written before, which is word `n` of the schedule. -/
theorem exec_wex_expanding (s : State) (blk : Quad) (b : Nat → Byte) {n : Nat} (h16 : 16 ≤ n) (h63 : n ≤ 63) :
    exec (.wex (BitVec.ofNat 7 n) blk) (expanding b blk s n) = .next (expanding b blk s (n + 1)) := by
  have hj : (BitVec.ofNat 7 n).toNat = n := by rw [BitVec.toNat_ofNat, Nat.mod_eq_of_lt (by omega)]
  have word (d : Nat) (hd : 0 < d) : readSched (expanding b blk s n) ((BitVec.ofNat 7 n).toNat - d) =
      .ok ((schedOf b).getD (n - d) 0) := by
    rw [hj]
    exact readSched_expanding b blk s (by omega) (by omega)
  rw [exec_wex_of_readSched (by omega) (word 16 (by omega)) (word 15 (by omega)) (word 7 (by omega))
    (word 2 (by omega)), hj, ← schedOf_getD_of_ge b h16 h63,
    ← expandSeq_succ_of_wex blk h16 h63]
  rfl

/-- Each of the sixty-four steps, WLD or WEX, writes one word more. -/
theorem run_succ_expanding {s : State} {blk : Quad} {b : Nat → Byte} (hm : s.inputs = [])
    (hb : ∀ k, k < 64 → readPbByte s (64 * blk.toNat + k) = .ok (b k)) {n : Nat} (hn : n < 64) (m : Nat) :
    Host.Core.run Sys2Proof.core (m + 1) (expanding b blk s n) =
      Host.Core.run Sys2Proof.core m (expanding b blk s (n + 1)) := by
  have hin : (expanding b blk s n).inputs = [] := by rw [expanding_frame]; exact hm
  by_cases h : n < 16
  · refine run_succ_of_exec hin ?_ (exec_wld_expanding hb h)
    rw [expanding_seq, expandSeq, if_pos h]
    rfl
  · refine run_succ_of_exec hin ?_ (exec_wex_expanding s blk b (by omega) (by omega))
    rw [expanding_seq, expandSeq, if_neg h, if_pos hn]
    rfl

/-- From any place in the expander the steps that are left write the words that are left. -/
theorem run_expanding {s : State} {blk : Quad} {b : Nat → Byte} (hm : s.inputs = [])
    (hb : ∀ k, k < 64 → readPbByte s (64 * blk.toNat + k) = .ok (b k)) {n k : Nat} (hk : k + n = 64) :
    Host.Core.run Sys2Proof.core n (expanding b blk s k) = .next (expanding b blk s 64) := by
  induction n generalizing k with
  | zero => rw [show k = 64 by omega]; rfl
  | succ n ih => rw [run_succ_expanding hm hb (by omega), ih (by omega)]

/-- Settles O33: each of the sixty-four steps writes the next word of `Sched(B)`. -/
theorem expanderComputesSched : Obligations.ExpanderComputesSched := by
  intro s blk b hm hseq hb
  have hstart : expanding b blk s 0 = s := by
    change s.setSeq ⟨.wld, blk, 0⟩ = s
    rw [← hseq, State.setSeq_self]
  have hrun := run_expanding hm hb (Nat.zero_add 64)
  rw [hstart] at hrun
  refine ⟨_, hrun, expanding_seq b blk s 64, expanding_frame b blk s 64, fun j hj =>
    ⟨(schedOf b).getD j 0, ?_, readSched_expanding b blk s (Nat.le_refl 64) hj⟩⟩
  rw [List.getD, List.getElem?_eq_getElem (by rw [schedOf_length]; exact hj)]
  rfl

end Sys2Proof.Machine

/-!
PROOFS. The compressor (R191 to R194): RLD, RND and FFW as equations, and the sixty-six steps of a block composed to
`Compress`.
-/

namespace Sys2Proof.Machine

/-! ## The micro-operations (R191 to R193) -/

theorem afterRnd_eq_setSeq (j : BitVec 7) (blk : Quad) (s : State) :
    afterRnd j blk s = s.setSeq (if j.toNat < 63 then ⟨.rnd, blk, j + 1⟩ else ⟨.ffw, blk, 0⟩) := by
  unfold afterRnd
  split <;> rfl

theorem exec_rld_of_hash {s : State} {h : Words8} (hh : s.hash = some h) (blk : Quad) :
    exec (.rld blk) s = .next ((s.setRegs (some (loadRegs h))).setSeq ⟨.rnd, blk, 0⟩) := by
  change execRld blk s = _
  rw [execRld, readHash_ok_iff.2 hh, orFault_ok, goTo]

theorem exec_rnd_of_readSched {s : State} {j : BitVec 7} {r : WorkRegs} {w : Word} (hj : j.toNat ≤ 63)
    (hr : s.regs = some r) (hw : readSched s j.toNat = .ok w) (blk : Quad) : exec (.rnd j blk) s =
      .next ((s.setRegs (some (roundFn r (kConst j.toNat) w))).setSeq
        (if j.toNat < 63 then ⟨.rnd, blk, j + 1⟩ else ⟨.ffw, blk, 0⟩)) := by
  change execRnd j blk s = _
  rw [execRnd, if_pos hj, readRegs_ok_iff.2 hr, orFault_ok, hw, orFault_ok, afterRnd_eq_setSeq]

/-- FFW inside the run's blocks: one state for both of its ways on, which differ in `SEQ` alone. -/
theorem exec_ffw_of_le {s : State} {blk nb : Quad} {h : Words8} {r : WorkRegs} (hh : s.hash = some h)
    (hr : s.regs = some r) (hn : s.nblk = some nb) (hb : blk.toNat + 1 ≤ nb.toNat) : exec (.ffw blk) s =
      .next (((s.setHash (some (feedForward h r))).setSched (Vector.replicate 64 none)).setSeq
        (if blk.toNat + 1 < nb.toNat then ⟨.wld, blk + 1, 0⟩ else ⟨.emit, blk + 1, 0⟩)) := by
  change execFfw blk s = _
  rw [execFfw, readHash_ok_iff.2 hh, orFault_ok, readRegs_ok_iff.2 hr, orFault_ok, readNblk_ok_iff.2 hn, orFault_ok]
  split
  · rfl
  · rw [if_pos (by omega)]
    rfl

theorem kConst_of_getElem? {j : Nat} {k : Word} (h : kTable[j]? = some k) : kConst j = k := by
  rw [kConst, List.getD, h, Option.getD_some]

/-- The new `e` as one sum: the inner reductions are absorbed by the outer one (R192). -/
theorem roundFn_e_toNat (r : WorkRegs) (k w : Word) : (roundFn r k w).e.toNat = (r.d.toNat +
    (r.h.toNat + (bsig1 r.e).toNat + (chFn r.e r.f r.g).toNat + k.toNat + w.toNat)) % 2 ^ 32 := by
  simp only [roundFn, roundT1, add32_toNat, Nat.mod_add_mod, Nat.add_mod_mod]

/-- The new `a` as one sum (R192). -/
theorem roundFn_a_toNat (r : WorkRegs) (k w : Word) : (roundFn r k w).a.toNat =
    ((r.h.toNat + (bsig1 r.e).toNat + (chFn r.e r.f r.g).toNat + k.toNat + w.toNat) +
      ((bsig0 r.a).toNat + (majFn r.a r.b r.c).toNat)) % 2 ^ 32 := by
  simp only [roundFn, roundT1, roundT2, add32_toNat, Nat.mod_add_mod, Nat.add_mod_mod]

/-- Settles O29: the registers loaded are the eight words of the hash state. -/
theorem rldCopiesTheHashState : Obligations.RldCopiesTheHashState := fun _ blk _ hh => exec_rld_of_hash hh blk

/-- Settles O30: the model's table is R124's, and the six registers that move are those of `roundFn`, whose two sums
are reduced once. -/
theorem rndUpdatesInParallel : Obligations.RndUpdatesInParallel := by
  refine ⟨rfl, fun s j blk r w k hj hr hw hk => ⟨roundFn r k w, ?_, rfl, rfl, rfl, rfl, rfl, rfl,
    roundFn_e_toNat r k w, roundFn_a_toNat r k w⟩⟩
  rw [exec_rnd_of_readSched hj hr hw, kConst_of_getElem? hk]

/-- Settles O31: the words written are those of the feed-forward, and which of the two ways on FFW takes depends on
whether another block is left. -/
theorem ffwAddsTheRegisters : Obligations.FfwAddsTheRegisters := by
  intro s blk nb h r hh hr hn hb
  exact ⟨feedForward h r, _, exec_ffw_of_le hh hr hn hb, rfl, add32_toNat _ _, add32_toNat _ _, add32_toNat _ _,
    add32_toNat _ _, add32_toNat _ _, add32_toNat _ _, add32_toNat _ _, add32_toNat _ _,
    fun hlt => if_pos hlt, fun he => if_neg (by omega)⟩

/-! ## The sixty-six steps (R194) -/

/-- `SEQ` when `n` rounds of a block are done. -/
def roundSeq (blk : Quad) (n : Nat) : Seq := if n < 64 then ⟨.rnd, blk, BitVec.ofNat 7 n⟩ else ⟨.ffw, blk, 0⟩

/-- The state inside the compressor when `n` rounds from the hash state `h` are done. -/
def compressing (h : Words8) (w : List Word) (blk : Quad) (s : State) (n : Nat) : State :=
  (s.setRegs (some (roundsFrom w (loadRegs h) n))).setSeq (roundSeq blk n)

/-- `SEQ` after RND `n` (R192). -/
theorem roundSeq_succ (blk : Quad) {n : Nat} (hn : n ≤ 63) : roundSeq blk (n + 1) =
    if n < 63 then ⟨.rnd, blk, BitVec.ofNat 7 n + 1⟩ else ⟨.ffw, blk, 0⟩ := by
  by_cases h : n < 63
  · rw [roundSeq, if_pos (by omega), if_pos h, BitVec.ofNat_add]
    rfl
  · obtain rfl : n = 63 := by omega
    rfl

section
variable {s : State} {w : List Word} (hw : ∀ j, j < 64 → readSched s j = .ok (w.getD j 0))
include hw

/-- RND `n` does round `n`: the rounds do not touch the schedule they read. -/
theorem exec_rnd_compressing (h : Words8) (blk : Quad) {n : Nat} (hn : n < 64) :
    exec (.rnd (BitVec.ofNat 7 n) blk) (compressing h w blk s n) = .next (compressing h w blk s (n + 1)) := by
  have hj : (BitVec.ofNat 7 n).toNat = n := by rw [BitVec.toNat_ofNat, Nat.mod_eq_of_lt (by omega)]
  have hword : readSched (compressing h w blk s n) (BitVec.ofNat 7 n).toNat = .ok (w.getD n 0) := by
    rw [hj]
    exact hw n hn
  rw [exec_rnd_of_readSched (by omega) rfl hword, hj, ← roundSeq_succ blk (by omega)]
  rfl

/-- From any place in the compressor the rounds that are left bring the run to FFW. -/
theorem run_compressing (hm : s.inputs = []) (h : Words8) (blk : Quad) (m : Nat) {n k : Nat} (hk : k + n = 64) :
    Host.Core.run Sys2Proof.core (m + n) (compressing h w blk s k) =
      Host.Core.run Sys2Proof.core m (compressing h w blk s 64) := by
  induction n generalizing k with
  | zero => rw [show k = 64 by omega, Nat.add_zero]
  | succ n ih =>
    have hfetch : fetchSeq (compressing h w blk s k).seq = .ok (.rnd (BitVec.ofNat 7 k) blk) := by
      change fetchSeq (roundSeq blk k) = _
      rw [roundSeq, if_pos (by omega)]
      rfl
    have hin : (compressing h w blk s k).inputs = [] := hm
    rw [← Nat.add_assoc, run_succ_of_exec hin hfetch (exec_rnd_compressing hw h blk (by omega)), ih (by omega)]

end

/-- Settles O34: RLD loads the registers, each RND does one round more, and FFW adds what they leave. -/
theorem compressorComputesCompress : Obligations.CompressorComputesCompress := by
  intro s blk nb h w hm hseq hh hn hb _ hw
  have hsched (j : Nat) (hj : j < 64) : readSched s j = .ok (w.getD j 0) := by
    obtain ⟨x, hx, hread⟩ := hw j hj
    rw [hread, List.getD, hx, Option.getD_some]
  have hffw := exec_ffw_of_le (s := compressing h w blk s 64) hh rfl hn hb
  have hrun := calc Host.Core.run Sys2Proof.core 66 s
    _ = Host.Core.run Sys2Proof.core (1 + 64) (compressing h w blk s 0) :=
      run_succ_of_exec (i := .rld blk) hm (by rw [hseq]; rfl) (exec_rld_of_hash hh blk)
    _ = Host.Core.run Sys2Proof.core (0 + 1) (compressing h w blk s 64) := run_compressing hsched hm h blk 1 rfl
    _ = Host.Core.run Sys2Proof.core 0 _ := run_succ_of_exec (i := .ffw blk) hm rfl hffw
  exact ⟨_, hrun, rfl, rfl, rfl⟩

end Sys2Proof.Machine

/-!
PROOFS. The driver (R211 to R217): HINIT and EMIT; the rows of the sequencer's table, which give `SEQ` after every step
and the steps that are left; and the run as one function, with the host's polls in between.
-/

namespace Sys2Proof.Machine

/-! ## The hash state and the end of a run (R211, R212) -/

/-- Settles O26: the model's `IV` is R123's. -/
theorem hinitLoadsTheConstants : Obligations.HinitLoadsTheConstants := fun _ _ => rfl

/-- Settles O32: EMIT's flags are `BUSY` cleared and `DONE` set, and dropping `W` clears every word. -/
theorem emitEndsTheRun : Obligations.EmitEndsTheRun := fun _ _ => rfl

/-! ## The rows of the next-state table (R213) -/

/-- The rows of R213 of the micro-operations that go on with the run: `SEQ` afterwards. -/
inductive NextSeq (s : State) : Seq → Prop where
  | chk (hp : s.seq.phase = .chk) : NextSeq s ⟨.plen, 0, 0⟩
  | plen (hp : s.seq.phase = .plen) : NextSeq s ⟨.pzero, 0, 0⟩
  | pzero (hp : s.seq.phase = .pzero) : NextSeq s ⟨.pcopy, 0, 0⟩
  | pcopy (hp : s.seq.phase = .pcopy) : NextSeq s ⟨.pterm, 0, 0⟩
  | pterm (hp : s.seq.phase = .pterm) : NextSeq s ⟨.plenw, 0, 0⟩
  | plenw (hp : s.seq.phase = .plenw) : NextSeq s ⟨.pseg, 0, 0⟩
  | pseg (hp : s.seq.phase = .pseg) : NextSeq s ⟨.hinit, 0, 0⟩
  | hinit (hp : s.seq.phase = .hinit) : NextSeq s ⟨.wld, 0, 0⟩
  | wldMore (hp : s.seq.phase = .wld) (hx : s.seq.idx.toNat < 15) : NextSeq s ⟨.wld, s.seq.blk, s.seq.idx + 1⟩
  | wldLast (hp : s.seq.phase = .wld) (hx : s.seq.idx.toNat = 15) : NextSeq s ⟨.wex, s.seq.blk, 16⟩
  | wexMore (hp : s.seq.phase = .wex) (hx : s.seq.idx.toNat < 63) : NextSeq s ⟨.wex, s.seq.blk, s.seq.idx + 1⟩
  | wexLast (hp : s.seq.phase = .wex) (hx : s.seq.idx.toNat = 63) : NextSeq s ⟨.rld, s.seq.blk, 0⟩
  | rld (hp : s.seq.phase = .rld) : NextSeq s ⟨.rnd, s.seq.blk, 0⟩
  | rndMore (hp : s.seq.phase = .rnd) (hx : s.seq.idx.toNat < 63) : NextSeq s ⟨.rnd, s.seq.blk, s.seq.idx + 1⟩
  | rndLast (hp : s.seq.phase = .rnd) (hx : s.seq.idx.toNat = 63) : NextSeq s ⟨.ffw, s.seq.blk, 0⟩
  | ffwMore (hp : s.seq.phase = .ffw) {nb : Quad} (hn : s.nblk = some nb) (hb : s.seq.blk.toNat + 1 < nb.toNat) :
      NextSeq s ⟨.wld, s.seq.blk + 1, 0⟩
  | ffwLast (hp : s.seq.phase = .ffw) {nb : Quad} (hn : s.nblk = some nb) (hb : s.seq.blk.toNat + 1 = nb.toNat) :
      NextSeq s ⟨.emit, s.seq.blk + 1, 0⟩

/-- The grounds on which a micro-operation enters the fault state (R145, R148, R152). -/
inductive FaultGround (s : State) : Prop where
  | length (hp : s.seq.phase = .chk) (hl : s.len.toNat = 0 ∨ 2 ^ 61 ≤ s.len.toNat)
  | capacity (hp : s.seq.phase = .pzero) {nb : Quad} (hn : s.nblk = some nb)
      (hc : overCapacity s.maxBlocks nb.toNat = true)
  | partition (hp : s.seq.phase = .pseg) {p nb : Quad} (hl : s.plen = some p) (hn : s.nblk = some nb)
      (hc : p.toNat % 64 ≠ 0 ∨ nb.toNat * 64 ≠ p.toNat ∨ nb.toNat < 1)

/-- What no sequencer step changes: the length, the host's message and further moves, and the capacity. -/
structure SameSurroundings (s t : State) : Prop where
  len : t.len = s.len
  msg : t.msg = s.msg
  maxBlocks : t.maxBlocks = s.maxBlocks
  inputs : t.inputs = s.inputs

/-- A micro-operation that goes on with the run: its row of R213, the flags and the surroundings as they were. -/
structure Advances (s t : State) : Prop extends SameSurroundings s t where
  row : NextSeq s t.seq
  status : t.status = s.status

/-- The sequencer rests, enters the fault state on one of the three grounds, ends its run, or goes on by its row. -/
theorem seqStep_cases {s t : State} (h : seqStep s = .next t) :
    (s.seq.phase = .idle ∧ t = s) ∨ (FaultGround s ∧ ∃ c, t = raise c s) ∨
    (s.seq.phase = .emit ∧ execEmit s.seq.blk s = .next t) ∨ Advances s t := by
  obtain ⟨hp, rfl⟩ | ⟨hp, h⟩ | ⟨hp, h⟩ | ⟨hp, h⟩ | ⟨hp, h⟩ | ⟨hp, h⟩ | ⟨hp, h⟩ | ⟨hp, h⟩ | ⟨hp, h⟩ | ⟨hp, h⟩ |
    ⟨hp, h⟩ | ⟨hp, h⟩ | ⟨hp, h⟩ | ⟨hp, h⟩ | ⟨hp, h⟩ := seqStep_next h
  case inl => exact .inl ⟨hp, rfl⟩
  all_goals refine .inr ?_
  · obtain ⟨hl, rfl⟩ | ⟨hl, rfl⟩ | ⟨-, -, rfl⟩ := execChk_next h
    · exact .inl ⟨.length hp (.inl hl), _, rfl⟩
    · exact .inl ⟨.length hp (.inr hl), _, rfl⟩
    · exact .inr (.inr ⟨⟨rfl, rfl, rfl, rfl⟩, .chk hp, rfl⟩)
  · cases h; exact .inr (.inr ⟨⟨rfl, rfl, rfl, rfl⟩, .plen hp, rfl⟩)
  · obtain ⟨nb, hn, ⟨hc, rfl⟩ | ⟨-, p, -, rfl⟩⟩ := execPzero_next h
    · exact .inl ⟨.capacity hp hn hc, _, rfl⟩
    · exact .inr (.inr ⟨⟨rfl, rfl, rfl, rfl⟩, .pzero hp, rfl⟩)
  · obtain ⟨b, -, -, rfl⟩ := execPcopy_next h
    exact .inr (.inr ⟨⟨rfl, rfl, rfl, rfl⟩, .pcopy hp, rfl⟩)
  · obtain ⟨b, -, -, rfl⟩ := execPterm_next h
    exact .inr (.inr ⟨⟨rfl, rfl, rfl, rfl⟩, .pterm hp, rfl⟩)
  · obtain ⟨p, b, -, -, -, -, rfl⟩ := execPlenw_next h
    exact .inr (.inr ⟨⟨rfl, rfl, rfl, rfl⟩, .plenw hp, rfl⟩)
  · obtain ⟨p, nb, hl, hn, ⟨hc, rfl⟩ | ⟨-, -, -, rfl⟩⟩ := execPseg_next h
    · exact .inl ⟨.partition hp hl hn hc, _, rfl⟩
    · exact .inr (.inr ⟨⟨rfl, rfl, rfl, rfl⟩, .pseg hp, rfl⟩)
  · cases h; exact .inr (.inr ⟨⟨rfl, rfl, rfl, rfl⟩, .hinit hp, rfl⟩)
  · obtain ⟨hx, x, -, rfl⟩ := execWld_next h
    unfold afterWld
    split
    · exact .inr (.inr ⟨⟨rfl, rfl, rfl, rfl⟩, .wldMore hp ‹_›, rfl⟩)
    · exact .inr (.inr ⟨⟨rfl, rfl, rfl, rfl⟩, .wldLast hp (by omega), rfl⟩)
  · obtain ⟨⟨-, hx⟩, w16, w15, w7, w2, -, -, -, -, rfl⟩ := execWex_next h
    unfold afterWex
    split
    · exact .inr (.inr ⟨⟨rfl, rfl, rfl, rfl⟩, .wexMore hp ‹_›, rfl⟩)
    · exact .inr (.inr ⟨⟨rfl, rfl, rfl, rfl⟩, .wexLast hp (by omega), rfl⟩)
  · obtain ⟨v, -, rfl⟩ := execRld_next h
    exact .inr (.inr ⟨⟨rfl, rfl, rfl, rfl⟩, .rld hp, rfl⟩)
  · obtain ⟨hx, r, w, -, -, rfl⟩ := execRnd_next h
    unfold afterRnd
    split
    · exact .inr (.inr ⟨⟨rfl, rfl, rfl, rfl⟩, .rndMore hp ‹_›, rfl⟩)
    · exact .inr (.inr ⟨⟨rfl, rfl, rfl, rfl⟩, .rndLast hp (by omega), rfl⟩)
  · obtain ⟨v, r, nb, -, -, hn, ⟨hb, rfl⟩ | ⟨hb, rfl⟩⟩ := execFfw_next h
    · exact .inr (.inr ⟨⟨rfl, rfl, rfl, rfl⟩, .ffwMore hp hn hb, rfl⟩)
    · exact .inr (.inr ⟨⟨rfl, rfl, rfl, rfl⟩, .ffwLast hp hn hb, rfl⟩)
  · exact .inr (.inl ⟨hp, h⟩)

theorem seqStep_surroundings {s t : State} (h : seqStep s = .next t) : SameSurroundings s t := by
  obtain ⟨-, rfl⟩ | ⟨-, c, rfl⟩ | ⟨-, h⟩ | h := seqStep_cases h
  · exact ⟨rfl, rfl, rfl, rfl⟩
  · exact ⟨raise_len c s, raise_msg c s, raise_maxBlocks c s, raise_inputs c s⟩
  · cases h; exact ⟨rfl, rfl, rfl, rfl⟩
  · exact h.toSameSurroundings

theorem FaultGround.phase_ne_idle {s : State} (h : FaultGround s) : s.seq.phase ≠ .idle := by
  cases h <;> simp [*]

theorem NextSeq.phase_ne_idle {s : State} {q : Seq} (h : NextSeq s q) : s.seq.phase ≠ .idle := by
  cases h <;> simp [*]

/-- Settles O10: the row of each phase, fault entry, or EMIT's end of the run. -/
theorem sequencerFollowsTheTable : Obligations.SequencerFollowsTheTable := by
  intro s t he h
  obtain ⟨hp, rfl⟩ | ⟨hf, c, rfl⟩ | ⟨hp, h⟩ | ⟨-, row, hst⟩ := seqStep_cases h
  · exact .inr ⟨he, by rw [hp]⟩
  · exact .inl ⟨raise_err c s, by simp [he, faultFlags], hf.phase_ne_idle, raise_seq_of_not_err he c⟩
  · cases h
    exact .inr ⟨he, by rw [hp]; exact ⟨rfl, rfl, rfl⟩⟩
  · refine .inr ⟨hst ▸ he, ?_⟩
    generalize hq : t.seq = q at row ⊢
    cases row with
    | wldMore hp hx | wexMore hp hx | rndMore hp hx => rw [hp]; exact .inl ⟨hx, rfl⟩
    | wldLast hp hx | wexLast hp hx | rndLast hp hx => rw [hp]; exact .inr ⟨hx, rfl⟩
    | ffwMore hp hn hb => rw [hp]; exact ⟨_, hn, .inl ⟨hb, rfl⟩⟩
    | ffwLast hp hn hb => rw [hp]; exact ⟨_, hn, .inr ⟨hb, rfl⟩⟩
    | _ hp => rw [hp]

/-! ## The steps that are left (R215) -/

theorem StatusInv.phase_ne_idle {s : State} (hs : StatusInv s) (h : s.status.busy = true) : s.seq.phase ≠ .idle := by
  obtain ⟨hb, -⟩ := hs
  exact hb.1 h

theorem stepsLeft_of_idle {s : State} (hp : s.seq.phase = .idle) : stepsLeft s = 0 := by
  rw [stepsLeft, hp]

/-- A sequencer that does not rest has a step left: its index is in the range of its phase. -/
theorem RunInv.stepsLeft_pos {s : State} (hr : RunInv s) (hp : s.seq.phase ≠ .idle) : 1 ≤ stepsLeft s := by
  have hx := hr.idxRange
  have hpos := blockCount_pos s.len.toNat
  unfold stepsLeft
  cases h : s.seq.phase <;> simp only [h, idxInRange] at hx ⊢
  case idle => exact absurd h hp
  all_goals omega

theorem stepsLeft_eq_zero_iff {s : State} (hi : StatusInv s) (hr : RunInv s) :
    stepsLeft s = 0 ↔ s.status.busy = false := by
  obtain ⟨hb, -⟩ := hi
  by_cases hp : s.seq.phase = .idle
  · simpa [stepsLeft_of_idle hp, hp] using hb
  · have := hr.stepsLeft_pos hp
    exact iff_of_false (by omega) (by simp [hb.2 hp])

/-- Each row of the table takes one off the steps that are left. -/
theorem Advances.stepsLeft_succ {s t : State} (hr : RunInv s) (h : Advances s t) :
    stepsLeft s = stepsLeft t + 1 := by
  obtain ⟨⟨hl, -, -, -⟩, row, -⟩ := h
  have hpos := blockCount_pos s.len.toNat
  generalize hq : t.seq = q at row
  cases row with
  | wldMore hp hx | wexMore hp hx | rndMore hp hx =>
    have hsucc := toNat_succ (x := s.seq.idx) (by omega)
    simp only [stepsLeft, hp, hq, hl, hsucc]
    omega
  | ffwMore hp hn hb | ffwLast hp hn hb =>
    obtain ⟨nb, hnb, hcount⟩ := hr.nblk_toNat (by simp [hp])
    cases hnb.symm.trans hn
    have hsucc := toNat_succ (x := s.seq.blk) (by omega)
    have hzero : (0 : BitVec 7).toNat = 0 := rfl
    simp only [stepsLeft, hp, hq, hl, hsucc]
    omega
  | _ hp => simp [stepsLeft, hp, hq, hl]; omega

/-- Fault entry leaves no step, and every other step of a run takes one off. -/
theorem seqStep_stepsLeft {s t : State} (hi : StatusInv s) (hr : RunInv s) (hp : s.seq.phase ≠ .idle)
    (h : seqStep s = .next t) :
    (t.status.err = true ∧ stepsLeft t = 0) ∨ (t.status.err = false ∧ stepsLeft s = stepsLeft t + 1) := by
  have he := hi.not_err hp
  obtain ⟨hp', -⟩ | ⟨-, c, rfl⟩ | ⟨hp, h⟩ | h := seqStep_cases h
  · exact absurd hp' hp
  · exact .inl ⟨raise_err c s, stepsLeft_of_idle (by rw [raise_seq_of_not_err he])⟩
  · cases h
    exact .inr ⟨he, by simp [stepsLeft, hp]⟩
  · exact .inr ⟨h.status ▸ he, h.stepsLeft_succ hr⟩

/-- Settles O36: a busy sequencer answers, and its step takes one off the steps that are left or faults. -/
theorem sequencerStepsRunOut : Obligations.SequencerStepsRunOut := by
  intro s hi hr hb hm
  have hp := hi.phase_ne_idle hb
  obtain ⟨hi', hr'⟩ : StatusInv (takeMove s) ∧ RunInv (takeMove s) := runInv_kept.inputs _ ⟨hi, hr⟩
  obtain ⟨t, h⟩ := hr'.seqStep_answers
  obtain ⟨hit, hrt⟩ := runInv_kept.sequencer ⟨hi', hr'⟩ h
  exact ⟨hr.stepsLeft_pos hp, t, (step_of_pass hm).trans h, seqStep_stepsLeft (s := takeMove s) hi' hr' hp h,
    stepsLeft_eq_zero_iff hit hrt⟩

/-! ## The run as one function (R217) -/

/-- A run from a legal length within the capacity meets no ground for a fault. -/
theorem RunInv.no_faultGround {s : State} (hr : RunInv s) (h1 : 1 ≤ s.len.toNat) (h61 : s.len.toNat < 2 ^ 61)
    (hcap : overCapacity s.maxBlocks (blockCount s.len.toNat) = false) : ¬ FaultGround s := by
  intro hf
  cases hf with
  | length hp hl => omega
  | capacity hp hn hc =>
    obtain ⟨nb, hnb, hcount⟩ := hr.nblk_toNat (by simp [hp])
    cases hnb.symm.trans hn
    rw [hcount, hcap] at hc
    cases hc
  | partition hp hl hn hc =>
    obtain ⟨nb, hnb, hcount⟩ := hr.nblk_toNat (by simp [hp])
    obtain ⟨p, hpl, hlen⟩ := hr.plen_toNat (by simp [hp])
    cases hnb.symm.trans hn
    cases hpl.symm.trans hl
    have hblocks := padLen_eq_blocks s.len.toNat
    have hpos := blockCount_pos s.len.toNat
    omega

/-- The results of a run that hashed the message of `s` stand in `t` (R42 (4), R217). -/
def HasResult (s t : State) : Prop :=
  t.status.done = true ∧ t.hash = some (hashMsg (msgByteAt s) s.len.toNat) ∧
    t.nblk = some (BitVec.ofNat 64 (blockCount s.len.toNat))

/-- `u` is a state of the run that hashes the message of `s`: no fault, the message and its length as they were, and
once the run is over, its results. -/
structure Hashing (s u : State) : Prop where
  core : CoreInv u
  noFault : u.status.err = false
  len : u.len = s.len
  msg : u.msg = s.msg
  maxBlocks : u.maxBlocks = s.maxBlocks
  result : u.status.busy = false → HasResult s u

/-- The host's list of moves is no part of the run. -/
theorem Hashing.moveTaken {s u : State} (h : Hashing s u) : Hashing s (takeMove u) :=
  { h with core := coreInv_kept.inputs _ h.core }

/-- The port's outputs are no part of the run. -/
theorem Hashing.outputs {s u : State} (h : Hashing s u) (r : Option Quad) (n : Nat) :
    Hashing s ((u.setRdata r).setFreeCtr n) :=
  { h with core := coreInv_kept.outputs r n h.core }

/-- EMIT leaves the hash of all blocks in `H` and their number in `NBLK` (R212, R214). -/
theorem Hashing.emit {s u t : State} (hs : Hashing s u) (hp : u.seq.phase = .emit)
    (h : execEmit u.seq.blk u = .next t) : HasResult s t := by
  have hhash := hs.core.digest.folded (by simp [hp])
  rw [hs.core.run.afterBlocks hp, msgByteAt_congr hs.msg, hs.len] at hhash
  obtain ⟨-, hnblk⟩ := hs.core.run.lengths (by simp [hp])
  rw [hs.len] at hnblk
  cases h
  exact ⟨rfl, hhash, hnblk⟩

/-- A legal poll answers with the port's outputs alone (R243, R244). -/
theorem exec_poll {i : Instr} {s : State} (he : s.status.err = false) (hi : i = .rdstatus ∨ i = .rdlen) :
    ∃ r, exec i s = .next ((s.setRdata r).setFreeCtr s.freeCtr) := by
  obtain rfl | rfl := hi
  · exact ⟨some ((statusWord s.status).setWidth 64), rfl⟩
  · refine ⟨some s.len, ?_⟩
    simp only [exec, execRdlen, unlessFaulted, he]
    rfl

theorem step_of_txn {s : State} {w : HostWord} (h : nextMove s = .txn w) :
    step s = exec (decodeHost w) (takeMove s) := by
  unfold step; rw [h]

/-- A run takes a step that answers, then goes on. -/
theorem run_succ_of_step {s u : State} (h : step s = .next u) (n : Nat) :
    Host.Core.run Sys2Proof.core (n + 1) s = Host.Core.run Sys2Proof.core n u := by
  have hcore : Sys2Proof.core.step s = .next u := h
  simp only [Host.Core.run, hcore]

section
variable {s u : State} (h1 : 1 ≤ s.len.toNat) (h61 : s.len.toNat < 2 ^ 61)
  (hcap : overCapacity s.maxBlocks (blockCount s.len.toNat) = false)
include h1 h61 hcap

/-- The sequencer's step stays in the run: it meets no fault, and EMIT leaves the results. -/
theorem Hashing.sequencer {t : State} (hs : Hashing s u) (h : seqStep u = .next t) : Hashing s t := by
  obtain ⟨hlen, hmsg, hmax, -⟩ := seqStep_surroundings h
  have hcore := coreInv_kept.sequencer hs.core h
  have stays (he : t.status.err = false) (hres : t.status.busy = false → HasResult s t) : Hashing s t :=
    ⟨hcore, he, hlen.trans hs.len, hmsg.trans hs.msg, hmax.trans hs.maxBlocks, hres⟩
  obtain ⟨-, rfl⟩ | ⟨hf, -⟩ | ⟨hp, he⟩ | ha := seqStep_cases h
  · exact hs
  · rw [← hs.len] at h1 h61 hcap
    rw [← hs.maxBlocks] at hcap
    exact absurd hf (hs.core.run.no_faultGround h1 h61 hcap)
  · have hres := hs.emit hp he
    cases he
    exact stays hs.noFault fun _ => hres
  · refine stays (ha.status ▸ hs.noFault) fun hb => ?_
    rw [ha.status] at hb
    exact absurd (hs.core.status.phase_idle hb) ha.row.phase_ne_idle

/-- Passes as many as the steps that are left bring the run to its end, whatever legal polls come between. -/
theorem Hashing.run {moves : List HostMove} (hs : Hashing s u) (hm : u.inputs = moves)
    (hpolls : onlyPolls moves) (hcount : moves.count .pass = stepsLeft u) :
    ∃ t, Host.Core.run Sys2Proof.core moves.length u = .next t ∧ Hashing s t ∧ stepsLeft t = 0 := by
  induction moves generalizing u with
  | nil => exact ⟨u, rfl, hs, hcount.symm⟩
  | cons m rest ih =>
    have htail : (takeMove u).inputs = rest := by simp [takeMove, hm]
    have hrest : onlyPolls rest := fun k hk => hpolls k (List.mem_cons_of_mem m hk)
    have htake := hs.moveTaken
    obtain rfl | ⟨w, rfl, hw⟩ := hpolls m List.mem_cons_self
    · rw [List.count_cons_self] at hcount
      have hp : u.seq.phase ≠ .idle := fun hp => by simp [stepsLeft_of_idle hp] at hcount
      obtain ⟨t, ht⟩ := htake.core.run.seqStep_answers
      have hst := htake.sequencer h1 h61 hcap ht
      have hleft : stepsLeft u = stepsLeft t + 1 := by
        obtain ⟨he, -⟩ | ⟨-, e⟩ := seqStep_stepsLeft htake.core.status htake.core.run hp ht
        · rw [hst.noFault] at he; cases he
        · exact e
      rw [List.length_cons, run_succ_of_step ((step_of_pass (by simp [nextMove, hm])).trans ht)]
      exact ih hst ((seqStep_surroundings ht).inputs.trans htail) hrest (by omega)
    · obtain ⟨r, hr⟩ := exec_poll htake.noFault hw
      rw [List.length_cons, run_succ_of_step ((step_of_txn (by simp [nextMove, hm])).trans hr)]
      rw [List.count_cons_of_ne (by simp)] at hcount
      exact ih (htake.outputs r _) htail hrest hcount

end

/-- An accepted START begins the run with the host's further moves pending (R241). -/
theorem step_start {s : State} (hr : Ready s) (moves : List HostMove) :
    step (s.setInputs (wr 0 1 :: moves)) = .next (replyNone (startRun (s.setInputs moves))) := by
  obtain ⟨hb, he⟩ := hr
  have hstart : decodeHost (hostWord true 0 1) = .start := by simp [decodeHost_hostWord, decodeWrite]
  rw [step_of_txn (w := hostWord true 0 1) rfl, hstart]
  change controlWrite startRun (s.setInputs moves) = _
  obtain ⟨he', -⟩ | ⟨-, hb', -⟩ | ⟨-, -, e⟩ := controlWrite_cases startRun (s.setInputs moves)
  · simp [he] at he'
  · simp [hb] at hb'
  · exact e

/-- START enters the run: its flags say busy, and it touches neither the message nor the length. -/
theorem hashing_start {s : State} (hs : CoreInv s) (hr : Ready s) (moves : List HostMove) :
    Hashing s (replyNone (startRun (s.setInputs moves))) where
  core := coreInv_kept.outputs none s.freeCtr
    (coreInv_kept.start (s := s.setInputs moves) hr (coreInv_kept.inputs moves hs))
  noFault := hr.2
  len := rfl
  msg := rfl
  maxBlocks := rfl
  result hb := by cases hb

theorem digestOf_of_done {s : State} {h : Words8} (hd : s.status.done = true) (hh : s.hash = some h) :
    digestOf s = some (digestBytes h) := by
  rw [digestOf, if_pos hd, hh]
  rfl

/-- Settles O35: START enters the run with all its steps left, and the passes among the moves are as many. -/
theorem runHashesTheMessage : Obligations.RunHashesTheMessage := by
  intro s moves hs hr h1 h61 hcap hpolls hcount
  obtain ⟨t, hrun, ht, hleft⟩ := (hashing_start hs hr moves).run h1 h61 hcap rfl hpolls hcount
  have hbusy := (stepsLeft_eq_zero_iff ht.core.status ht.core.run).1 hleft
  obtain ⟨hdone, hhash, hnblk⟩ := ht.result hbusy
  refine ⟨t, ?_, hdone, hbusy, ht.noFault, hhash, digestOf_of_done hdone hhash, hnblk, ht.len, ht.msg⟩
  rw [Nat.add_comm]
  exact (run_succ_of_step (step_start hr moves) moves.length).trans hrun

end Sys2Proof.Machine

/-!
PROOFS. The host port (R240 to R249): each check of the port by the flags that decide it, the transactions in the fault
state and during a run, then each transaction's own rule.
-/

namespace Sys2Proof.Machine

/-! ## The checks of R240, by the flags that decide them -/

section
variable {s : State}

/-- Check 1 of a control write (R249). -/
theorem controlWrite_of_err (he : s.status.err = true) (k : State → State) :
    controlWrite k s = .next (replyUnperformed false s) := by
  simp [controlWrite, replyUnperformed, he]

/-- Check 3 of a control write (R248). -/
theorem controlWrite_of_busy (he : s.status.err = false) (hb : s.status.busy = true) (k : State → State) :
    controlWrite k s = .next (replyUnperformed false (raise .busyViolation s)) := by
  simp [controlWrite, unlessBusy, he, hb]

/-- A control write that passes the checks has its effect. -/
theorem controlWrite_of_ready (hr : Ready s) (k : State → State) : controlWrite k s = .next (replyNone (k s)) := by
  obtain ⟨hb, he⟩ := hr
  simp [controlWrite, unlessBusy, he, hb]

/-- Check 1 of a read of a result (R249). -/
theorem resultRead_of_err (he : s.status.err = true) (k : State → Result) :
    resultRead k s = .next (replyUnperformed true s) := by
  simp [resultRead, replyUnperformed, he]

/-- Check 3 of a read of a result (R248). -/
theorem resultRead_of_busy (he : s.status.err = false) (hb : s.status.busy = true) (k : State → Result) :
    resultRead k s = .next (replyUnperformed true (raise .busyViolation s)) := by
  simp [resultRead, unlessBusy, he, hb]

/-- Check 4 of a read of a result (R245, R246). -/
theorem resultRead_of_not_done (hr : Ready s) (hd : s.status.done = false) (k : State → Result) :
    resultRead k s = .next (replyUnperformed true (raise .illegalAccess s)) := by
  obtain ⟨hb, he⟩ := hr
  simp [resultRead, unlessBusy, whenDone, replyUnperformed, he, hb, hd]

/-- A read of a result that passes the checks reads. -/
theorem resultRead_of_done (hr : Ready s) (hd : s.status.done = true) (k : State → Result) :
    resultRead k s = k s := by
  obtain ⟨hb, he⟩ := hr
  simp [resultRead, unlessBusy, whenDone, he, hb, hd]

theorem unlessFaulted_of_err (he : s.status.err = true) (b : Bool) (k : State → State) :
    unlessFaulted b k s = replyUnperformed b s := by
  simp [unlessFaulted, he]

theorem unlessFaulted_of_not_err (he : s.status.err = false) (b : Bool) (k : State → State) :
    unlessFaulted b k s = k s := by
  simp [unlessFaulted, he]

/-- An illegal word without fault so far is fault entry, busy or resting (R247). -/
theorem illegalWord_of_not_err (he : s.status.err = false) (b : Bool) (c : Cause) :
    illegalWord b c s = replyUnperformed b (raise c s) :=
  unlessFaulted_of_not_err he b _

/-! ## Transactions that are not performed -/

/-- The free value a faulting read returns is the next one of the state it was made in (log 4). -/
theorem replyUnperformed_raise_read (c : Cause) (s : State) :
    replyUnperformed true (raise c s) =
      ((raise c s).setRdata (some (Config.freeRead s.freeCtr))).setFreeCtr (s.freeCtr + 1) := by
  rw [← raise_freeCtr c s]
  rfl

theorem sameCore_replyUnperformed (b : Bool) (s : State) : sameCore s (replyUnperformed b s) := by
  cases b
  · exact sameCore_outputs s none s.freeCtr
  · exact sameCore_outputs s _ _

/-- In the fault state every transaction but RDSTATUS stops at check 1 (R249). -/
theorem exec_of_err {i : Instr} (he : s.status.err = true) (hi : isTransaction i = true) (hne : i ≠ .rdstatus) :
    exec i s = .next (replyUnperformed (isPortRead i) s) := by
  cases i with
  | start | wrlen _ => exact controlWrite_of_err he _
  | rdstatus => exact absurd rfl hne
  | rdnblk | rddig _ => exact resultRead_of_err he _
  | rdlen | illegalCmd _ | illegalRdcmd | illegalWrstatus _ | illegalWrnblk _ | illegalRes4to7 _ _ | illegalWrdig _ _
  | illegalRes16to31 _ _ | illegalRes32to63 _ _ =>
    exact congrArg Host.Outcome.next (unlessFaulted_of_err he _ _)
  | _ => cases hi

/-- The transactions that R248 forbids during a run. -/
def needsRest (i : Instr) : Prop := i = .start ∨ (∃ v, i = .wrlen v) ∨ i = .rdnblk ∨ ∃ k, i = .rddig k

/-- During a run they stop at check 3 (R248). -/
theorem exec_of_busy {i : Instr} (he : s.status.err = false) (hb : s.status.busy = true) (hi : needsRest i) :
    exec i s = .next (replyUnperformed (isPortRead i) (raise .busyViolation s)) := by
  obtain rfl | ⟨v, rfl⟩ | rfl | ⟨k, rfl⟩ := hi
  · exact controlWrite_of_busy he hb _
  · exact controlWrite_of_busy he hb _
  · exact resultRead_of_busy he hb _
  · exact resultRead_of_busy he hb _

end

/-- Settles O44: check 1 stops them all, and what it answers differs in the port's outputs alone. -/
theorem faultStateAnswersOnlyStatus : Obligations.FaultStateAnswersOnlyStatus := by
  intro s i he hi hne
  refine ⟨_, exec_of_err he hi hne, sameCore_replyUnperformed _ s, replyUnperformed_msg s _,
    replyUnperformed_inputs s _, fun hr => ?_, fun hr => ?_⟩
  · rw [hr]; rfl
  · rw [hr]; rfl

/-- Settles O43: check 3 is fault entry, which records the phase and rests the sequencer; a poll changes the outputs
alone. -/
theorem busyPortRaisesBusyViolation : Obligations.BusyPortRaisesBusyViolation := by
  intro s i hb he
  refine ⟨fun hi => ⟨_, exec_of_busy he hb hi, ?_, ?_⟩, fun hi => ?_⟩
  · rw [replyUnperformed_status, raise_status_of_not_err he, faultFlags]
  · rw [replyUnperformed_seq, raise_seq_of_not_err he]
  · obtain ⟨r, h⟩ := exec_poll he hi
    exact ⟨_, h, sameCore_outputs s r _⟩

/-! ## Each transaction's rule (R240 to R247) -/

/-- Settles O6: the step takes the move and executes what its word decodes to. -/
theorem stepRunsTheTransaction : Obligations.StepRunsTheTransaction := by
  intro s w rest i hin hdec
  obtain rfl : decodeHost w = i := Except.ok.inj hdec
  rw [step_of_txn (w := w) (by rw [nextMove, hin]; rfl), takeMove, hin, List.tail_cons]

/-- Settles O37: START passes the checks at rest without fault, and its flags are `BUSY` set and `DONE` cleared. -/
theorem startBeginsARun : Obligations.StartBeginsARun :=
  fun _ hb he => controlWrite_of_ready ⟨hb, he⟩ startRun

/-- Settles O38: WRLEN passes the checks at rest without fault. -/
theorem wrlenSetsTheLength : Obligations.WrlenSetsTheLength :=
  fun _ v hb he => controlWrite_of_ready ⟨hb, he⟩ fun s => s.setLen v

/-- The number of two words put together. -/
theorem toNat_append_eq_add {m n : Nat} (x : BitVec m) (y : BitVec n) :
    (x ++ y).toNat = x.toNat * 2 ^ n + y.toNat := by
  rw [BitVec.toNat_append, ← Nat.shiftLeft_add_eq_or_of_lt y.isLt, Nat.shiftLeft_eq]

/-- The number of the status word (R31, R243). -/
theorem statusWord_toNat (t : Status) :
    (statusWord t).toNat = t.busy.toNat + 2 * t.done.toNat + 4 * t.err.toNat + 16 * (causeCode t.cause).toNat +
      256 * (phaseCode t.fphase).toNat := by
  simp only [statusWord, toNat_append_eq_add, BitVec.toNat_ofBool, BitVec.toNat_ofNat]
  omega

/-- Settles O39: the status word is the sum of its fields, RDLEN stops at no check without fault, and the codes are
those of the two tables. -/
theorem statusAndLengthAreRead : Obligations.StatusAndLengthAreRead := by
  refine ⟨fun s => ⟨⟨_, rfl, ?_⟩, fun he => ?_⟩, by decide, by decide⟩
  · rw [BitVec.toNat_setWidth_of_le (by decide), statusWord_toNat]
  · exact congrArg Host.Outcome.next (unlessFaulted_of_not_err he true _)

/-- Settles O40: the checks in their order, then the read of a count that holds a value. -/
theorem rdnblkReturnsTheCount : Obligations.RdnblkReturnsTheCount := by
  intro s he
  refine ⟨fun n hb hd hn => ?_, fun hb => ?_, fun hb hd => ?_⟩
  · rw [exec, execRdnblk, resultRead_of_done ⟨hb, he⟩ hd, readNblk_ok_iff.2 hn]
    rfl
  · rw [exec, execRdnblk, resultRead_of_busy he hb, replyUnperformed_raise_read]
  · rw [exec, execRdnblk, resultRead_of_not_done ⟨hb, he⟩ hd, replyUnperformed_raise_read]

/-- Settles O41: the checks in their order, then the read of one word of a hash state that holds a value. -/
theorem rddigReturnsTheWord : Obligations.RddigReturnsTheWord := by
  intro s i he
  refine ⟨fun h w hb hd hh hw => ?_, fun hb => ?_, fun hb hd => ?_⟩
  · obtain ⟨_, rfl⟩ := Vector.getElem?_eq_some_iff.1 hw
    refine ⟨(h[i.toNat]).setWidth 64, ?_, BitVec.toNat_setWidth_of_le (by decide)⟩
    rw [exec, execRddig, resultRead_of_done ⟨hb, he⟩ hd, readHash_ok_iff.2 hh]
    rfl
  · rw [exec, execRddig, resultRead_of_busy he hb, replyUnperformed_raise_read]
  · rw [exec, execRddig, resultRead_of_not_done ⟨hb, he⟩ hd, replyUnperformed_raise_read]

/-- Settles O42: an illegal write, then an illegal read; a row decides the cause and the direction alone. -/
theorem illegalWordsRaiseTheirFault : Obligations.IllegalWordsRaiseTheirFault := by
  intro s v i n he
  have write (c : Cause) : (.next (illegalWord false c s) : Result) = .next ((raise c s).setRdata none) :=
    congrArg Host.Outcome.next (illegalWord_of_not_err he false c)
  have read : (.next (illegalWord true .illegalAccess s) : Result) = .next (((raise .illegalAccess s).setRdata
      (some (Config.freeRead s.freeCtr))).setFreeCtr (s.freeCtr + 1)) := by
    rw [illegalWord_of_not_err he, replyUnperformed_raise_read]
  exact ⟨write .illegalCommand, write .illegalAccess, write .illegalAccess, write .illegalAccess,
    write .illegalAccess, write .illegalAccess, write .illegalAccess, read, read, read, read⟩

end Sys2Proof.Machine

/-!
PROOFS. Fault entry and the fault state (R280, R284): what fault entry does in each of its two cases, and that no step
but reset leaves the state it ends in.
-/

namespace Sys2Proof.Machine

/-- Settles O46: fault entry and an accepted START need `ERR = 0`, and EMIT's flags keep `ERR`, `CAUSE` and
`FPHASE`. -/
theorem firstFaultStays : Obligations.FirstFaultStays := by
  intro s t he h hm
  obtain e | ⟨hn, -⟩ | ⟨⟨w, -, -, -, hn⟩, -⟩ | ⟨-, -, e⟩ | ⟨hr, -⟩ := step_status h
  · rw [e]
    exact ⟨he, rfl, rfl⟩
  · exact absurd he (Bool.eq_false_iff.1 hn)
  · exact absurd he (Bool.eq_false_iff.1 hn)
  · rw [e]
    exact ⟨he, rfl, rfl⟩
  · exact absurd hr hm

/-- Settles O45: the two cases of fault entry; the statement writes out `faultFlags`, `goTo` and `dropResults`. -/
theorem faultEntryRecordsAndDrops : Obligations.FaultEntryRecordsAndDrops :=
  fun c _ => ⟨fun he => raise_of_not_err he c, fun he => raise_of_err he c⟩

end Sys2Proof.Machine

/-!
PROOFS. The reset input (R300): its step, and that it alone leaves the fault state.
-/

namespace Sys2Proof.Machine

theorem step_of_reset {s : State} (h : nextMove s = .reset) : step s = .next (applyReset (takeMove s)) := by
  rw [step, h]

/-- Settles O8: `applyReset` takes the core's elements from `State.reset`, and without reset the first fault stays. -/
theorem resetInputRestoresEveryElement : Obligations.ResetInputRestoresEveryElement := by
  refine ⟨fun s rest hin => ?_, fun s t he h ht => ?_⟩
  · have hstep : step s = .next (applyReset (takeMove s)) := step_of_reset (by rw [nextMove, hin, List.headD_cons])
    have hrest : (applyReset (takeMove s)).inputs = rest := congrArg List.tail hin
    obtain ⟨hseq, hstatus, hword, hlen, hregs, hhash, hsched, hplen, hnblk, hpb, -⟩ := resetLeavesTheStatedValues
    exact ⟨_, hstep, hseq, hstatus, hword, hlen, hhash, hregs, hsched, hplen, hnblk, hpb, rfl, rfl, hrest⟩
  · by_contra hm
    obtain ⟨he', -⟩ := firstFaultStays s t he h hm
    exact absurd he' (Bool.eq_false_iff.1 ht)

end Sys2Proof.Machine
